-- ==== Sys2Proof/Word.lean ====
section
/-! DEFINITION. The block's word types (00_scope.md R4, R5). All values are unsigned. -/
namespace Sys2Proof

/-- One buffer element, one register, one command argument: WORD_BITS = 64. -/
abbrev Word := BitVec 64

/-- A symbol: NSYM = 256. -/
abbrev Byte := BitVec 8

/-- A buffer operand: the 4-bit D or S field of the command word (30_encoding.md R81). -/
abbrev BufIdx := BitVec 4

/-- A node index: NODE_IDX_BITS = 9. -/
abbrev NodeIdx := BitVec 9

/-- The 256 path bits of a code-table entry (10_state.md R38). -/
abbrev Path := BitVec 256

/-- The node index that means "no child" (00_scope.md R4). -/
abbrev NodeIdx.null : NodeIdx := 0x1FF#9

/-- NODE_CAP, the number of node slots (00_scope.md R4). -/
abbrev nodeCap : Nat := 511

/-- MAX_PATH, the longest code in bits (00_scope.md R4). -/
abbrev maxPath : Nat := 255

end Sys2Proof
end

