-- ==== Sys2Proof/Config.lean ====
section
/-! DEFINITION. The implementation parameters of the block (00_scope.md R4) and the values the spec leaves open.

A parameter the spec leaves OPEN and a value the spec leaves free is an opaque constant: it has no body, so nothing in
Lean can evaluate it and no proof can rest on a value of it. -/
namespace Sys2Proof

/-- The two parameters that the PARAMS register shows (10_state.md R25). They are a field of `Machine.State`, which no
step writes, so that a statement about every state holds for every legal pair (assumption log 4). -/
structure Params where
  /-- NBUF: how many bit buffers the block has. -/
  nbuf : Nat
  /-- BUF_WORDS: how many 64-bit elements one buffer can hold. -/
  bufWords : Nat
deriving DecidableEq, Repr

/-- 00_scope.md R4: NBUF is 2..16 and BUF_WORDS is 4..2^32-1. -/
abbrev Params.Legal (p : Params) : Prop :=
  2 ≤ p.nbuf ∧ p.nbuf ≤ 16 ∧ 4 ≤ p.bufWords ∧ p.bufWords ≤ 2 ^ 32 - 1

/-- What BUF_WORDS is drawn from. The spec leaves BUF_WORDS OPEN (D7). -/
opaque Config.bufWordsDraw : Nat

/-- BUF_WORDS of the block that `Machine.State.reset` is the reset state of: some value in 4 .. 2^32-1. -/
def Config.bufWords : Nat := Config.bufWordsDraw % (2 ^ 32 - 4) + 4

/-- The parameters at `Machine.State.reset`: NBUF has the default R4 gives it, BUF_WORDS is open. -/
def Config.params : Params := { nbuf := 4, bufWords := Config.bufWords }

/-- The free value a host read draws for the fields that the running command writes (10_state.md R27, 93 I10). Its
argument is the number of the draw. -/
opaque Config.freeRead : Nat → Word

/-- The free value of ERR_INFO where the number R272 asks for does not fit in 64 bits and the spec states no value
(assumption log 12). Its argument is the number of the draw. -/
opaque Config.freeInfo : Nat → Word

end Sys2Proof
end

