-- ==== Sys2Proof/Syntax.lean ====
section
/-! DEFINITION. The commands of the block, one constructor per row of spec/opcode_table.json, in the table's order
(30_encoding.md R84, R85). `d` is the command word's D field and `s` its S field; the scalar operands A0 and A1 are not
part of the word (R83). -/
namespace Sys2Proof

inductive Instr where
  | nop
  | bclr (d : BufIdx)
  | bsetlen (d : BufIdx)
  | bwrw (d : BufIdx)
  | brdw (s : BufIdx)
  | bget (s : BufIdx)
  | bset (d : BufIdx)
  | bunset (d : BufIdx)
  | bapp (d : BufIdx)
  | bappb (d s : BufIdx)
  | benc (d : BufIdx)
  | bshl (d : BufIdx)
  | bshr (d : BufIdx)
  | band (d s : BufIdx)
  | bor (d s : BufIdx)
  | beqp (d s : BufIdx)
  | beq (d s : BufIdx)
  | ctclr
  | ctwr (s : BufIdx)
  | ctrd (d : BufIdx)
  | walk
  | tclr
  | trst
  | tins (s : BufIdx)
  | nwr
  | nrd
  | troot
  | dec (d s : BufIdx)
  | clrerr
deriving DecidableEq, Repr

/-- The D operand, for the formats that have one (30_encoding.md R84). -/
def Instr.dst? : Instr → Option BufIdx
  | .bclr d | .bsetlen d | .bwrw d | .bset d | .bunset d | .bapp d | .bappb d _ | .benc d => some d
  | .bshl d | .bshr d | .band d _ | .bor d _ | .beqp d _ | .beq d _ | .ctrd d | .dec d _ => some d
  | .nop | .brdw _ | .bget _ | .ctclr | .ctwr _ | .walk | .tclr | .trst | .tins _ => none
  | .nwr | .nrd | .troot | .clrerr => none

/-- The S operand, for the formats that have one (30_encoding.md R84). -/
def Instr.src? : Instr → Option BufIdx
  | .brdw s | .bget s | .bappb _ s | .band _ s | .bor _ s | .beqp _ s | .beq _ s => some s
  | .ctwr s | .tins s | .dec _ s => some s
  | .nop | .bclr _ | .bsetlen _ | .bwrw _ | .bset _ | .bunset _ | .bapp _ | .benc _ => none
  | .bshl _ | .bshr _ | .ctclr | .ctrd _ | .walk | .tclr | .trst | .nwr | .nrd | .troot | .clrerr => none

/-- The four formats, each named by the buffer fields it uses (30_encoding.md R82). -/
inductive Format where
  | f0
  | fd
  | fs
  | fds
deriving DecidableEq, Repr

/-- The format of a command (30_encoding.md R84, R85): which buffer fields it has. -/
def Instr.format (i : Instr) : Format :=
  match i.dst?, i.src? with
  | none, none => .f0
  | some _, none => .fd
  | none, some _ => .fs
  | some _, some _ => .fds

def Format.usesD : Format → Bool
  | .fd | .fds => true
  | .f0 | .fs => false

def Format.usesS : Format → Bool
  | .fs | .fds => true
  | .f0 | .fd => false

end Sys2Proof
end

