-- ==== Sys2Proof/WellFormed.lean ====
section
/-! DEFINITION. Which commands a block with NBUF buffers has: a used D or S field names one of its buffers
(30_encoding.md R83, R87). -/
namespace Sys2Proof

/-- Buffer `b` exists in a block with `nbuf` buffers. -/
def bufOk (nbuf : Nat) (b : Option BufIdx) : Bool :=
  b.all fun b => decide (b.toNat < nbuf)

def wellFormed (nbuf : Nat) (i : Instr) : Bool :=
  bufOk nbuf i.dst? && bufOk nbuf i.src?

end Sys2Proof
end

