-- ==== Sys2Proof/Decode.lean ====
section
/-! DEFINITION. The command encoding of 30_encoding.md: the decoder of R89, total on every 64-bit CMD value and
rejecting by name, and after it the encoder of R81 and R90. -/
namespace Sys2Proof

/-- The opcode map (30_encoding.md R85). -/
def Instr.opcode : Instr → Byte
  | .nop => 0x00#8
  | .bclr _ => 0x01#8
  | .bsetlen _ => 0x02#8
  | .bwrw _ => 0x03#8
  | .brdw _ => 0x04#8
  | .bget _ => 0x05#8
  | .bset _ => 0x06#8
  | .bunset _ => 0x07#8
  | .bapp _ => 0x10#8
  | .bappb _ _ => 0x11#8
  | .benc _ => 0x12#8
  | .bshl _ => 0x20#8
  | .bshr _ => 0x21#8
  | .band _ _ => 0x22#8
  | .bor _ _ => 0x23#8
  | .beqp _ _ => 0x24#8
  | .beq _ _ => 0x25#8
  | .ctclr => 0x30#8
  | .ctwr _ => 0x31#8
  | .ctrd _ => 0x32#8
  | .walk => 0x33#8
  | .tclr => 0x40#8
  | .trst => 0x41#8
  | .tins _ => 0x42#8
  | .nwr => 0x43#8
  | .nrd => 0x44#8
  | .troot => 0x45#8
  | .dec _ _ => 0x50#8
  | .clrerr => 0x7F#8

/-- Every command with these buffer fields, in the order of R85. -/
def commandsWith (d s : BufIdx) : List Instr :=
  [.nop, .bclr d, .bsetlen d, .bwrw d, .brdw s, .bget s, .bset d, .bunset d] ++
  [.bapp d, .bappb d s, .benc d, .bshl d, .bshr d, .band d s, .bor d s, .beqp d s, .beq d s] ++
  [.ctclr, .ctwr s, .ctrd d, .walk, .tclr, .trst, .tins s, .nwr, .nrd, .troot, .dec d s, .clrerr]

/-- The command an OPC value names, with the word's D and S fields put where its format has them. -/
def lookup (opc : Byte) (d s : BufIdx) : Option Instr :=
  (commandsWith d s).find? fun i => i.opcode == opc

/-- Why a CMD value is no command (30_encoding.md R86, R87, R89). -/
inductive DecodeError where
  /-- OPC is not in the opcode map. -/
  | illegalOpcode
  /-- CMD[63:16] ≠ 0: BAD_FIELD(1). -/
  | reservedBits
  /-- A D or S field the format does not use is not 0: BAD_FIELD(2). -/
  | unusedField
  /-- A used D field is NBUF or more: BAD_FIELD(3). -/
  | dRange
  /-- A used S field is NBUF or more: BAD_FIELD(4). -/
  | sRange
deriving DecidableEq, Repr

def opcField (w : Word) : Byte := w.extractLsb' 0 8
def dField (w : Word) : BufIdx := w.extractLsb' 8 4
def sField (w : Word) : BufIdx := w.extractLsb' 12 4
def reservedField (w : Word) : BitVec 48 := w.extractLsb' 16 48

/-- The checks of 30_encoding.md R89, in its order: OPC first, then the reserved bits, the unused fields, the D range
and the S range. -/
def decode (nbuf : Nat) (w : Word) : Except DecodeError Instr :=
  match lookup (opcField w) (dField w) (sField w) with
  | none => .error .illegalOpcode
  | some i =>
    if reservedField w ≠ 0#48 then .error .reservedBits
    else if ¬ i.format.usesD ∧ dField w ≠ 0#4 then .error .unusedField
    else if ¬ i.format.usesS ∧ sField w ≠ 0#4 then .error .unusedField
    else if i.format.usesD ∧ (dField w).toNat ≥ nbuf then .error .dRange
    else if i.format.usesS ∧ (sField w).toNat ≥ nbuf then .error .sRange
    else .ok i

/-- The CMD value of a command: OPC | (D << 8) | (S << 12), an unused field 0 (30_encoding.md R81, R90). -/
def encode (i : Instr) : Word :=
  i.opcode.setWidth 64 ||| (i.dst?.getD 0#4).setWidth 64 <<< 8 ||| (i.src?.getD 0#4).setWidth 64 <<< 12

/-- The mask over CMD[31:0] of a format (30_encoding.md R82). -/
def Format.mask : Format → BitVec 32
  | .f0 => 0xFFFFFFFF#32
  | .fd => 0xFFFFF0FF#32
  | .fs => 0xFFFF0FFF#32
  | .fds => 0xFFFF00FF#32

/-- The host's question about one row of the opcode table: the command whose word has the bits `w`, of which the
table gives `nbits`; every bit above is 0. The range check is that of the block at reset. -/
def decodeTableWord (nbits w : Nat) : Option Instr :=
  (decode Config.params.nbuf (BitVec.ofNat 64 (w % 2 ^ nbits))).toOption

end Sys2Proof
end

