-- ==== Sys2Proof/Machine/State.lean ====
section
/-! DEFINITION. The state of the block as plain data (10_state.md), its reset (70_reset_and_hazards.md R300), and the
reasons a step can stop. -/
namespace Sys2Proof.Machine

/-- KIND of a node slot (10_state.md R40): 0 is Internal, 1 is Data. -/
inductive NodeKind where
  | internal
  | data
deriving DecidableEq, Repr

/-- One slot of the node memory (10_state.md R40). -/
structure Node where
  kind : NodeKind
  sym : Byte
  left : NodeIdx
  right : NodeIdx
deriving DecidableEq, Repr

/-- EMPTY (10_state.md R42). -/
def Node.empty : Node := { kind := .internal, sym := 0#8, left := NodeIdx.null, right := NodeIdx.null }

/-- One entry of the code table (10_state.md R38). Path bit j is `path[255 - j]`. -/
structure Entry where
  valid : Bool
  len : Byte
  path : Path
deriving DecidableEq, Repr

/-- The reset value of an entry, and what invalidating one makes it (10_state.md R38, 44_code_table.md). -/
def Entry.invalid : Entry := { valid := false, len := 0#8, path := 0#256 }

/-- One bit buffer (10_state.md R30). `elems` holds E[0 .. EC-1] and its length is EC: an element at or past EC is
never observable and is not kept (R36). `len` is LEN. -/
structure Buf where
  elems : List Word
  len : Nat
deriving DecidableEq, Repr

/-- EC = 0 and LEN = 0. -/
def Buf.empty : Buf := { elems := [], len := 0 }

/-- The error codes (60_exceptions.md R271). No other code is ever latched. -/
inductive ErrCode where
  | none
  | illegalOpcode
  | badField
  | capacity
  | badLength
  | noCode
  | nodeIndex
  | treeMalformed
  | recordConflict
  | decodeCorrupt
  | decodeTrailing
  | busyOverrun
deriving DecidableEq, Repr

/-- One move of one of the three agents (10_state.md R20). -/
inductive Move where
  /-- The engine's turn (R27). -/
  | engine
  /-- A host write of `value`, `bytes` wide, at byte offset `off` of the window. -/
  | write (off bytes : Nat) (value : Word)
  /-- A host read, `bytes` wide, at byte offset `off` of the window. -/
  | read (off bytes : Nat)
  /-- The reset input, with the CMD write the host makes in the same step, if any, which is lost
  (70_reset_and_hazards.md R301). -/
  | reset (lostCmd : Option Word)
deriving DecidableEq, Repr

structure State where
  /-- NBUF and BUF_WORDS, as PARAMS shows them (R25). No step writes it. -/
  params : Params
  /-- ARG0 (R22, R26). -/
  arg0 : Word
  /-- ARG1 (R22, R26). -/
  arg1 : Word
  /-- RESULT (R28). -/
  result : Word
  /-- STATUS.BUSY (R23, R27). -/
  busy : Bool
  /-- STATUS.EQ (R23, R29). -/
  eq : Bool
  /-- ERR_CODE (R24). STATUS.ERR is 1 exactly when it is not `none` (R23). -/
  errCode : ErrCode
  /-- ERR_INFO (R24). -/
  errInfo : Word
  /-- ROOT (R43). -/
  root : NodeIdx
  /-- SYMCOUNT (R44). -/
  symCount : Word
  /-- BITPOS (R44). -/
  bitPos : Word
  /-- The bit buffers (R30). A slot at or past NBUF is no buffer of the block and stays empty (assumption log 11). -/
  bufs : Vector Buf 16
  /-- The code table (R38). -/
  ct : Vector Entry 256
  /-- NODE[0 .. NODE_COUNT-1]; its length is NODE_COUNT (R40, R43). -/
  nodes : List Node
  /-- LCMD, LA0, LA1 and LBLK, the command latch (R26). -/
  lcmd : Word
  la0 : Word
  la1 : Word
  lblk : Bool
  /-- The model's own: the coming moves of the agents, the next one first (assumption log 1). -/
  agenda : List Move
  /-- The model's own: the value the last host read returned (assumption log 7). -/
  rdata : Word
  /-- The model's own: how many free values were drawn (assumption log 8). -/
  draws : Nat
deriving DecidableEq, Repr

/-- The state after reset of a block with the given parameters (70_reset_and_hazards.md R300). LCMD, LA0 and LA1 are
unspecified there and take 0 (assumption log 9). -/
def State.resetWith (p : Params) : State where
  params := p
  arg0 := 0#64
  arg1 := 0#64
  result := 0#64
  busy := false
  eq := false
  errCode := .none
  errInfo := 0#64
  root := NodeIdx.null
  symCount := 0#64
  bitPos := 0#64
  bufs := Vector.replicate 16 Buf.empty
  ct := Vector.replicate 256 Entry.invalid
  nodes := []
  lcmd := 0#64
  la0 := 0#64
  la1 := 0#64
  lblk := false
  agenda := []
  rdata := 0#64
  draws := 0

/-- The state after reset (R300). -/
def State.reset : State := State.resetWith Config.params

/-- The reasons a step can stop with a fault. There is none: an error of the block is a latched outcome of its command
and the machine goes on (60_exceptions.md R270; assumption log 15). -/
inductive Fault where
deriving DecidableEq, Repr

/-- The reasons a step can be refused. -/
inductive Refusal where
  /-- A command that has no meaning in this model yet. Raised by `exec` alone. Safe: nothing is proved of it. -/
  | notModelled (mnemonic : String)
  /-- A host access that is not a whole, aligned 64-bit access (20_memory.md R67, parameter NARROW_ACCESS). Raised by
  `agentStep` alone. Safe: the spec defines no outcome for such an access and asks a model to refuse it. -/
  | narrowAccess
deriving DecidableEq, Repr

/-- What a meaning answers. -/
abbrev Out := Host.Outcome State Fault Refusal

end Sys2Proof.Machine
end

