-- ==== Sys2Proof/Machine/Ops.lean ====
section
/-! DEFINITION. The named operations over the block's memories and registers (10_state.md R32 to R45, 20_memory.md R63,
R64) and the error latch (60_exceptions.md R275), which every command shares. -/
namespace Sys2Proof.Machine

/-- ceil(n / 64) (00_scope.md R6). -/
def ceil64 (n : Nat) : Nat := (n + 63) / 64

/-- `v` with bit `j` made `x`. -/
def setBit (v : Word) (j : Nat) (x : Bool) : Word :=
  if x then v ||| (1#64 <<< j) else v &&& ~~~(1#64 <<< j)

/-! One bit buffer. -/

/-- EC (R30). -/
def Buf.ec (b : Buf) : Nat := b.elems.length

/-- MemRead (R32). -/
def Buf.memRead (b : Buf) (k : Nat) : Word :=
  if k < b.ec then b.elems.getD k 0#64 else 0#64

/-- MemWrite, for k < EC (R32). -/
def Buf.memWrite (b : Buf) (k : Nat) (v : Word) : Buf :=
  { b with elems := b.elems.set k v }

/-- The bit at stream position i (R33). -/
def Buf.bit (b : Buf) (i : Nat) : Bool :=
  if i < 64 * b.ec then (b.memRead (i / 64)).getLsbD (63 - i % 64) else false

/-- put, for i < 64 * EC (R34). -/
def Buf.put (b : Buf) (i : Nat) (x : Bool) : Buf :=
  b.memWrite (i / 64) (setBit (b.memRead (i / 64)) (63 - i % 64) x)

/-- grow: new elements are zero, EC never falls (R35). -/
def Buf.grow (b : Buf) (m : Nat) : Buf :=
  { b with elems := b.elems ++ List.replicate (m - b.ec) 0#64 }

/-- put of each bit of a list, at position i onward. -/
def Buf.putBits : Buf → Nat → List Bool → Buf
  | b, _, [] => b
  | b, i, x :: xs => (b.put i x).putBits (i + 1) xs

/-- The first LEN bits, in stream order. -/
def Buf.bits (b : Buf) : List Bool := (List.range b.len).map b.bit

/-- How many elements an append of n bits needs (41_pack.md R100). -/
def Buf.needs (b : Buf) (n : Nat) : Nat := ceil64 (b.len + n)

/-- An append without its capacity check: grow, put each bit from position LEN onward, raise LEN (41_pack.md R100). -/
def Buf.append (b : Buf) (xs : List Bool) : Buf :=
  { (b.grow (b.needs xs.length)).putBits b.len xs with len := b.len + xs.length }

/-- FREE, a derived value that no command reads (R37). -/
def Buf.free (b : Buf) : Nat := (64 - b.len % 64) % 64

/-- V(b) = E[0] : E[1] : ... : E[EC-1] as one number (20_memory.md R63). -/
def Buf.value (b : Buf) : Nat := b.elems.foldl (fun acc e => acc * 2 ^ 64 + e.toNat) 0

/-- Serialized byte m (20_memory.md R64). -/
def Buf.serialByte (b : Buf) (m : Nat) : Byte := (b.memRead (m / 8)).extractLsb' (56 - 8 * (m % 8)) 8

/-- What the host writes to a file: the first ceil(LEN/8) serialized bytes (20_memory.md R64). -/
def Buf.serialize (b : Buf) : List Byte := (List.range ((b.len + 7) / 8)).map b.serialByte

/-- Bits 7 down to 0 of a symbol: most significant first (46_decode.md R240). -/
def symbolBits (sym : Byte) : List Bool := (List.range 8).map fun j => sym.getLsbD (7 - j)

/-! Code-table paths. -/

/-- `p` with path bit j, that is `p[255 - j]`, made `x` (R38). -/
def pathPut (p : Path) (j : Nat) (x : Bool) : Path :=
  if x then p ||| (1#256 <<< (255 - j)) else p &&& ~~~(1#256 <<< (255 - j))

/-- pathPut of each bit of a list, at path bit j onward. -/
def pathPutBits : Path → Nat → List Bool → Path
  | p, _, [] => p
  | p, j, x :: xs => pathPutBits (pathPut p j x) (j + 1) xs

/-- Path bit j (R38). -/
def pathBit (p : Path) (j : Nat) : Bool := if j < 256 then p.getLsbD (255 - j) else false

/-- The entry of a code: its bits from path bit 0 on, every later path bit 0 (R39, D34). -/
def Entry.ofCode (bits : List Bool) : Entry :=
  { valid := true, len := BitVec.ofNat 8 bits.length, path := pathPutBits 0#256 0 bits }

/-- The L path bits of an entry. -/
def Entry.bits (e : Entry) : List Bool := (List.range e.len.toNat).map (pathBit e.path)

/-! Nodes. -/

def NodeKind.toBit : NodeKind → BitVec 1
  | .internal => 0#1
  | .data => 1#1

def NodeKind.ofBit (x : Bool) : NodeKind := if x then .data else .internal

/-- pack (R41). -/
def Node.pack (n : Node) : Word :=
  n.sym.setWidth 64 ||| n.kind.toBit.setWidth 64 <<< 8 ||| n.left.setWidth 64 <<< 16 ||| n.right.setWidth 64 <<< 32

/-- The node of a packed value, its reserved bits not looked at (R41, 45_tree.md R216). -/
def Node.unpack (v : Word) : Node :=
  { kind := NodeKind.ofBit (v.getLsbD 8)
    sym := v.extractLsb' 0 8
    left := v.extractLsb' 16 9
    right := v.extractLsb' 32 9 }

/-- The reserved bits of a packed node are 0 (R41). -/
def packedReservedZero (v : Word) : Bool :=
  v.extractLsb' 9 7 == 0#7 && v.extractLsb' 25 7 == 0#7 && v.extractLsb' 41 23 == 0#23

/-- The child that a bit selects: 0 is left and 1 is right (00_scope.md R9). -/
def Node.child (n : Node) (x : Bool) : NodeIdx := if x then n.right else n.left

def Node.setChild (n : Node) (x : Bool) (c : NodeIdx) : Node :=
  if x then { n with right := c } else { n with left := c }

/-- NODE[n]. A slot that is not allocated is never read by a rule; it reads EMPTY here (assumption log 17). -/
def nodeAt (nodes : List Node) (n : NodeIdx) : Node := nodes.getD n.toNat Node.empty

/-! Reads and writes of the state. -/

def State.buf (s : State) (b : BufIdx) : Buf := s.bufs[b.toNat]'b.isLt

def State.setBuf (s : State) (b : BufIdx) (x : Buf) : State :=
  { s with bufs := s.bufs.set b.toNat x b.isLt }

def State.entry (s : State) (sym : Byte) : Entry := s.ct[sym.toNat]'sym.isLt

/-- A code table with one entry replaced. -/
def ctSet (ct : Vector Entry 256) (sym : Byte) (e : Entry) : Vector Entry 256 :=
  ct.set sym.toNat e sym.isLt

def ctGet (ct : Vector Entry 256) (sym : Byte) : Entry := ct[sym.toNat]'sym.isLt

/-- The table with every entry invalid. -/
def ctEmpty : Vector Entry 256 := Vector.replicate 256 Entry.invalid

def State.setCt (s : State) (ct : Vector Entry 256) : State := { s with ct := ct }

def State.setNodes (s : State) (nodes : List Node) : State := { s with nodes := nodes }

def State.setRoot (s : State) (r : NodeIdx) : State := { s with root := r }

def State.setResult (s : State) (v : Word) : State := { s with result := v }

/-- NODE_COUNT (R43). -/
def State.nodeCount (s : State) : Nat := s.nodes.length

def State.node (s : State) (n : NodeIdx) : Node := nodeAt s.nodes n

/-- SYMCOUNT and BITPOS (R44). -/
def State.setDecode (s : State) (symCount bitPos : Word) : State :=
  { s with symCount := symCount, bitPos := bitPos }

def State.setBusy (s : State) (x : Bool) : State := { s with busy := x }

def State.setArg0 (s : State) (v : Word) : State := { s with arg0 := v }

def State.setArg1 (s : State) (v : Word) : State := { s with arg1 := v }

def State.setAgenda (s : State) (ms : List Move) : State := { s with agenda := ms }

/-- The value a host read returns. -/
def State.setRdata (s : State) (v : Word) : State := { s with rdata := v }

/-- One free value was drawn. -/
def State.drawn (s : State) : State := { s with draws := s.draws + 1 }

/-- LCMD, LA0, LA1 and LBLK (R26). -/
def State.setLatch (s : State) (w a0 a1 : Word) (blk : Bool) : State :=
  { s with lcmd := w, la0 := a0, la1 := a1, lblk := blk }

/-- ERR_CODE and ERR_INFO (R24). -/
def State.setErr (s : State) (c : ErrCode) (info : Word) : State :=
  { s with errCode := c, errInfo := info }

/-! The error latch: what an exception is on this hardware. -/

/-- raise (60_exceptions.md R275): the first error is latched with its detail, and a later one is not recorded. A
detail that does not fit in 64 bits, for which the spec states no value, is a free value (assumption log 12). -/
def State.raise (s : State) (c : ErrCode) (info : Nat) : State :=
  if s.errCode = .none then
    if info < 2 ^ 64 then s.setErr c (BitVec.ofNat 64 info)
    else (s.setErr c (Config.freeInfo s.draws)).drawn
  else s

/-- A command that ends at a `raise`, nothing else changed. -/
def State.fail (s : State) (c : ErrCode) (info : Nat) : Out := .next (s.raise c info)

/-- The return from an error: the latch is cleared and nothing is restored (60_exceptions.md R278, 47_control.md
R261). -/
def State.clearErr (s : State) : State := s.setErr .none 0#64

/-- The number of an error code (60_exceptions.md R271). -/
def ErrCode.toByte : ErrCode → Byte
  | .none => 0x00#8
  | .illegalOpcode => 0x01#8
  | .badField => 0x02#8
  | .capacity => 0x03#8
  | .badLength => 0x04#8
  | .noCode => 0x05#8
  | .nodeIndex => 0x06#8
  | .treeMalformed => 0x07#8
  | .recordConflict => 0x08#8
  | .decodeCorrupt => 0x09#8
  | .decodeTrailing => 0x0A#8
  | .busyOverrun => 0x0B#8

/-- The error a word that is no command raises (60_exceptions.md R271). -/
def errCodeOf : DecodeError → ErrCode
  | .illegalOpcode => .illegalOpcode
  | .reservedBits | .unusedField | .dRange | .sRange => .badField

/-- Its ERR_INFO: the whole latched word, or the sub-code (60_exceptions.md R272). -/
def errInfoOf (w : Word) : DecodeError → Nat
  | .illegalOpcode => w.toNat
  | .reservedBits => 1
  | .unusedField => 2
  | .dRange => 3
  | .sRange => 4

/-- Append bits to buffer d, or CAPACITY with nothing changed (41_pack.md R100, R101; 44_code_table.md R185). -/
def State.appendTo (s : State) (d : BufIdx) (xs : List Bool) : Out :=
  if (s.buf d).needs xs.length > s.params.bufWords then s.fail .capacity ((s.buf d).needs xs.length)
  else .next (s.setBuf d ((s.buf d).append xs))

end Sys2Proof.Machine
end

