-- ==== Sys2Proof/Machine/Operands.lean ====
section
/-! DEFINITION. The operand forms (30_encoding.md R83, R84): scalars latched from ARG0 and ARG1 at issue, symbols, bit
positions, element indices, node indices, and the path held by a buffer. Each gives the legal range and the error
outside it. -/
namespace Sys2Proof.Machine

/-- A0 as an unsigned number (R83). -/
def State.a0 (s : State) : Nat := s.la0.toNat

/-- A1 as an unsigned number (R83). -/
def State.a1 (s : State) : Nat := s.la1.toNat

/-- A symbol operand in A0: above 255 it is BAD_FIELD(5) (D50). -/
def State.withSymbol (s : State) (k : Byte → Out) : Out :=
  if s.a0 > 255 then s.fail .badField 5 else k (BitVec.ofNat 8 s.a0)

/-- The path a buffer holds, its first LEN bits: a length of 0 or above 255 is BAD_LENGTH(LEN) (44_code_table.md R181,
45_tree.md R214). -/
def State.withPath (s : State) (b : BufIdx) (k : List Bool → Out) : Out :=
  if (s.buf b).len = 0 ∨ (s.buf b).len > maxPath then s.fail .badLength (s.buf b).len else k (s.buf b).bits

/-- An allocated node index in A0: at or past NODE_COUNT it is NODE_INDEX(A0) (D51). -/
def State.withNode (s : State) (k : NodeIdx → Out) : Out :=
  if s.a0 ≥ s.nodeCount then s.fail .nodeIndex s.a0 else k (BitVec.ofNat 9 s.a0)

/-- The n low bits of v, the most significant of them first (41_pack.md R100). -/
def lowBits (v : Word) (n : Nat) : List Bool := (List.range n).map fun j => v.getLsbD (n - 1 - j)

end Sys2Proof.Machine
end

