-- ==== Sys2Proof/Machine/BitAccess.lean ====
section
/-! DEFINITION. The buffer management and bit access commands (42_bit_access.md). -/
namespace Sys2Proof.Machine

/-- BCLR (R120). -/
def execBclr (d : BufIdx) (s : State) : Out := .next (s.setBuf d Buf.empty)

/-- BSETLEN (R121). -/
def execBsetlen (d : BufIdx) (s : State) : Out :=
  if ceil64 s.a0 > s.params.bufWords then s.fail .capacity (ceil64 s.a0)
  else .next (s.setBuf d { (s.buf d).grow (ceil64 s.a0) with len := s.a0 })

/-- BWRW (R122). -/
def execBwrw (d : BufIdx) (s : State) : Out :=
  if s.a0 ≥ s.params.bufWords then s.fail .capacity (s.a0 + 1)
  else .next (s.setBuf d (((s.buf d).grow (s.a0 + 1)).memWrite s.a0 s.la1))

/-- BRDW (R123). -/
def execBrdw (src : BufIdx) (s : State) : Out := .next (s.setResult ((s.buf src).memRead s.a0))

/-- BGET (R124). -/
def execBget (src : BufIdx) (s : State) : Out :=
  .next (s.setResult ((BitVec.ofBool ((s.buf src).bit s.a0)).setWidth 64))

/-- What BSET and BUNSET share: grow so that position A0 exists, then put the bit there (R125, R126). -/
def State.putAt (s : State) (d : BufIdx) (x : Bool) : Out :=
  if s.a0 / 64 + 1 > s.params.bufWords then s.fail .capacity (s.a0 / 64 + 1)
  else .next (s.setBuf d (((s.buf d).grow (s.a0 / 64 + 1)).put s.a0 x))

/-- BSET (R125). -/
def execBset (d : BufIdx) (s : State) : Out := s.putAt d true

/-- BUNSET (R126). -/
def execBunset (d : BufIdx) (s : State) : Out := s.putAt d false

end Sys2Proof.Machine
end

