-- ==== Sys2Proof/Machine/CodeTable.lean ====
section
/-! DEFINITION. The code table, the code-tree walker and the encoder (44_code_table.md). -/
namespace Sys2Proof.Machine

/-- CTCLR (R180). -/
def execCtclr (s : State) : Out := .next (s.setCt ctEmpty)

/-- CTWR (R181). -/
def execCtwr (src : BufIdx) (s : State) : Out :=
  s.withSymbol fun sym => s.withPath src fun bits => .next (s.setCt (ctSet s.ct sym (Entry.ofCode bits)))

/-- CTRD (R182). D is cleared, then a valid entry's L bits are appended; BUF_WORDS ≥ 4 has room for them. -/
def execCtrd (d : BufIdx) (s : State) : Out :=
  s.withSymbol fun sym =>
    if (s.entry sym).valid then
      .next ((s.setBuf d (Buf.empty.append (s.entry sym).bits)).setResult ((s.entry sym).len.setWidth 64))
    else .next ((s.setBuf d Buf.empty).setResult 0#64)

/-- The walker's table and visit count (R183, 10_state.md R46). -/
structure Walk where
  ct : Vector Entry 256
  visits : Nat
deriving DecidableEq, Repr

/-- A walk that raised: the table as recorded before the error, the code and its detail (R183, D33). -/
structure WalkError where
  ct : Vector Entry 256
  code : ErrCode
  info : Nat
deriving DecidableEq, Repr

/-- visit at a Data node reached by `route`, the edge choices from the root (0 left, 1 right) (R183). The code of a
Data root is the one bit 0. -/
def walkLeaf (w : Walk) (n : NodeIdx) (x : Node) (route : List Bool) : Except WalkError Walk :=
  if x.left ≠ NodeIdx.null ∨ x.right ≠ NodeIdx.null then .error ⟨w.ct, .treeMalformed, n.toNat⟩
  else if (ctGet w.ct x.sym).valid then .error ⟨w.ct, .treeMalformed, n.toNat⟩
  else .ok { w with ct := ctSet w.ct x.sym (Entry.ofCode (if route = [] then [false] else route)) }

/-- One edge of an Internal node (R183): a NULL child is skipped (D31), a child deeper than 255 is refused, and any
other child is visited. -/
def walkEdge (child : NodeIdx) (route : List Bool) (visitChild : Walk → Except WalkError Walk) (w : Walk) :
    Except WalkError Walk :=
  if child = NodeIdx.null then .ok w
  else if route.length + 1 > maxPath then .error ⟨w.ct, .treeMalformed, child.toNat⟩
  else visitChild w

/-- visit(n, depth) of R183. `route` holds bits 0 .. depth-1 of the path register, the only ones that reach an entry,
and its length is the depth. `fuel` counts the levels of the return stack that are left: 256 at the root
(10_state.md R46), and the depth check stops the walk before they run out (assumption log 23). -/
def walkVisit (nodes : List Node) : Nat → NodeIdx → List Bool → Walk → Except WalkError Walk
  | 0, n, _, w => .error ⟨w.ct, .treeMalformed, n.toNat⟩
  | fuel + 1, n, route, w =>
    if n.toNat ≥ nodes.length then .error ⟨w.ct, .nodeIndex, n.toNat⟩
    else if w.visits + 1 > nodes.length then .error ⟨w.ct, .treeMalformed, n.toNat⟩
    else
      let x := nodeAt nodes n
      let counted := { w with visits := w.visits + 1 }
      match x.kind with
      | .data => walkLeaf counted n x route
      | .internal =>
        match walkEdge x.left route (walkVisit nodes fuel x.left (route ++ [false])) counted with
        | .error e => .error e
        | .ok w' => walkEdge x.right route (walkVisit nodes fuel x.right (route ++ [true])) w'

/-- The walk from ROOT over an empty table (R183). -/
def walkTree (nodes : List Node) (root : NodeIdx) : Except WalkError Walk :=
  walkVisit nodes 256 root [] { ct := ctEmpty, visits := 0 }

/-- WALK (R183). The table is cleared first, also when ROOT = NULL then ends the command. -/
def execWalk (s : State) : Out :=
  if s.root = NodeIdx.null then (s.setCt ctEmpty).fail .nodeIndex 0x1FF
  else
    match walkTree s.nodes s.root with
    | .ok w => .next (s.setCt w.ct)
    | .error e => (s.setCt e.ct).fail e.code e.info

/-- BENC (R185). -/
def execBenc (d : BufIdx) (s : State) : Out :=
  s.withSymbol fun sym =>
    if (s.entry sym).valid then s.appendTo d (s.entry sym).bits else s.fail .noCode sym.toNat

end Sys2Proof.Machine
end

