-- ==== Sys2Proof/Machine/Control.lean ====
section
/-! DEFINITION. The control commands (47_control.md). -/
namespace Sys2Proof.Machine

/-- NOP (R260). -/
def execNop (s : State) : Out := .next s

/-- CLRERR (R261). -/
def execClrerr (s : State) : Out := .next s.clearErr

end Sys2Proof.Machine
end

