-- ==== Sys2Proof/Machine/Pack.lean ====
section
/-! DEFINITION. The packing commands (41_pack.md). -/
namespace Sys2Proof.Machine

/-- BAPP (R100). -/
def execBapp (d : BufIdx) (s : State) : Out :=
  if s.a1 > 64 then s.fail .badLength s.a1 else s.appendTo d (lowBits s.la0 s.a1)

/-- BAPPB (R101). The source bits are those of the buffer at issue, so D = S appends the buffer to itself once. -/
def execBappb (d src : BufIdx) (s : State) : Out :=
  s.appendTo d (s.buf src).bits

end Sys2Proof.Machine
end

