-- ==== Sys2Proof/Machine/Payload.lean ====
section
/-! DEFINITION. The payload decoder command (46_decode.md). -/
namespace Sys2Proof.Machine

/-- What DEC carries from bit to bit (R240, 10_state.md R47): the output buffer, how many symbols it emitted, the
cursor, and the position where the current code began, which is BITPOS. -/
structure Decoding where
  out : Buf
  count : Nat
  cur : NodeIdx
  start : Nat
deriving DecidableEq, Repr

/-- Where bit x leads from the cursor. A Data root acts as an Internal node with itself on the left (R240, D40). -/
def decNext (nodes : List Node) (root cur : NodeIdx) (x : Bool) : NodeIdx :=
  if cur = root ∧ (nodeAt nodes root).kind = .data then (if x then NodeIdx.null else root)
  else (nodeAt nodes cur).child x

/-- The loop of R240 over the payload bits from position i on. It answers how far it came, and the code and detail of
the error that ended it, if one did. -/
def decLoop (bufWords : Nat) (nodes : List Node) (root : NodeIdx) :
    Nat → List Bool → Decoding → Decoding × Option (ErrCode × Nat)
  | _, [], k => (k, none)
  | i, x :: xs, k =>
    let c := decNext nodes root k.cur x
    if c = NodeIdx.null then (k, some (.decodeCorrupt, i))
    else if c.toNat ≥ nodes.length then (k, some (.nodeIndex, c.toNat))
    else
      match (nodeAt nodes c).kind with
      | .data =>
        if k.out.needs 8 > bufWords then (k, some (.capacity, k.out.needs 8))
        else
          decLoop bufWords nodes root (i + 1) xs
            { out := k.out.append (symbolBits (nodeAt nodes c).sym), count := k.count + 1, cur := root, start := i + 1 }
      | .internal => decLoop bufWords nodes root (i + 1) xs { k with cur := c }

/-- The state that a decode leaves: the output in buffer d, SYMCOUNT = RESULT, and BITPOS (R240, D42). -/
def State.decoded (s : State) (d : BufIdx) (k : Decoding) : State :=
  ((s.setBuf d k.out).setDecode (BitVec.ofNat 64 k.count) (BitVec.ofNat 64 k.start)).setResult (BitVec.ofNat 64 k.count)

/-- DEC (R240). -/
def execDec (d src : BufIdx) (s : State) : Out :=
  if d = src then s.fail .badField 7
  else if s.root = NodeIdx.null then s.fail .nodeIndex 0x1FF
  else
    match decLoop s.params.bufWords s.nodes s.root 0 (s.buf src).bits ⟨s.buf d, 0, s.root, 0⟩ with
    | (k, some (code, info)) => (s.decoded d k).fail code info
    | (k, none) =>
      if k.start ≠ (s.buf src).len then (s.decoded d k).fail .decodeTrailing k.start else .next (s.decoded d k)

end Sys2Proof.Machine
end

