-- ==== Sys2Proof/Machine/Flags.lean ====
section
/-! DEFINITION. The flags of STATUS (10_state.md R23): EQ, which BEQP and BEQ compute (R29), and the read-only mirror
ERR. -/
namespace Sys2Proof.Machine

/-- EQ <- e and RESULT <- zext_64(e) (43_shift_logic.md R154, R155). -/
def State.setEq (s : State) (e : Bool) : State :=
  { s with eq := e, result := (BitVec.ofBool e).setWidth 64 }

/-- STATUS.ERR is 1 exactly when ERR_CODE ≠ 0 (R23). -/
def State.err (s : State) : Bool := s.errCode != .none

/-- STATUS: BUSY in bit 0, ERR in bit 1, EQ in bit 2, every other bit 0 (R23). -/
def State.status (s : State) : Word :=
  (BitVec.ofBool s.eq ++ (BitVec.ofBool s.err ++ BitVec.ofBool s.busy)).setWidth 64

/-- Prefix equality: the elements that both buffers have agree (43_shift_logic.md R154). -/
def prefixEq (x y : Buf) : Bool :=
  (List.range (min x.ec y.ec)).all fun k => x.memRead k == y.memRead k

/-- Full equality: the same LEN and the same first LEN bits (43_shift_logic.md R155). -/
def fullEq (x y : Buf) : Bool :=
  x.len == y.len && (List.range x.len).all fun i => x.bit i == y.bit i

end Sys2Proof.Machine
end

