-- ==== Sys2Proof/Machine/ShiftLogic.lean ====
section
/-! DEFINITION. The shift, logic and compare commands (43_shift_logic.md). -/
namespace Sys2Proof.Machine

/-- Element k of the buffer shifted left by n (R150). -/
def shlElem (es : List Word) (n k : Nat) : Word :=
  let q := n / 64
  let r := n % 64
  let hi := if k + q < es.length then es.getD (k + q) 0#64 <<< r else 0#64
  let lo := if r ≠ 0 ∧ k + q + 1 < es.length then es.getD (k + q + 1) 0#64 >>> (64 - r) else 0#64
  hi ||| lo

/-- Element k of the buffer shifted right by n (R151). -/
def shrElem (es : List Word) (n k : Nat) : Word :=
  let q := n / 64
  let r := n % 64
  let lo := if k ≥ q then es.getD (k - q) 0#64 >>> r else 0#64
  let hi := if r ≠ 0 ∧ k ≥ q + 1 then es.getD (k - q - 1) 0#64 <<< (64 - r) else 0#64
  hi ||| lo

/-- A logical shift left of E[0] : ... : E[EC-1]; EC and LEN do not change (R150). -/
def Buf.shl (b : Buf) (n : Nat) : Buf :=
  { b with elems := (List.range b.elems.length).map (shlElem b.elems n) }

/-- A logical shift right of E[0] : ... : E[EC-1]; EC and LEN do not change (R151). -/
def Buf.shr (b : Buf) (n : Nat) : Buf :=
  { b with elems := (List.range b.elems.length).map (shrElem b.elems n) }

/-- f on the elements both lists have; the rest of the first list unchanged (R152, R153). -/
def zipPrefix (f : Word → Word → Word) : List Word → List Word → List Word
  | x :: xs, y :: ys => f x y :: zipPrefix f xs ys
  | xs, [] => xs
  | [], _ => []

/-- The first buffer combined with the second, element-wise up to the shorter element count (R152, R153). -/
def Buf.combine (f : Word → Word → Word) (x y : Buf) : Buf :=
  { x with elems := zipPrefix f x.elems y.elems }

/-- BSHL (R150). -/
def execBshl (d : BufIdx) (s : State) : Out := .next (s.setBuf d ((s.buf d).shl s.a0))

/-- BSHR (R151). -/
def execBshr (d : BufIdx) (s : State) : Out := .next (s.setBuf d ((s.buf d).shr s.a0))

/-- BAND (R152). -/
def execBand (d src : BufIdx) (s : State) : Out :=
  .next (s.setBuf d (Buf.combine (· &&& ·) (s.buf d) (s.buf src)))

/-- BOR (R153). -/
def execBor (d src : BufIdx) (s : State) : Out :=
  .next (s.setBuf d (Buf.combine (· ||| ·) (s.buf d) (s.buf src)))

/-- BEQP (R154). -/
def execBeqp (d src : BufIdx) (s : State) : Out := .next (s.setEq (prefixEq (s.buf d) (s.buf src)))

/-- BEQ (R155). -/
def execBeq (d src : BufIdx) (s : State) : Out := .next (s.setEq (fullEq (s.buf d) (s.buf src)))

end Sys2Proof.Machine
end

