-- ==== Sys2Proof/Machine/Tree.lean ====
section
/-! DEFINITION. The tree commands: node memory and rebuild (45_tree.md). -/
namespace Sys2Proof.Machine

/-- TCLR (R212). -/
def execTclr (s : State) : Out := .next ((s.setNodes []).setRoot NodeIdx.null)

/-- TRST (R213). -/
def execTrst (s : State) : Out := .next ((s.setNodes [Node.empty]).setRoot 0#9)

/-- Pass 1 of TINS (R214): follow the existing part of the path from node n, at path bit j. It answers the node where
the existing part ends and the path bits that are left, or the code and detail of the error. -/
def tinsFollow (nodes : List Node) : NodeIdx → Nat → List Bool → Except (ErrCode × Nat) (NodeIdx × List Bool)
  | _, j, [] => .error (.recordConflict, j)
  | n, j, x :: xs =>
    let c := (nodeAt nodes n).child x
    if c = NodeIdx.null then .ok (n, x :: xs)
    else if c.toNat ≥ nodes.length then .error (.nodeIndex, c.toNat)
    else if (nodeAt nodes c).kind = .data then .error (.recordConflict, j)
    else tinsFollow nodes c (j + 1) xs

/-- Pass 2 of TINS (R214): create the missing nodes in path order below node n, and make the last one the leaf of
`sym`. -/
def tinsCreate (sym : Byte) : List Node → NodeIdx → List Bool → List Node
  | nodes, n, [] => nodes.set n.toNat { nodeAt nodes n with kind := .data, sym := sym }
  | nodes, n, x :: xs =>
    let c := BitVec.ofNat 9 nodes.length
    let grown := nodes ++ [Node.empty]
    tinsCreate sym (grown.set n.toNat ((nodeAt grown n).setChild x c)) c xs

/-- TINS (R214). -/
def execTins (src : BufIdx) (s : State) : Out :=
  s.withSymbol fun sym => s.withPath src fun bits =>
    if s.root = NodeIdx.null then s.fail .nodeIndex 0x1FF
    else if (s.node s.root).kind = .data then s.fail .recordConflict 0
    else
      match tinsFollow s.nodes s.root 0 bits with
      | .error (code, info) => s.fail code info
      | .ok (n, rest) =>
        if s.nodeCount + rest.length > nodeCap then s.fail .capacity (s.nodeCount + rest.length)
        else .next (s.setNodes (tinsCreate sym s.nodes n rest))

/-- Node memory with slot k allocated: the slots from NODE_COUNT to k become EMPTY (R216, D29). -/
def growNodes (nodes : List Node) (k : Nat) : List Node :=
  nodes ++ List.replicate (k + 1 - nodes.length) Node.empty

/-- NWR (R216). -/
def execNwr (s : State) : Out :=
  if ¬ packedReservedZero s.la1 then s.fail .badField 6
  else if s.a0 ≥ nodeCap then s.fail .capacity (s.a0 + 1)
  else .next (s.setNodes ((growNodes s.nodes s.a0).set s.a0 (Node.unpack s.la1)))

/-- NRD (R217). -/
def execNrd (s : State) : Out :=
  s.withNode fun k => .next (s.setResult (s.node k).pack)

/-- TROOT (R218). -/
def execTroot (s : State) : Out :=
  s.withNode fun k => .next (s.setRoot k)

end Sys2Proof.Machine
end

