-- ==== Sys2Proof/Machine/Dispatch.lean ====
section
/-! DEFINITION. The meaning of each command, one arm per constructor of Instr. -/
namespace Sys2Proof.Machine

def exec (i : Instr) (s : State) : Host.Outcome State Fault Refusal :=
  match i with
  | .nop => Sys2Proof.Machine.execNop s
  | .bclr d => Sys2Proof.Machine.execBclr d s
  | .bsetlen d => Sys2Proof.Machine.execBsetlen d s
  | .bwrw d => Sys2Proof.Machine.execBwrw d s
  | .brdw b => Sys2Proof.Machine.execBrdw b s
  | .bget b => Sys2Proof.Machine.execBget b s
  | .bset d => Sys2Proof.Machine.execBset d s
  | .bunset d => Sys2Proof.Machine.execBunset d s
  | .bapp d => Sys2Proof.Machine.execBapp d s
  | .bappb d b => Sys2Proof.Machine.execBappb d b s
  | .benc d => Sys2Proof.Machine.execBenc d s
  | .bshl d => Sys2Proof.Machine.execBshl d s
  | .bshr d => Sys2Proof.Machine.execBshr d s
  | .band d b => Sys2Proof.Machine.execBand d b s
  | .bor d b => Sys2Proof.Machine.execBor d b s
  | .beqp d b => Sys2Proof.Machine.execBeqp d b s
  | .beq d b => Sys2Proof.Machine.execBeq d b s
  | .ctclr => Sys2Proof.Machine.execCtclr s
  | .ctwr b => Sys2Proof.Machine.execCtwr b s
  | .ctrd d => Sys2Proof.Machine.execCtrd d s
  | .walk => Sys2Proof.Machine.execWalk s
  | .tclr => Sys2Proof.Machine.execTclr s
  | .trst => Sys2Proof.Machine.execTrst s
  | .tins b => Sys2Proof.Machine.execTins b s
  | .nwr => Sys2Proof.Machine.execNwr s
  | .nrd => Sys2Proof.Machine.execNrd s
  | .troot => Sys2Proof.Machine.execTroot s
  | .dec d b => Sys2Proof.Machine.execDec d b s
  | .clrerr => Sys2Proof.Machine.execClrerr s

end Sys2Proof.Machine
end

