-- ==== Sys2Proof/Machine/Footprint.lean ====
section
/-! DEFINITION. What each command may write, and the PARAMS word (10_state.md R25).

Which registers a command writes (10_state.md R28, R29, R43, R44; 60_exceptions.md R273). A register that a
command writes on some operands only counts as written (assumption log 5). -/
namespace Sys2Proof

open Sys2Proof.Machine (ErrCode)

/-- R28. -/
def Instr.writesResult : Instr → Bool
  | .brdw _ | .bget _ | .beqp _ _ | .beq _ _ | .ctrd _ | .nrd | .dec _ _ => true
  | .nop | .bclr _ | .bsetlen _ | .bwrw _ | .bset _ | .bunset _ | .bapp _ | .bappb _ _ | .benc _ => false
  | .bshl _ | .bshr _ | .band _ _ | .bor _ _ | .ctclr | .ctwr _ | .walk => false
  | .tclr | .trst | .tins _ | .nwr | .troot | .clrerr => false

/-- R29. -/
def Instr.writesEq : Instr → Bool
  | .beqp _ _ | .beq _ _ => true
  | .nop | .bclr _ | .bsetlen _ | .bwrw _ | .brdw _ | .bget _ | .bset _ | .bunset _ | .bapp _ => false
  | .bappb _ _ | .benc _ | .bshl _ | .bshr _ | .band _ _ | .bor _ _ | .ctclr | .ctwr _ | .ctrd _ => false
  | .walk | .tclr | .trst | .tins _ | .nwr | .nrd | .troot | .dec _ _ | .clrerr => false

/-- R43: ROOT. -/
def Instr.writesRoot : Instr → Bool
  | .tclr | .trst | .troot => true
  | .nop | .bclr _ | .bsetlen _ | .bwrw _ | .brdw _ | .bget _ | .bset _ | .bunset _ | .bapp _ => false
  | .bappb _ _ | .benc _ | .bshl _ | .bshr _ | .band _ _ | .bor _ _ | .beqp _ _ | .beq _ _ => false
  | .ctclr | .ctwr _ | .ctrd _ | .walk | .tins _ | .nwr | .nrd | .dec _ _ | .clrerr => false

/-- R43: NODE_COUNT and the node memory. -/
def Instr.writesNodes : Instr → Bool
  | .tclr | .trst | .tins _ | .nwr => true
  | .nop | .bclr _ | .bsetlen _ | .bwrw _ | .brdw _ | .bget _ | .bset _ | .bunset _ | .bapp _ => false
  | .bappb _ _ | .benc _ | .bshl _ | .bshr _ | .band _ _ | .bor _ _ | .beqp _ _ | .beq _ _ => false
  | .ctclr | .ctwr _ | .ctrd _ | .walk | .nrd | .troot | .dec _ _ | .clrerr => false

/-- R44: SYMCOUNT and BITPOS. -/
def Instr.writesDecode : Instr → Bool
  | .dec _ _ => true
  | .nop | .bclr _ | .bsetlen _ | .bwrw _ | .brdw _ | .bget _ | .bset _ | .bunset _ | .bapp _ => false
  | .bappb _ _ | .benc _ | .bshl _ | .bshr _ | .band _ _ | .bor _ _ | .beqp _ _ | .beq _ _ => false
  | .ctclr | .ctwr _ | .ctrd _ | .walk | .tclr | .trst | .tins _ | .nwr | .nrd | .troot | .clrerr => false

/-- The code table (20_memory.md R60). -/
def Instr.writesCt : Instr → Bool
  | .ctclr | .ctwr _ | .walk => true
  | .nop | .bclr _ | .bsetlen _ | .bwrw _ | .brdw _ | .bget _ | .bset _ | .bunset _ | .bapp _ => false
  | .bappb _ _ | .benc _ | .bshl _ | .bshr _ | .band _ _ | .bor _ _ | .beqp _ _ | .beq _ _ => false
  | .ctrd _ | .tclr | .trst | .tins _ | .nwr | .nrd | .troot | .dec _ _ | .clrerr => false

/-- The buffer whose elements, EC or LEN a command writes, with what it writes beside the elements: EC, LEN. -/
def Instr.writesBuf : Instr → Option (BufIdx × Bool × Bool)
  | .bclr d | .bsetlen d | .bapp d | .bappb d _ | .benc d | .ctrd d | .dec d _ => some (d, true, true)
  | .bwrw d | .bset d | .bunset d => some (d, true, false)
  | .bshl d | .bshr d | .band d _ | .bor d _ => some (d, false, false)
  | .nop | .brdw _ | .bget _ | .beqp _ _ | .beq _ _ | .ctclr | .ctwr _ | .walk => none
  | .tclr | .trst | .tins _ | .nwr | .nrd | .troot | .clrerr => none

/-- The errors a command can raise (60_exceptions.md R273). -/
def Instr.errors : Instr → List ErrCode
  | .bsetlen _ | .bwrw _ | .bset _ | .bunset _ | .bappb _ _ => [.capacity]
  | .bapp _ => [.badLength, .capacity]
  | .benc _ => [.badField, .noCode, .capacity]
  | .ctwr _ => [.badField, .badLength]
  | .ctrd _ => [.badField]
  | .walk => [.nodeIndex, .treeMalformed]
  | .tins _ => [.badField, .badLength, .nodeIndex, .recordConflict, .capacity]
  | .nwr => [.badField, .capacity]
  | .nrd | .troot => [.nodeIndex]
  | .dec _ _ => [.badField, .nodeIndex, .decodeCorrupt, .capacity, .decodeTrailing]
  | .nop | .bclr _ | .brdw _ | .bget _ | .bshl _ | .bshr _ | .band _ _ | .bor _ _ | .beqp _ _ => []
  | .beq _ _ | .ctclr | .tclr | .trst | .clrerr => []

/-- PARAMS: BUF_WORDS in [63:32], zero in [31:8], NBUF in [7:0] (R25). -/
def Params.word (p : Params) : Word :=
  (BitVec.ofNat 32 p.bufWords ++ (0#24 ++ BitVec.ofNat 8 p.nbuf)).setWidth 64

end Sys2Proof
end

