-- ==== Sys2Proof/Machine/Window.lean ====
section
/-! DEFINITION. The host-visible register window (10_state.md R22 to R27, R45): its map, the value of each register,
what a host write does, and what a host read returns while a command runs. -/
namespace Sys2Proof.Machine

/-- The registers of the window (R22). -/
inductive Reg where
  | cmd
  | arg0
  | arg1
  | result
  | status
  | errCode
  | errInfo
  | params
  | root
  | nodeCount
  | symCount
  | bitPos
  | blen (b : BufIdx)
  | ecnt (b : BufIdx)
deriving DecidableEq, Repr

/-- The byte offset of a register (R22). -/
def Reg.offset : Reg → Nat
  | .cmd => 0x000
  | .arg0 => 0x008
  | .arg1 => 0x010
  | .result => 0x018
  | .status => 0x020
  | .errCode => 0x028
  | .errInfo => 0x030
  | .params => 0x038
  | .root => 0x040
  | .nodeCount => 0x048
  | .symCount => 0x050
  | .bitPos => 0x058
  | .blen b => 0x100 + 0x10 * b.toNat
  | .ecnt b => 0x108 + 0x10 * b.toNat

/-- The registers that are not of one buffer, in the order of R22. -/
def plainRegs : List Reg :=
  [.cmd, .arg0, .arg1, .result, .status, .errCode, .errInfo, .params, .root, .nodeCount, .symCount, .bitPos]

/-- The registers of a block with `nbuf` buffers (R22, R45). -/
def Reg.all (nbuf : Nat) : List Reg :=
  plainRegs ++ (List.range nbuf).flatMap fun b => [.blen (BitVec.ofNat 4 b), .ecnt (BitVec.ofNat 4 b)]

/-- The register at an offset, if the map lists one there (R22). -/
def regAt (nbuf off : Nat) : Option Reg :=
  (Reg.all nbuf).find? fun r => r.offset == off

/-- The value of a register; reserved bits are 0 and CMD reads 0 (R22, R23, R24, R25, R43, R45). -/
def State.regValue (s : State) : Reg → Word
  | .cmd => 0#64
  | .arg0 => s.arg0
  | .arg1 => s.arg1
  | .result => s.result
  | .status => s.status
  | .errCode => s.errCode.toByte.setWidth 64
  | .errInfo => s.errInfo
  | .params => s.params.word
  | .root => s.root.setWidth 64
  | .nodeCount => BitVec.ofNat 64 s.nodeCount
  | .symCount => s.symCount
  | .bitPos => s.bitPos
  | .blen b => BitVec.ofNat 64 (s.buf b).len
  | .ecnt b => BitVec.ofNat 64 (s.buf b).ec

/-- The command writes the error latch: CLRERR does, and a command that can raise does while nothing is latched
(60_exceptions.md R275). -/
def State.writesErr (s : State) (i : Instr) : Bool :=
  i == .clrerr || (s.errCode == .none && !i.errors.isEmpty)

/-- The bits of a register that a running command may write, which a read returns any value for (R27, R306). The other
bits, BUSY in STATUS among them, read exactly. -/
def State.writeMask (s : State) (i : Instr) : Reg → Word
  | .cmd | .arg0 | .arg1 | .params => 0#64
  | .result => if i.writesResult then BitVec.allOnes 64 else 0#64
  | .status => (if s.writesErr i then 0x2#64 else 0#64) ||| (if i.writesEq then 0x4#64 else 0#64)
  | .errCode => if s.writesErr i then 0xFF#64 else 0#64
  | .errInfo => if s.writesErr i then BitVec.allOnes 64 else 0#64
  | .root => if i.writesRoot then 0x1FF#64 else 0#64
  | .nodeCount => if i.writesNodes then 0x3FF#64 else 0#64
  | .symCount | .bitPos => if i.writesDecode then BitVec.allOnes 64 else 0#64
  | .blen b => if i.writesBuf.any fun t => t.1 == b && t.2.2 then BitVec.allOnes 64 else 0#64
  | .ecnt b => if i.writesBuf.any fun t => t.1 == b && t.2.1 then BitVec.allOnes 64 else 0#64

/-- As `writeMask`, for a latched word that is no command: it writes the error latch (30_encoding.md R89). -/
def State.badWordMask (s : State) : Reg → Word
  | .status => if s.errCode = .none then 0x2#64 else 0#64
  | .errCode => if s.errCode = .none then 0xFF#64 else 0#64
  | .errInfo => if s.errCode = .none then BitVec.allOnes 64 else 0#64
  | .cmd | .arg0 | .arg1 | .params | .result | .root | .nodeCount | .symCount | .bitPos | .blen _ | .ecnt _ => 0#64

/-- The bits of a register that read as any value now: none when no command runs or the running one is blocked. -/
def State.openBits (s : State) (r : Reg) : Word :=
  if ¬ s.busy ∨ s.lblk then 0#64
  else
    match decode s.params.nbuf s.lcmd with
    | .error _ => s.badWordMask r
    | .ok i => s.writeMask i r

/-- What a host read of a register returns: its value, with a drawn value in the open bits (R27, I10). -/
def State.readReg (s : State) (r : Reg) : Word :=
  (s.regValue r &&& ~~~s.openBits r) ||| (Config.freeRead s.draws &&& s.openBits r)

/-- A host read at an offset (R22, R70): an offset not listed reads 0, and nothing of the block changes. -/
def State.hostRead (s : State) (off : Nat) : State :=
  match regAt s.params.nbuf off with
  | none => s.setRdata 0#64
  | some r =>
    if s.openBits r = 0#64 then s.setRdata (s.regValue r)
    else (s.setRdata (s.readReg r)).drawn

/-- LBLK for a word: an error is latched and the word is neither NOP nor CLRERR (R26). -/
def State.blocks (s : State) (w : Word) : Bool :=
  s.errCode != .none && w != 0x0#64 && w != 0x7F#64

/-- Issue (R26, R27). -/
def State.issue (s : State) (w : Word) : State :=
  (s.setLatch w s.arg0 s.arg1 (s.blocks w)).setBusy true

/-- A host write of CMD (R27, 60_exceptions.md R277): while BUSY = 1 the word is dropped and BUSY_OVERRUN is latched. -/
def State.writeCmd (s : State) (w : Word) : State :=
  if s.busy then s.raise .busyOverrun w.toNat else s.issue w

/-- A host write at an offset (R22): CMD, ARG0 and ARG1 take it, any other write is ignored. -/
def State.hostWrite (s : State) (off : Nat) (v : Word) : State :=
  match regAt s.params.nbuf off with
  | some .cmd => s.writeCmd v
  | some .arg0 => s.setArg0 v
  | some .arg1 => s.setArg1 v
  | _ => s

/-- The accesses the spec defines: 64 bits wide at a multiple of 8 (20_memory.md R67). -/
def wholeAccess (off bytes : Nat) : Bool := bytes == 8 && off % 8 == 0

/-- The reset input (70_reset_and_hazards.md R300, R301): every piece of the block's state at its reset value. The
parameters and the model's own fields are not the block's to reset (assumption log 16). -/
def State.resetBlock (s : State) : State :=
  { State.resetWith s.params with agenda := s.agenda, rdata := s.rdata, draws := s.draws }

end Sys2Proof.Machine
end

