-- ==== Sys2Proof/Machine/Engine.lean ====
section
/-! DEFINITION. The engine (10_state.md R27, 30_encoding.md R89) and one move of one agent (10_state.md R20). -/
namespace Sys2Proof.Machine

/-- The engine performs the latched word (30_encoding.md R89): nothing when it is blocked, the error of a word that is
no command, else the command. -/
def perform (s : State) : Out :=
  if s.lblk then .next s
  else
    match decode s.params.nbuf s.lcmd with
    | .error e => s.fail (errCodeOf e) (errInfoOf s.lcmd e)
    | .ok i => exec i s

/-- STATUS.BUSY <- 0 at the end of a completion (R27). -/
def finish : Out → Out
  | .next s => .next (s.setBusy false)
  | .fault f => .fault f
  | .refused r => .refused r

/-- The engine's step, enabled while STATUS.BUSY = 1; an idle block keeps its state (R27, 60_exceptions.md R286). -/
def engineStep (s : State) : Out :=
  if s.busy then finish (perform s) else .next s

/-- One move. The agenda says whose turn it is; when it is empty no host or reset move is to come and the engine has
its turn (70_reset_and_hazards.md R310; assumption log 1, 3). -/
def agentStep (s : State) : Out :=
  match s.agenda with
  | [] => engineStep s
  | .engine :: ms => engineStep (s.setAgenda ms)
  | .write off bytes v :: ms =>
    if wholeAccess off bytes then .next ((s.setAgenda ms).hostWrite off v) else .refused .narrowAccess
  | .read off bytes :: ms =>
    if wholeAccess off bytes then .next ((s.setAgenda ms).hostRead off) else .refused .narrowAccess
  | .reset _ :: ms => .next (s.setAgenda ms).resetBlock

/-- The state whose next move is the engine's, completing the word `w` with the arguments in ARG0 and ARG1. The word is
not blocked. -/
def State.withCommand (s : State) (w : Word) : State :=
  ((s.setLatch w s.arg0 s.arg1 false).setBusy true).setAgenda (.engine :: s.agenda)

end Sys2Proof.Machine
end

