-- ==== Sys2Proof/Machine/HostLines.lean ====
section
/-! DEFINITION. The lines of a host program, the moves they stand for and when a program fails: the assembler syntax of
30_encoding.md R90 and the pseudo-instructions of R91. -/
namespace Sys2Proof.Machine

/-- A host action (R90). -/
inductive Line where
  | arg0 (v : Word)
  | arg1 (v : Word)
  | command (i : Instr)
  | read (r : Reg)
  /-- WAIT: STATUS is read until BUSY = 0. -/
  | wait
deriving DecidableEq, Repr

/-- The moves of a line. The polls of a WAIT that read BUSY = 1 change nothing and are left out: the engine has its
turn and then the poll that reads BUSY = 0 is made (assumption log 24). -/
def Line.moves : Line → List Move
  | .arg0 v => [.write Reg.arg0.offset 8 v]
  | .arg1 v => [.write Reg.arg1.offset 8 v]
  | .command i => [.write Reg.cmd.offset 8 (encode i)]
  | .read r => [.read r.offset 8]
  | .wait => [.engine, .read Reg.status.offset 8]

/-- The pseudo-instructions (R91). -/
inductive Pseudo where
  | append (d : BufIdx) (v n : Word)
  | encode (d : BufIdx) (sym : Word)
  | setLen (d : BufIdx) (n : Word)
  | wrw (d : BufIdx) (k v : Word)
  | rdw (s : BufIdx) (k : Word)
  | get (s : BufIdx) (i : Word)
  | set (d : BufIdx) (i : Word)
  | unset (d : BufIdx) (i : Word)
  | shl (d : BufIdx) (n : Word)
  | shr (d : BufIdx) (n : Word)
  | node (k v : Word)
  | setRoot (k : Word)
  | insert (s : BufIdx) (sym : Word)
  | loadPath (d : BufIdx) (n w : Word)
  | check
deriving DecidableEq, Repr

/-- The expansion of a pseudo-instruction (R91). DESIGN CHOICE: R91 gives LOADPATH for 1 ≤ n ≤ 64 only. Outside that
range its lines here are those of the same text with 64 - n cut off at 0: n = 0 shifts w by 64 and appends nothing, and
n > 64 shifts w by nothing and asks BAPP for n bits, which is BAD_LENGTH(n) (assumption log 25). Of CHECK these are the
lines; what it asks of the value read is `Pseudo.failsAt`. -/
def Pseudo.lines : Pseudo → List Line
  | .append d v n => [.arg0 v, .arg1 n, .command (.bapp d), .wait]
  | .encode d sym => [.arg0 sym, .command (.benc d), .wait]
  | .setLen d n => [.arg0 n, .command (.bsetlen d), .wait]
  | .wrw d k v => [.arg0 k, .arg1 v, .command (.bwrw d), .wait]
  | .rdw s k => [.arg0 k, .command (.brdw s), .wait, .read .result]
  | .get s i => [.arg0 i, .command (.bget s), .wait, .read .result]
  | .set d i => [.arg0 i, .command (.bset d), .wait]
  | .unset d i => [.arg0 i, .command (.bunset d), .wait]
  | .shl d n => [.arg0 n, .command (.bshl d), .wait]
  | .shr d n => [.arg0 n, .command (.bshr d), .wait]
  | .node k v => [.arg0 k, .arg1 v, .command .nwr, .wait]
  | .setRoot k => [.arg0 k, .command .troot, .wait]
  | .insert s sym => [.arg0 sym, .command (.tins s), .wait]
  | .loadPath d n w =>
    [.command (.bclr d), .wait, .arg0 (w >>> (64 - n.toNat)), .arg1 n, .command (.bapp d), .wait]
  | .check => [.read .errCode]

/-- The agenda of a list of host actions. -/
def program (ls : List Line) : List Move := ls.flatMap Line.moves

/-- The pseudo-instruction fails its program in the state after its moves: CHECK does unless its read of ERR_CODE
returned 0, and no other one asks anything of what it read (R91). -/
def Pseudo.failsAt (s : State) : Pseudo → Bool
  | .check => s.rdata != 0#64
  | .append _ _ _ | .encode _ _ | .setLen _ _ | .wrw _ _ _ | .rdw _ _ | .get _ _ | .set _ _ | .unset _ _ => false
  | .shl _ _ | .shr _ _ | .node _ _ | .setRoot _ | .insert _ _ | .loadPath _ _ _ => false

/-- One line of a host program: a host action (R90) or a pseudo-instruction (R91). -/
inductive ProgramLine where
  | action (l : Line)
  | pseudo (p : Pseudo)
deriving DecidableEq, Repr

def ProgramLine.moves : ProgramLine → List Move
  | .action l => l.moves
  | .pseudo p => program p.lines

def ProgramLine.failsAt (s : State) : ProgramLine → Bool
  | .action _ => false
  | .pseudo p => p.failsAt s

/-- n steps of the machine, one after the other; a fault or a refusal ends them. -/
def steps : Nat → State → Out
  | 0, s => .next s
  | n + 1, s =>
    match step s with
    | .next t => steps n t
    | .fault f => .fault f
    | .refused r => .refused r

/-- The program fails when its lines are carried out in turn from `s`, the host being the only agent that moves: one of
its CHECKs reads an ERR_CODE other than 0 (R91). R91 does not say whether the host goes on after that, and the answer
does not depend on it: the first CHECK that fails decides. -/
def programFails : List ProgramLine → State → Bool
  | [], _ => false
  | l :: ls, s =>
    match steps l.moves.length (s.setAgenda l.moves) with
    | .next t => l.failsAt t || programFails ls t
    | .fault _ => false
    | .refused _ => false

end Sys2Proof.Machine
end

