-- ==== Sys2Proof/Safety.lean ====
section
/-! DEFINITION. What holds of the block between commands, by the spec's own words (10_state.md R31, R39, R43; 00_scope.md
R4; 10_state.md R26; 60_exceptions.md R271), and what the end of a run is (70_reset_and_hazards.md R312). -/
namespace Sys2Proof.Machine

/-- LEN ≤ 64 * EC and EC ≤ BUF_WORDS (R31). -/
abbrev Buf.Ok (bufWords : Nat) (b : Buf) : Prop := b.len ≤ 64 * b.ec ∧ b.ec ≤ bufWords

/-- A valid entry has a length of at least 1 and no path bit at or past it; an invalid one is the reset value (R38,
R39). -/
abbrev Entry.Ok (e : Entry) : Prop :=
  if e.valid then 1 ≤ e.len.toNat ∧ ∀ j < 256, e.len.toNat ≤ j → pathBit e.path j = false
  else e = Entry.invalid

/-- The memories of the block are in their one canonical form: every buffer of the block is within its bounds and no
other slot holds anything, the code table keeps R39, and no more than NODE_CAP node slots are allocated. -/
abbrev Memory.wf (s : State) : Prop :=
  (∀ b : Fin 16, (s.bufs[b]).Ok s.params.bufWords) ∧
  (∀ b : Fin 16, s.params.nbuf ≤ b.val → s.bufs[b] = Buf.empty) ∧
  (∀ k : Fin 256, (s.ct[k]).Ok) ∧
  s.nodes.length ≤ nodeCap

/-- ROOT = NULL or ROOT < NODE_COUNT (R43). -/
abbrev State.RootOk (s : State) : Prop := s.root = NodeIdx.null ∨ s.root.toNat < s.nodeCount

/-- With no error latched there is no detail either, and a running command is blocked only while an error is latched
(R24, R26). -/
abbrev State.LatchOk (s : State) : Prop :=
  (s.errCode = .none → s.errInfo = 0#64 ∧ ¬ (s.busy ∧ s.lblk))

/-- The invariant of the block. -/
abbrev State.Inv (s : State) : Prop := s.params.Legal ∧ Memory.wf s ∧ s.RootOk ∧ s.LatchOk

/-- The move is a host write of CMD (R27). The word that a reset move carries is lost and issues nothing (R301), and a
narrow or misaligned access is none (20_memory.md R67). -/
def Move.isCommand : Move → Bool
  | .write off bytes _ => wholeAccess off bytes && off == Reg.cmd.offset
  | .engine | .read _ _ | .reset _ => false

/-- A run is over: the host has issued its last command, so no CMD write is to come, and a read of STATUS returns
BUSY = 0, which BUSY itself says since it reads exactly at any time (R312, D62; R27). Reads, ARG writes and a reset may
still come. -/
abbrev State.RunOver (s : State) : Prop := s.agenda.any Move.isCommand = false ∧ s.busy = false

/-- A run that ended here with ERR_CODE ≠ 0 has failed (R312, D62). -/
abbrev State.RunFailed (s : State) : Prop := s.RunOver ∧ s.errCode ≠ .none

/-- The point at which the run from `s` ends, if that is at most n steps away: the first state in which it is over. Its
outcome is the state at that point (R312), so a reset that comes after it does not undo a failure. -/
def runEnd : Nat → State → Option State
  | 0, s => if s.RunOver then some s else none
  | n + 1, s =>
    if s.RunOver then some s
    else
      match step s with
      | .next t => runEnd n t
      | .fault _ => none
      | .refused _ => none

end Sys2Proof.Machine
end

