-- ==== Sys2Proof/Certificates/Slice0/Obligations.lean ====
section
/-! DEFINITION. The statements about the block, from the numbered rules of spec/. -/
namespace Sys2Proof.Claims

open Sys2Proof.Machine

/-- The engine has the next move, and `ms` are the moves after it. The agenda is the model's way to say whose turn it
is (assumption log 1, 3). -/
def EngineTurn (s : State) (ms : List Move) : Prop :=
  s.busy = true ∧ (s.agenda = .engine :: ms ∨ (s.agenda = [] ∧ ms = []))

/-- The opcode values that R86 lists as illegal. -/
def IllegalOpc (n : Nat) : Prop :=
  (0x08 ≤ n ∧ n ≤ 0x0F) ∨ (0x13 ≤ n ∧ n ≤ 0x1F) ∨ (0x26 ≤ n ∧ n ≤ 0x2F) ∨ (0x34 ≤ n ∧ n ≤ 0x3F) ∨
  (0x46 ≤ n ∧ n ≤ 0x4F) ∨ (0x51 ≤ n ∧ n ≤ 0x7E) ∨ (0x80 ≤ n ∧ n ≤ 0xFF)

/-- The mask of R82 for a command, by the buffer fields it uses. -/
def maskOf (i : Instr) : BitVec 32 :=
  match i.dst?, i.src? with
  | none, none => 0xFFFFFFFF#32
  | some _, none => 0xFFFFF0FF#32
  | none, some _ => 0xFFFF0FFF#32
  | some _, some _ => 0xFFFF00FF#32

/-- The register window's value at an offset, as the table of R22 lays it out (R23, R25, R45). -/
def windowValue (s : State) (off : Nat) : Word :=
  if off = 0x008 then s.arg0
  else if off = 0x010 then s.arg1
  else if off = 0x018 then s.result
  else if off = 0x020 then
    BitVec.ofNat 64 ((if s.busy then 1 else 0) + (if s.errCode = .none then 0 else 2) + (if s.eq then 4 else 0))
  else if off = 0x028 then BitVec.ofNat 64 s.errCode.toByte.toNat
  else if off = 0x030 then s.errInfo
  else if off = 0x038 then BitVec.ofNat 64 (s.params.bufWords * 2 ^ 32 + s.params.nbuf)
  else if off = 0x040 then BitVec.ofNat 64 s.root.toNat
  else if off = 0x048 then BitVec.ofNat 64 s.nodes.length
  else if off = 0x050 then s.symCount
  else if off = 0x058 then s.bitPos
  else if 0x100 ≤ off ∧ off < 0x100 + 0x10 * s.params.nbuf then
    if off % 16 = 0 then BitVec.ofNat 64 (s.buf (BitVec.ofNat 4 ((off - 0x100) / 16))).len
    else BitVec.ofNat 64 (s.buf (BitVec.ofNat 4 ((off - 0x100) / 16))).elems.length
  else 0#64

/-- ERR in STATUS, ERR_CODE and ERR_INFO, as offsets with the bits of the register there. -/
def errorLatch : List (Nat × Word) := [(0x020, 0x2#64), (0x028, 0xFF#64), (0x030, BitVec.allOnes 64)]

/-- RESULT. -/
def resultReg : List (Nat × Word) := [(0x018, BitVec.allOnes 64)]

/-- ROOT. -/
def rootReg : List (Nat × Word) := [(0x040, 0x1FF#64)]

/-- NODE_COUNT. -/
def countReg : List (Nat × Word) := [(0x048, 0x3FF#64)]

/-- BLEN of a buffer. -/
def lenReg (d : BufIdx) : List (Nat × Word) := [(0x100 + 0x10 * d.toNat, BitVec.allOnes 64)]

/-- ECNT of a buffer. -/
def ecReg (d : BufIdx) : List (Nat × Word) := [(0x108 + 0x10 * d.toNat, BitVec.allOnes 64)]

/-- The error latch may change by a raise: only while nothing is latched (R275, assumption log 5). -/
def raises (s : State) : List (Nat × Word) := if s.errCode = .none then errorLatch else []

/-- What each command may write of the register window: RESULT by R28, EQ by R29, ROOT and NODE_COUNT by R43, SYMCOUNT
and BITPOS by R44, the error latch by R273 and R261, and LEN and EC of its D buffer by the command's own rule. -/
def mayWrite (s : State) : Instr → List (Nat × Word)
  | .nop | .bshl _ | .bshr _ | .band _ _ | .bor _ _ | .ctclr => []
  | .clrerr => errorLatch
  | .bclr d => lenReg d ++ ecReg d
  | .bsetlen d | .bapp d | .bappb d _ | .benc d => lenReg d ++ ecReg d ++ raises s
  | .bwrw d | .bset d | .bunset d => ecReg d ++ raises s
  | .brdw _ | .bget _ => resultReg
  | .beqp _ _ | .beq _ _ => resultReg ++ [(0x020, 0x4#64)]
  | .ctwr _ | .walk => raises s
  | .ctrd d => resultReg ++ lenReg d ++ ecReg d ++ raises s
  | .tclr | .trst => rootReg ++ countReg
  | .tins _ | .nwr => countReg ++ raises s
  | .nrd => resultReg ++ raises s
  | .troot => rootReg ++ raises s
  | .dec d _ =>
    resultReg ++ [(0x050, BitVec.allOnes 64), (0x058, BitVec.allOnes 64)] ++ lenReg d ++ ecReg d ++ raises s

/-- A read at an offset returns the window's value, with any value in the listed bits of that register and no other. -/
def ReadsWithOpen (s : State) (listed : List (Nat × Word)) (off : Nat) (v : Word) : Prop :=
  let bits := (listed.filter fun r => r.1 == off).foldl (fun m r => m ||| r.2) 0#64
  v = (windowValue s off &&& ~~~bits) ||| (Config.freeRead s.draws &&& bits)

/-- Two states that differ at most in the error latch and the count of free values drawn. -/
def SameButErr (s t : State) : Prop :=
  t = { s with errCode := t.errCode, errInfo := t.errInfo, draws := t.draws }

/-- An outcome with its next state changed. -/
def mapNext (f : State → State) : Out → Out
  | .next t => .next (f t)
  | .fault e => .fault e
  | .refused r => .refused r

/-- Where a route from node n leads: along existing nodes, each one before the last an Internal node. -/
def leadsTo (nodes : List Node) : NodeIdx → List Bool → Option NodeIdx
  | n, [] => if n.toNat < nodes.length then some n else none
  | n, x :: xs =>
    if n.toNat < nodes.length ∧ (nodeAt nodes n).kind = .internal ∧ (nodeAt nodes n).child x ≠ NodeIdx.null then
      leadsTo nodes ((nodeAt nodes n).child x) xs
    else none

/-- The code of a leaf by its route from the root: the route, and the one bit 0 for a Data root (R183). -/
def codeOfRoute (route : List Bool) : List Bool := if route = [] then [false] else route

/-- The index at the end of a route from node n: along the non-NULL children of existing Internal nodes. The last index
itself need not exist. -/
def follow (nodes : List Node) : NodeIdx → List Bool → Option NodeIdx
  | n, [] => some n
  | n, x :: xs =>
    if n.toNat < nodes.length ∧ (nodeAt nodes n).kind = .internal ∧ (nodeAt nodes n).child x ≠ NodeIdx.null then
      follow nodes ((nodeAt nodes n).child x) xs
    else none

/-- The order of WALK's visits by route: a node before the nodes below it, and left before right (R183). -/
def visitedBefore : List Bool → List Bool → Bool
  | _, [] => false
  | [], _ :: _ => true
  | x :: xs, y :: ys => (!x && y) || (x == y && visitedBefore xs ys)

/-- The route leads to a Data node of symbol `sym`. -/
def LeafAt (nodes : List Node) (root : NodeIdx) (route : List Bool) (sym : Byte) : Prop :=
  ∃ n, follow nodes root route = some n ∧ (nodeAt nodes n).kind = .data ∧ (nodeAt nodes n).sym = sym

/-- The visit at a route, `before` being the routes visited until then, passes every check of R183: not too deep, an
existing index, no more visits than NODE_COUNT, and at a Data node no child and a symbol not seen yet. -/
def VisitPasses (nodes : List Node) (root : NodeIdx) (before : List (List Bool)) (route : List Bool) : Prop :=
  ∃ n, follow nodes root route = some n ∧ route.length ≤ 255 ∧ n.toNat < nodes.length ∧
    before.length + 1 ≤ nodes.length ∧
    ((nodeAt nodes n).kind = .data → (nodeAt nodes n).left = NodeIdx.null ∧ (nodeAt nodes n).right = NodeIdx.null ∧
      ∀ p ∈ before, ¬ LeafAt nodes root p (nodeAt nodes n).sym)

/-- `before` are the routes WALK visits before it comes to `route`, in order, and each of these visits passes. -/
def WalkReaches (nodes : List Node) (root : NodeIdx) (before : List (List Bool)) (route : List Bool) : Prop :=
  before.Pairwise (fun p q => visitedBefore p q = true) ∧
  (∀ q, q ∈ before ↔ visitedBefore q route = true ∧ follow nodes root q ≠ none) ∧
  ∀ pre q post, before = pre ++ q :: post → VisitPasses nodes root pre q

/-- The shape of a tree in node memory, with the index of every node. -/
inductive Tree where
  | leaf (n : NodeIdx) (sym : Byte)
  | fork (n : NodeIdx) (l r : Tree)
  | onlyLeft (n : NodeIdx) (l : Tree)
  | onlyRight (n : NodeIdx) (r : Tree)
  | bare (n : NodeIdx)
deriving DecidableEq, Repr

def Tree.top : Tree → NodeIdx
  | .leaf n _ | .fork n _ _ | .onlyLeft n _ | .onlyRight n _ | .bare n => n

def Tree.size : Tree → Nat
  | .leaf _ _ | .bare _ => 1
  | .fork _ l r => l.size + r.size + 1
  | .onlyLeft _ t | .onlyRight _ t => t.size + 1

/-- How many edges lie on the longest route. -/
def Tree.height : Tree → Nat
  | .leaf _ _ | .bare _ => 0
  | .fork _ l r => max l.height r.height + 1
  | .onlyLeft _ t | .onlyRight _ t => t.height + 1

/-- The leaves with their routes, left before right. -/
def Tree.codes : Tree → List (Byte × List Bool)
  | .leaf _ sym => [(sym, [])]
  | .bare _ => []
  | .fork _ l r => l.codes.map (fun c => (c.1, false :: c.2)) ++ r.codes.map (fun c => (c.1, true :: c.2))
  | .onlyLeft _ t => t.codes.map fun c => (c.1, false :: c.2)
  | .onlyRight _ t => t.codes.map fun c => (c.1, true :: c.2)

/-- Node memory holds the tree. -/
def Tree.HeldIn (nodes : List Node) : Tree → Prop
  | .leaf n sym => n.toNat < nodes.length ∧ nodeAt nodes n = ⟨.data, sym, NodeIdx.null, NodeIdx.null⟩
  | .bare n => n.toNat < nodes.length ∧ ∃ y, nodeAt nodes n = ⟨.internal, y, NodeIdx.null, NodeIdx.null⟩
  | .fork n l r => n.toNat < nodes.length ∧ (∃ y, nodeAt nodes n = ⟨.internal, y, l.top, r.top⟩) ∧
      l.top ≠ NodeIdx.null ∧ r.top ≠ NodeIdx.null ∧ l.HeldIn nodes ∧ r.HeldIn nodes
  | .onlyLeft n t => n.toNat < nodes.length ∧ (∃ y, nodeAt nodes n = ⟨.internal, y, t.top, NodeIdx.null⟩) ∧
      t.top ≠ NodeIdx.null ∧ t.HeldIn nodes
  | .onlyRight n t => n.toNat < nodes.length ∧ (∃ y, nodeAt nodes n = ⟨.internal, y, NodeIdx.null, t.top⟩) ∧
      t.top ≠ NodeIdx.null ∧ t.HeldIn nodes

/-- The child a bit selects at DEC's cursor: a Data root acts as an Internal node with itself on the left and no right
child (R240, D40). -/
def cursorChild (nodes : List Node) (root cur : NodeIdx) (x : Bool) : NodeIdx :=
  if cur = root ∧ (nodeAt nodes root).kind = .data then (if x then NodeIdx.null else root)
  else if x then (nodeAt nodes cur).right else (nodeAt nodes cur).left

/-- The symbol of one whole code read from the cursor: every bit but the last leads to an Internal node and the last to
a Data node. -/
def codeSymbol (nodes : List Node) (root : NodeIdx) : NodeIdx → List Bool → Option Byte
  | _, [] => none
  | cur, x :: xs =>
    let c := cursorChild nodes root cur x
    if c = NodeIdx.null ∨ nodes.length ≤ c.toNat then none
    else if (nodeAt nodes c).kind = .data then (if xs = [] then some (nodeAt nodes c).sym else none)
    else codeSymbol nodes root c xs

/-- Where the cursor stands after bits that all lead to Internal nodes. -/
def cursorAfter (nodes : List Node) (root : NodeIdx) : NodeIdx → List Bool → Option NodeIdx
  | cur, [] => some cur
  | cur, x :: xs =>
    let c := cursorChild nodes root cur x
    if c = NodeIdx.null ∨ nodes.length ≤ c.toNat ∨ (nodeAt nodes c).kind = .data then none
    else cursorAfter nodes root c xs

/-- Buffer `b` with the symbols appended, each as 8 bits, the most significant first (R240). -/
def OutputIs (old new : Buf) (syms : List Byte) : Prop :=
  new.len = old.len + 8 * syms.length ∧
  new.ec = max old.ec ((old.len + 8 * syms.length + 63) / 64) ∧
  ∀ i, new.bit i =
    if old.len ≤ i ∧ i < old.len + 8 * syms.length then
      (syms.getD ((i - old.len) / 8) 0#8).getLsbD (7 - (i - old.len) % 8)
    else old.bit i

/-- The state DEC leaves when it emitted `syms` and committed `pos` payload bits: D has the output, SYMCOUNT and RESULT
count the symbols, BITPOS is `pos`, and nothing else differs (R240). -/
def DecodedTo (s t : State) (d : BufIdx) (syms : List Byte) (pos : Nat) : Prop :=
  ∃ out, OutputIs (s.buf d) out syms ∧
    t = ((((s.setBuf d out).setResult (BitVec.ofNat 64 syms.length)).setDecode
      (BitVec.ofNat 64 syms.length) (BitVec.ofNat 64 pos)))

/-- BENC of each symbol in turn, each with A0 = the symbol (R185). -/
def encodeAll (d : BufIdx) : List Byte → State → Option State
  | [], s => some s
  | x :: xs, s =>
    match exec (.benc d) { s with la0 := x.setWidth 64 } with
    | .next t => encodeAll d xs t
    | .fault _ => none
    | .refused _ => none

end Sys2Proof.Claims

open Sys2Proof Sys2Proof.Machine Sys2Proof.Claims

/-! Encoding (30_encoding.md). -/

/-- R81, R84, R85, R89: decoding the encoding of any command of a block with NBUF buffers gives that command back. -/
def Obligations.DecodeOfEncode : Prop :=
  ∀ (nbuf : Nat) (i : Instr), wellFormed nbuf i = true → decode nbuf (encode i) = .ok i

/-- R81, R83, R87: a CMD value that decodes is the encoding of the command it decodes to, and that command names
existing buffers only. So each command has exactly one encoding per operand choice. -/
def Obligations.DecodedWordIsItsEncoding : Prop :=
  ∀ (nbuf : Nat) (w : Word) (i : Instr), decode nbuf w = .ok i → wellFormed nbuf i = true ∧ encode i = w

/-- R82: with CMD[63:32] = 0, a word matches a command when (w & mask) == OPC for its OPC and format mask. NBUF = 16
rejects no buffer field. -/
def Obligations.WordMatchesCommandByMask : Prop :=
  ∀ (w : Word) (i : Instr),
    (w.extractLsb' 32 32 = 0#32 ∧ w.setWidth 32 &&& maskOf i = i.opcode.setWidth 32) ↔
      ∃ j, decode 16 w = .ok j ∧ j.opcode = i.opcode

/-- R86: exactly the listed OPC values are illegal. When the engine has its turn and the latched word is not blocked, such
a word latches ILLEGAL_OPCODE with ERR_INFO = LCMD, whatever its other fields, unless an error is latched already, and
no other state changes but STATUS.BUSY, which falls. -/
def Obligations.IllegalOpcodeLatched : Prop :=
  ∀ s : State,
    (∀ ms, EngineTurn s ms → s.lblk = false → IllegalOpc (s.lcmd.toNat % 256) →
      step s = .next { s with
        agenda := ms, busy := false
        errCode := if s.errCode = .none then .illegalOpcode else s.errCode
        errInfo := if s.errCode = .none then s.lcmd else s.errInfo }) ∧
    (¬ IllegalOpc (s.lcmd.toNat % 256) → ∃ i : Instr, i.opcode.toNat = s.lcmd.toNat % 256 ∧
      decode s.params.nbuf s.lcmd ≠ .error .illegalOpcode)

/-- R87: when the engine has its turn and the latched word is not blocked, a word with a legal OPC and a bad field latches
BAD_FIELD with its sub-code (reserved bits 1, an unused field 2, D out of range 3, S out of range 4, the first that
holds), unless an error is latched already, and changes nothing else but STATUS.BUSY, which falls. With no bad field the
command runs. -/
def Obligations.BadFieldLatched : Prop :=
  ∀ (s : State) (ms : List Move) (i : Instr), EngineTurn s ms → s.lblk = false →
    s.lcmd.toNat % 256 = i.opcode.toNat →
    let d := s.lcmd.toNat / 2 ^ 8 % 16
    let b := s.lcmd.toNat / 2 ^ 12 % 16
    let reserved := s.lcmd.toNat / 2 ^ 16 ≠ 0
    let unused := (i.dst? = none ∧ d ≠ 0) ∨ (i.src? = none ∧ b ≠ 0)
    let dBad := i.dst? ≠ none ∧ s.params.nbuf ≤ d
    let sBad := i.src? ≠ none ∧ s.params.nbuf ≤ b
    let bad := fun n : Nat => step s = .next { s with
      agenda := ms, busy := false
      errCode := if s.errCode = .none then .badField else s.errCode
      errInfo := if s.errCode = .none then BitVec.ofNat 64 n else s.errInfo }
    (reserved → bad 1) ∧ (¬ reserved ∧ unused → bad 2) ∧ (¬ reserved ∧ ¬ unused ∧ dBad → bad 3) ∧
    (¬ reserved ∧ ¬ unused ∧ ¬ dBad ∧ sBad → bad 4) ∧
    (¬ reserved ∧ ¬ unused ∧ ¬ dBad ∧ ¬ sBad → ∃ j : Instr, j.opcode = i.opcode ∧ encode j = s.lcmd ∧
      step s = mapNext (fun t => { t with busy := false }) (exec j { s with agenda := ms }))

/-- R81, R85, R90: words written out from the opcode map decode to the commands they stand for. -/
def Obligations.SpecWordsDecode : Prop :=
  decode 4 0x00002050#64 = .ok (.dec 0 2) ∧ decode 4 0x00000112#64 = .ok (.benc 1) ∧
  decode 4 0x00000010#64 = .ok (.bapp 0) ∧ decode 4 0x00001011#64 = .ok (.bappb 0 1) ∧
  decode 4 0x00003004#64 = .ok (.brdw 3) ∧ decode 4 0x00000220#64 = .ok (.bshl 2) ∧
  decode 4 0x00001042#64 = .ok (.tins 1) ∧ decode 4 0x0000007F#64 = .ok .clrerr ∧
  decode 4 0x00010008#64 = .error .illegalOpcode ∧ decode 4 0x00000104#64 = .error .unusedField

/-! The host's and the engine's moves (10_state.md, 20_memory.md, 60_exceptions.md, 70_reset_and_hazards.md). -/

/-- R27, R89: when the engine has its turn and the latched word is not blocked and decodes to a command, the step is
that command's meaning, followed by STATUS.BUSY <- 0. -/
def Obligations.StepRunsDecodedCommand : Prop :=
  ∀ (s : State) (ms : List Move) (i : Instr), EngineTurn s ms → s.lblk = false →
    decode s.params.nbuf s.lcmd = .ok i →
    step s = mapNext (fun t => { t with busy := false }) (exec i { s with agenda := ms })

/-- R276: a blocked command changes nothing except STATUS.BUSY and raises nothing, and LBLK is set at issue exactly
when ERR_CODE ≠ 0 and the word is neither 0x0 nor 0x7F. -/
def Obligations.BlockedCommandIgnored : Prop :=
  (∀ (s : State) (ms : List Move), EngineTurn s ms → s.lblk = true →
    step s = .next { s with agenda := ms, busy := false }) ∧
  (∀ (s : State) (ms : List Move) (w : Word), s.busy = false → s.agenda = .write 0 8 w :: ms →
    ∃ t, step s = .next t ∧ (t.lblk = true ↔ s.errCode ≠ .none ∧ w ≠ 0x0#64 ∧ w ≠ 0x7F#64))

/-- R26, R27: a CMD write to an idle block latches the word, ARG0, ARG1 and the block bit and sets STATUS.BUSY, and
changes nothing else. -/
def Obligations.CmdWriteIssues : Prop :=
  ∀ (s : State) (ms : List Move) (w : Word), s.busy = false → s.agenda = .write 0 8 w :: ms →
    step s = .next { s with
      agenda := ms, busy := true, lcmd := w, la0 := s.arg0, la1 := s.arg1
      lblk := decide (s.errCode ≠ .none ∧ w ≠ 0x0#64 ∧ w ≠ 0x7F#64) }

/-- R277: a CMD write while BUSY = 1 is dropped; BUSY_OVERRUN is latched with the dropped value when no error is
latched. The running command then does what it would have done, but for an error of its own, which is not recorded. -/
def Obligations.BusyOverrunDropsTheWord : Prop :=
  (∀ (s : State) (ms : List Move) (w : Word), s.busy = true → s.agenda = .write 0 8 w :: ms →
    step s = .next (if s.errCode = .none then { s with agenda := ms, errCode := .busyOverrun, errInfo := w }
      else { s with agenda := ms })) ∧
  (∀ (s : State) (w : Word) (i : Instr), s.errCode = .none →
    ∃ t u, exec i s = .next t ∧ exec i { s with errCode := .busyOverrun, errInfo := w } = .next u ∧
      SameButErr t u ∧ (i ≠ .clrerr → u.errCode = .busyOverrun ∧ u.errInfo = w))

/-- R22, R26, R308: a write of ARG0 or ARG1 stores the value at any time, while BUSY = 1 too, and leaves LA0 and LA1;
a write to any other offset but CMD is ignored. -/
def Obligations.WindowWrites : Prop :=
  ∀ (s : State) (ms : List Move) (off : Nat) (v : Word), off % 8 = 0 → off ≠ 0 → s.agenda = .write off 8 v :: ms →
    step s = .next (if off = 0x008 then { s with agenda := ms, arg0 := v }
      else if off = 0x010 then { s with agenda := ms, arg1 := v } else { s with agenda := ms })

/-- R22, R23, R24, R25, R43, R45: while no command runs, a host read returns the value the window's table gives, 0 at an
offset the table does not list, and nothing of the block changes. -/
def Obligations.IdleReadReturnsWindowValue : Prop :=
  ∀ (s : State) (ms : List Move) (off : Nat), s.params.Legal → s.busy = false → off % 8 = 0 →
    s.agenda = .read off 8 :: ms → step s = .next { s with agenda := ms, rdata := windowValue s off }

/-- R27, R306: while BUSY = 1, a read of STATUS returns BUSY = 1, and a read of any register returns its exact value but
for what the latched word may write, which reads as any value. A command may write the registers that its row in
`mayWrite` lists, a word that is no command the error latch alone (R89), and a blocked word nothing (R276). That a
register written for some operands only counts as written, that a raise while an error is latched does not, and that in a
partly written register the other bits read exactly, is the model's reading (assumption log 5, 6). -/
def Obligations.BusyReadsOfUnwrittenRegistersAreExact : Prop :=
  ∀ (s : State) (ms : List Move) (off : Nat), s.params.Legal → s.busy = true → off % 8 = 0 →
    s.agenda = .read off 8 :: ms →
    ∃ t, step s = .next t ∧ (off = 0x020 → t.rdata.getLsbD 0 = true) ∧
      (s.lblk = true → t.rdata = windowValue s off) ∧
      (∀ i, s.lblk = false → decode s.params.nbuf s.lcmd = .ok i → ReadsWithOpen s (mayWrite s i) off t.rdata) ∧
      (∀ e, s.lblk = false → decode s.params.nbuf s.lcmd = .error e → ReadsWithOpen s (raises s) off t.rdata)

/-- R70: a host read has no side effects on the block. -/
def Obligations.ReadsHaveNoSideEffects : Prop :=
  ∀ (s t : State) (off bytes : Nat) (ms : List Move), s.agenda = .read off bytes :: ms → step s = .next t →
    t = { s with agenda := ms, rdata := t.rdata, draws := t.draws }

/-- R67: an access that is not 64 bits wide at a multiple of 8 is refused. -/
def Obligations.NarrowAccessRefused : Prop :=
  ∀ (s : State) (ms : List Move) (off bytes : Nat) (v : Word), ¬ (bytes = 8 ∧ off % 8 = 0) →
    (s.agenda = .read off bytes :: ms ∨ s.agenda = .write off bytes v :: ms) → step s = .refused .narrowAccess

/-- R300, R301: reset sets every piece of state to its reset value, whatever the block was doing, and a CMD write in
the same step is lost. PARAMS is not changed. R300 leaves LCMD, LA0 and LA1 unspecified, and so does this. The moves to
come and the two counters of the model's own are kept (assumption log 16). -/
def Obligations.ResetSetsEveryField : Prop :=
  ∀ (s : State) (ms : List Move) (c : Option Word), s.agenda = .reset c :: ms → ∃ w a0 a1 : Word,
    step s = .next
      { params := s.params, arg0 := 0#64, arg1 := 0#64, result := 0#64, busy := false, eq := false
        errCode := .none, errInfo := 0#64, root := 0x1FF#9, symCount := 0#64, bitPos := 0#64
        bufs := Vector.replicate 16 ⟨[], 0⟩, ct := Vector.replicate 256 ⟨false, 0#8, 0#256⟩, nodes := []
        lcmd := w, la0 := a0, la1 := a1, lblk := false, agenda := ms, rdata := s.rdata, draws := s.draws }

/-- R286, R302: an idle block with no move to come keeps all its state. -/
def Obligations.IdleBlockKeepsItsState : Prop :=
  ∀ s : State, s.agenda = [] → s.busy = false → step s = .next s

/-- R25: no step changes PARAMS, reset included. -/
def Obligations.ParamsNeverChange : Prop :=
  ∀ s t : State, step s = .next t → t.params = s.params ∧ windowValue t 0x038 = windowValue s 0x038

/-! The error model (60_exceptions.md). -/

/-- R279, R24: ERR_CODE and ERR_INFO hold the first error since the last CLRERR or reset: no step changes a latched
error but a reset and the completion of a CLRERR that is not blocked, which leaves 0. -/
def Obligations.FirstErrorWins : Prop :=
  ∀ s t : State, step s = .next t → s.errCode ≠ .none →
    (t.errCode = s.errCode ∧ t.errInfo = s.errInfo) ∨ (∃ c ms, s.agenda = .reset c :: ms) ∨
    (s.busy = true ∧ s.lblk = false ∧ decode s.params.nbuf s.lcmd = .ok .clrerr ∧
      t.errCode = .none ∧ t.errInfo = 0#64)

/-- R273: no command raises an error not listed in its row. -/
def Obligations.CommandRaisesOnlyItsErrors : Prop :=
  ∀ (i : Instr) (s t : State), s.errCode = .none → exec i s = .next t → t.errCode ≠ .none →
    match i with
    | .nop | .clrerr | .bclr _ | .brdw _ | .bget _ | .bshl _ | .bshr _ | .band _ _ | .bor _ _ | .beqp _ _
    | .beq _ _ | .ctclr | .tclr | .trst => False
    | .bsetlen _ | .bwrw _ | .bset _ | .bunset _ | .bappb _ _ => t.errCode = .capacity
    | .bapp _ => t.errCode = .badLength ∨ t.errCode = .capacity
    | .benc _ => (t.errCode = .badField ∧ t.errInfo = 5#64) ∨ t.errCode = .noCode ∨ t.errCode = .capacity
    | .ctwr _ => (t.errCode = .badField ∧ t.errInfo = 5#64) ∨ t.errCode = .badLength
    | .ctrd _ => t.errCode = .badField ∧ t.errInfo = 5#64
    | .walk => t.errCode = .nodeIndex ∨ t.errCode = .treeMalformed
    | .tins _ => (t.errCode = .badField ∧ t.errInfo = 5#64) ∨ t.errCode = .badLength ∨ t.errCode = .nodeIndex ∨
        t.errCode = .recordConflict ∨ t.errCode = .capacity
    | .nwr => (t.errCode = .badField ∧ t.errInfo = 6#64) ∨ t.errCode = .capacity
    | .nrd | .troot => t.errCode = .nodeIndex
    | .dec _ _ => (t.errCode = .badField ∧ t.errInfo = 7#64) ∨ t.errCode = .nodeIndex ∨
        t.errCode = .decodeCorrupt ∨ t.errCode = .capacity ∨ t.errCode = .decodeTrailing

/-- R275: a command that raises leaves every piece of state as it was at issue except the error latch and, for WALK,
the code table and, for DEC, the output buffer, SYMCOUNT, BITPOS and RESULT. -/
def Obligations.ErrorsArePrecise : Prop :=
  ∀ (i : Instr) (s t : State), s.errCode = .none → exec i s = .next t → t.errCode ≠ .none →
    match i with
    | .walk => SameButErr { s with ct := t.ct } t
    | .dec d _ => SameButErr ((({ s with symCount := t.symCount, bitPos := t.bitPos, result := t.result } :
        State)).setBuf d (t.buf d)) t
    | _ => SameButErr s t

/-- R270: every command completes with a next state: an error is an outcome of the command and no stop of the machine.
The one stop of a step is the refusal of a host access that is not a whole, aligned 64-bit access. -/
def Obligations.StepStopsOnlyOnNarrowAccess : Prop :=
  (∀ (i : Instr) (s : State), ∃ t, exec i s = .next t) ∧
  (∀ s : State, (∃ t, step s = .next t) ∨
    (step s = .refused .narrowAccess ∧ ∃ off bytes ms, ¬ (bytes = 8 ∧ off % 8 = 0) ∧
      (s.agenda = .read off bytes :: ms ∨ ∃ v, s.agenda = .write off bytes v :: ms)))

/-! What each command leaves unchanged. -/

/-- R28: RESULT is written only by BRDW, BGET, BEQP, BEQ, CTRD, NRD and DEC. CTRD and NRD leave it when they end in
error, which is for a symbol above 255 and an index at or past NODE_COUNT. DEC leaves it at its two start checks and
writes it (with the value it puts into SYMCOUNT) in every other case, error or not. -/
def Obligations.ResultWrittenOnlyByItsCommands : Prop :=
  ∀ (i : Instr) (s t : State), exec i s = .next t →
    match i with
    | .brdw _ | .bget _ | .beqp _ _ | .beq _ _ => True
    | .ctrd _ => 255 < s.la0.toNat → t.result = s.result
    | .nrd => s.nodes.length ≤ s.la0.toNat → t.result = s.result
    | .dec d b => (d = b ∨ s.root = 0x1FF#9 → t.result = s.result) ∧
        (d ≠ b → s.root ≠ 0x1FF#9 → t.result = t.symCount)
    | _ => t.result = s.result

/-- R29: only BEQP and BEQ write EQ, and no command reads it: every outcome is the same, but for EQ itself, whatever EQ
was. -/
def Obligations.EqWrittenOnlyByComparisons : Prop :=
  ∀ (i : Instr) (s : State) (e : Bool),
    match i with
    | .beqp _ _ | .beq _ _ => exec i { s with eq := e } = exec i s
    | _ => exec i { s with eq := e } = mapNext (fun t => { t with eq := e }) (exec i s) ∧
        ∀ t, exec i s = .next t → t.eq = s.eq

/-- R43: only TCLR, TRST, TINS, NWR and TROOT change NODE_COUNT, the node memory and ROOT; TINS and NWR leave ROOT and
TROOT leaves the nodes. -/
def Obligations.TreeWrittenOnlyByTreeCommands : Prop :=
  ∀ (i : Instr) (s t : State), exec i s = .next t →
    match i with
    | .tclr | .trst => True
    | .tins _ | .nwr => t.root = s.root
    | .troot => t.nodes = s.nodes
    | _ => t.root = s.root ∧ t.nodes = s.nodes

/-- R44: SYMCOUNT and BITPOS are written only by DEC; the code table only by CTCLR, CTWR and WALK (20_memory.md R60
names the commands that reach it; CTRD and BENC read it). -/
def Obligations.CountersAndTableWrittenOnlyByTheirCommands : Prop :=
  ∀ (i : Instr) (s t : State), exec i s = .next t →
    match i with
    | .dec _ _ => t.ct = s.ct
    | .ctclr | .ctwr _ | .walk => t.symCount = s.symCount ∧ t.bitPos = s.bitPos
    | _ => t.ct = s.ct ∧ t.symCount = s.symCount ∧ t.bitPos = s.bitPos

/-- R26: no command writes ARG0 or ARG1, nor PARAMS, the command latch or the moves to come; STATUS.BUSY falls only at
completion. -/
def Obligations.HostSideUntouchedByCommands : Prop :=
  ∀ (i : Instr) (s t : State), exec i s = .next t →
    t.params = s.params ∧ t.arg0 = s.arg0 ∧ t.arg1 = s.arg1 ∧ t.busy = s.busy ∧ t.lcmd = s.lcmd ∧
    t.la0 = s.la0 ∧ t.la1 = s.la1 ∧ t.lblk = s.lblk ∧ t.agenda = s.agenda ∧ t.rdata = s.rdata

/-- R84 and each command's own rule: a command changes no buffer but the one in its D field, so one without a D field
changes none; BEQP and BEQ change none although they have one (R154, R155); BWRW, BSET and BUNSET leave LEN (R122, R125,
R126), and the shifts, BAND and BOR leave LEN and EC (R150 to R153). -/
def Obligations.OnlyTheDestinationBufferChanges : Prop :=
  ∀ (i : Instr) (s t : State) (b : BufIdx), exec i s = .next t →
    match i with
    | .beqp _ _ | .beq _ _ => t.buf b = s.buf b
    | .bwrw d | .bset d | .bunset d => (b ≠ d → t.buf b = s.buf b) ∧ (t.buf b).len = (s.buf b).len
    | .bshl d | .bshr d | .band d _ | .bor d _ =>
      (b ≠ d → t.buf b = s.buf b) ∧ (t.buf b).len = (s.buf b).len ∧ (t.buf b).ec = (s.buf b).ec
    | _ => i.dst? ≠ some b → t.buf b = s.buf b

/-- R83, R84: an argument the operand table marks as unused is ignored, whatever its value. -/
def Obligations.UnusedArgumentsIgnored : Prop :=
  ∀ (i : Instr) (s : State) (v : Word),
    (match i with
      | .bwrw _ | .bapp _ | .nwr => True
      | _ => exec i { s with la1 := v } = mapNext (fun t => { t with la1 := v }) (exec i s)) ∧
    (match i with
      | .nop | .bclr _ | .bappb _ _ | .band _ _ | .bor _ _ | .beqp _ _ | .beq _ _ | .ctclr | .walk | .tclr
      | .trst | .dec _ _ | .clrerr => exec i { s with la0 := v } = mapNext (fun t => { t with la0 := v }) (exec i s)
      | _ => True)

/-! The invariant. -/

/-- R31, R39, R43, R300: the invariant holds of the state after reset, for every legal NBUF and BUF_WORDS. That a slot
at or past NBUF is empty is the model's own part of it (assumption log 11). -/
def Obligations.ResetStateMeetsInvariant : Prop :=
  State.reset.Inv ∧ ∀ p : Params, p.Legal → (State.resetWith p).Inv

/-- R31, R39, R43, R24, R26: every step of any agent keeps the invariant. That a slot at or past NBUF stays empty is the
model's own part of it (assumption log 11), and that ERR_INFO is 0 while no error is latched is inferred from R261, R275
and R300. -/
def Obligations.StepKeepsInvariant : Prop :=
  ∀ s t : State, s.Inv → step s = .next t → t.Inv

/-! Packing (41_pack.md). -/

/-- R100: BAPP appends the n low bits of A0, the most significant first, at positions LEN .. LEN+n-1, raises LEN by n,
leaves every other position, and grows to max(EC, ceil(LEN/64)). n above 64 is BAD_LENGTH(n), too few elements is
CAPACITY, and then nothing else changes. -/
def Obligations.BappAppendsLowBits : Prop :=
  ∀ (d : BufIdx) (s : State),
    let n := s.la1.toNat
    let old := s.buf d
    let m := (old.len + n + 63) / 64
    (64 < n → exec (.bapp d) s = .next (s.raise .badLength n)) ∧
    (n ≤ 64 → s.params.bufWords < m → exec (.bapp d) s = .next (s.raise .capacity m)) ∧
    (n ≤ 64 → m ≤ s.params.bufWords → ∃ b, exec (.bapp d) s = .next (s.setBuf d b) ∧
      b.len = old.len + n ∧ b.ec = max old.ec m ∧
      ∀ i, b.bit i = if old.len ≤ i ∧ i < old.len + n then s.la0.getLsbD (n - 1 - (i - old.len)) else old.bit i)

/-- R101: BAPPB appends the first LEN bits of S as they are at issue, so D = S doubles the bit sequence. -/
def Obligations.BappbAppendsSnapshot : Prop :=
  ∀ (d b : BufIdx) (s : State),
    let n := (s.buf b).len
    let old := s.buf d
    let m := (old.len + n + 63) / 64
    (s.params.bufWords < m → exec (.bappb d b) s = .next (s.raise .capacity m)) ∧
    (m ≤ s.params.bufWords → ∃ x, exec (.bappb d b) s = .next (s.setBuf d x) ∧
      x.len = old.len + n ∧ x.ec = max old.ec m ∧
      ∀ i, x.bit i = if old.len ≤ i ∧ i < old.len + n then (s.buf b).bit (i - old.len) else old.bit i)

/-- R185: BENC appends the L path bits of the entry of symbol A0. A0 above 255 is BAD_FIELD(5), an invalid entry is
NO_CODE, too few elements is CAPACITY, in this order, and then nothing else changes. -/
def Obligations.BencAppendsCode : Prop :=
  ∀ (d : BufIdx) (s : State),
    let e := s.entry (BitVec.ofNat 8 s.la0.toNat)
    let n := e.len.toNat
    let old := s.buf d
    let m := (old.len + n + 63) / 64
    (255 < s.la0.toNat → exec (.benc d) s = .next (s.raise .badField 5)) ∧
    (s.la0.toNat ≤ 255 → e.valid = false → exec (.benc d) s = .next (s.raise .noCode s.la0.toNat)) ∧
    (s.la0.toNat ≤ 255 → e.valid = true → s.params.bufWords < m →
      exec (.benc d) s = .next (s.raise .capacity m)) ∧
    (s.la0.toNat ≤ 255 → e.valid = true → m ≤ s.params.bufWords →
      ∃ b, exec (.benc d) s = .next (s.setBuf d b) ∧ b.len = old.len + n ∧ b.ec = max old.ec m ∧
        ∀ i, b.bit i = if old.len ≤ i ∧ i < old.len + n then e.path.getLsbD (255 - (i - old.len)) else old.bit i)

/-- R102: appending x and then y gives the same buffer as appending x ++ y; an append raises LEN by its length, leaves
every position below the old LEN, holds the j-th appended bit at LEN + j, leaves EC = max(old EC, ceil(LEN/64)) and
FREE = (64 - (LEN mod 64)) mod 64. -/
def Obligations.AppendLaws : Prop :=
  ∀ (b : Buf) (x y : List Bool),
    (b.append x).append y = b.append (x ++ y) ∧ (b.append x).len = b.len + x.length ∧
    (∀ i < b.len, (b.append x).bit i = b.bit i) ∧
    (∀ j, (h : j < x.length) → (b.append x).bit (b.len + j) = x[j]) ∧
    (b.append x).ec = max b.ec (((b.append x).len + 63) / 64) ∧
    (b.append x).free = (64 - (b.append x).len % 64) % 64

/-! Buffer management and bit access (42_bit_access.md). -/

/-- R120, R121: BCLR empties the buffer. BSETLEN sets LEN, grows EC to ceil(n/64) when that is larger, keeps every bit,
and raises CAPACITY with nothing changed when n needs more than BUF_WORDS elements. -/
def Obligations.ClearAndSetLength : Prop :=
  ∀ (d : BufIdx) (s : State),
    exec (.bclr d) s = .next (s.setBuf d ⟨[], 0⟩) ∧
    let n := s.la0.toNat
    let m := (n + 63) / 64
    (s.params.bufWords < m → exec (.bsetlen d) s = .next (s.raise .capacity m)) ∧
    (m ≤ s.params.bufWords → ∃ b, exec (.bsetlen d) s = .next (s.setBuf d b) ∧ b.len = n ∧
      b.ec = max (s.buf d).ec m ∧ ∀ i, b.bit i = (s.buf d).bit i)

/-- R122: BWRW writes element A0, zero-fills the elements between the old EC and it, leaves every other element and LEN,
and raises CAPACITY(k + 1) with nothing changed when k ≥ BUF_WORDS. (For k = 2^64 - 1 that detail does not fit in 64
bits and `raise` latches a free value, assumption log 12.) -/
def Obligations.BwrwWritesOneElement : Prop :=
  ∀ (d : BufIdx) (s : State),
    let k := s.la0.toNat
    (s.params.bufWords ≤ k → exec (.bwrw d) s = .next (s.raise .capacity (k + 1))) ∧
    (k < s.params.bufWords → ∃ b, exec (.bwrw d) s = .next (s.setBuf d b) ∧ b.len = (s.buf d).len ∧
      b.ec = max (s.buf d).ec (k + 1) ∧ ∀ j, b.memRead j = if j = k then s.la1 else (s.buf d).memRead j)

/-- R123, R124: BRDW puts element A0 into RESULT and BGET the bit at position A0, each 0 past EC, and nothing else
changes. -/
def Obligations.ReadsOfElementsAndBits : Prop :=
  ∀ (b : BufIdx) (s : State),
    let es := (s.buf b).elems
    let k := s.la0.toNat
    exec (.brdw b) s = .next { s with result := if h : k < es.length then es[k] else 0#64 } ∧
    exec (.bget b) s = .next { s with
      result := if h : k / 64 < es.length then (if es[k / 64].getLsbD (63 - k % 64) then 1#64 else 0#64) else 0#64 }

/-- R125, R126: BSET and BUNSET write the one bit at position A0, grow EC to hold it, leave every other bit and LEN,
and raise CAPACITY with nothing changed when A0 ≥ 64 * BUF_WORDS. -/
def Obligations.SetAndClearOneBit : Prop :=
  ∀ (d : BufIdx) (s : State) (x : Bool),
    let i := s.la0.toNat
    let command := if x then Instr.bset d else Instr.bunset d
    (64 * s.params.bufWords ≤ i → exec command s = .next (s.raise .capacity (i / 64 + 1))) ∧
    (i < 64 * s.params.bufWords → ∃ b, exec command s = .next (s.setBuf d b) ∧ b.len = (s.buf d).len ∧
      b.ec = max (s.buf d).ec (i / 64 + 1) ∧ ∀ j, b.bit j = if j = i then x else (s.buf d).bit j)

/-! Shift, logic and compare (43_shift_logic.md). -/

/-- R150, R151: over W = 64 * EC positions, BSHL makes bit i the old bit i + n and BSHR the old bit i - n, 0 where there
is none; EC and LEN do not change. -/
def Obligations.ShiftsMoveStreamPositions : Prop :=
  ∀ (d : BufIdx) (s : State),
    let n := s.la0.toNat
    let old := s.buf d
    let width := 64 * old.ec
    (∃ b, exec (.bshl d) s = .next (s.setBuf d b) ∧ b.len = old.len ∧ b.ec = old.ec ∧
      ∀ i < width, b.bit i = if i + n < width then old.bit (i + n) else false) ∧
    (∃ b, exec (.bshr d) s = .next (s.setBuf d b) ∧ b.len = old.len ∧ b.ec = old.ec ∧
      ∀ i < width, b.bit i = if n ≤ i then old.bit (i - n) else false)

/-- R156: shifts in one direction compose, and a shift out and back clears the positions shifted out and keeps every
other. -/
def Obligations.ShiftsCompose : Prop :=
  ∀ (b : Buf) (n p : Nat),
    (b.shl n).shl p = b.shl (n + p) ∧ (b.shr n).shr p = b.shr (n + p) ∧
    (∀ i, ((b.shl n).shr n).bit i = if i < min n (64 * b.ec) then false else b.bit i) ∧
    (∀ i, ((b.shr n).shl n).bit i =
      if 64 * b.ec - min n (64 * b.ec) ≤ i ∧ i < 64 * b.ec then false else b.bit i)

/-- R152, R153, R309: BAND and BOR combine the elements both buffers have, into D; the other elements of D, LEN and EC
do not change, and D = S is a no-op. -/
def Obligations.AndOrUpToShorterCount : Prop :=
  (∀ (d b : BufIdx) (s : State),
    let m := min (s.buf d).ec (s.buf b).ec
    (∃ x, exec (.band d b) s = .next (s.setBuf d x) ∧ x.len = (s.buf d).len ∧ x.ec = (s.buf d).ec ∧
      ∀ k, x.memRead k = if k < m then (s.buf d).memRead k &&& (s.buf b).memRead k else (s.buf d).memRead k) ∧
    (∃ x, exec (.bor d b) s = .next (s.setBuf d x) ∧ x.len = (s.buf d).len ∧ x.ec = (s.buf d).ec ∧
      ∀ k, x.memRead k = if k < m then (s.buf d).memRead k ||| (s.buf b).memRead k else (s.buf d).memRead k)) ∧
  (∀ (d : BufIdx) (s : State), exec (.band d d) s = .next s ∧ exec (.bor d d) s = .next s)

/-- R154, R155, R309: BEQP sets EQ and RESULT to whether the elements both buffers have agree, BEQ to whether LEN and
the first LEN bits agree; nothing else changes, and with D = S both give 1. -/
def Obligations.EqualitiesCompare : Prop :=
  (∀ (d b : BufIdx) (s : State),
    (∃ e : Bool, exec (.beqp d b) s = .next { s with eq := e, result := if e then 1#64 else 0#64 } ∧
      (e = true ↔ ∀ k < min (s.buf d).ec (s.buf b).ec, (s.buf d).memRead k = (s.buf b).memRead k)) ∧
    (∃ e : Bool, exec (.beq d b) s = .next { s with eq := e, result := if e then 1#64 else 0#64 } ∧
      (e = true ↔ (s.buf d).len = (s.buf b).len ∧ ∀ i < (s.buf d).len, (s.buf d).bit i = (s.buf b).bit i))) ∧
  (∀ (d : BufIdx) (s : State), exec (.beqp d d) s = .next { s with eq := true, result := 1#64 } ∧
    exec (.beq d d) s = .next { s with eq := true, result := 1#64 })

/-! Code table, walker and encoder (44_code_table.md). -/

/-- R180, R181: CTCLR invalidates every entry. CTWR stores the path buffer's first LEN bits as the code of symbol A0,
path bits at LEN and past it 0, and leaves every other entry; a symbol above 255 is BAD_FIELD(5), a length of 0 or
above 255 is BAD_LENGTH, in this order, and then nothing else changes. -/
def Obligations.TableClearAndWrite : Prop :=
  (∀ s : State, ∃ t, exec .ctclr s = .next { s with ct := t } ∧
    ∀ k : Fin 256, t[k] = ⟨false, 0#8, 0#256⟩) ∧
  (∀ (b : BufIdx) (s : State),
    let n := (s.buf b).len
    (255 < s.la0.toNat → exec (.ctwr b) s = .next (s.raise .badField 5)) ∧
    (s.la0.toNat ≤ 255 → n = 0 ∨ 255 < n → exec (.ctwr b) s = .next (s.raise .badLength n)) ∧
    (s.la0.toNat ≤ 255 → 1 ≤ n → n ≤ 255 → ∃ t, exec (.ctwr b) s = .next { s with ct := t } ∧
      (∀ k : Fin 256, k.val ≠ s.la0.toNat → t[k] = s.ct[k]) ∧
      (∀ k : Fin 256, k.val = s.la0.toNat → t[k].valid = true ∧ t[k].len.toNat = n ∧
        ∀ j < 256, t[k].path.getLsbD (255 - j) = if j < n then (s.buf b).bit j else false)))

/-- R182: CTRD clears D, appends the L bits of a valid entry and puts L into RESULT; an invalid entry leaves D empty and
RESULT 0. A symbol above 255 is BAD_FIELD(5) with D and RESULT unchanged. -/
def Obligations.CtrdReadsEntry : Prop :=
  ∀ (d : BufIdx) (s : State),
    let e := s.entry (BitVec.ofNat 8 s.la0.toNat)
    (255 < s.la0.toNat → exec (.ctrd d) s = .next (s.raise .badField 5)) ∧
    (s.la0.toNat ≤ 255 → e.valid = false →
      exec (.ctrd d) s = .next ((s.setBuf d ⟨[], 0⟩).setResult 0#64)) ∧
    (s.la0.toNat ≤ 255 → e.valid = true →
      ∃ b, exec (.ctrd d) s = .next ((s.setBuf d b).setResult (BitVec.ofNat 64 e.len.toNat)) ∧
        b.len = e.len.toNat ∧ b.ec = (e.len.toNat + 63) / 64 ∧
        ∀ i, b.bit i = if i < e.len.toNat then e.path.getLsbD (255 - i) else false)

/-- R183, R184 (c): on a tree of node memory with no repeated symbol, no route longer than 255 and no more nodes than
NODE_COUNT, WALK records for each leaf the route to it, the one bit 0 for a Data root, and leaves every other entry
invalid; nothing but the code table changes. -/
def Obligations.WalkRecordsTheCodesOfATree : Prop :=
  ∀ (s : State) (t : Tree), t.HeldIn s.nodes → t.top = s.root → s.root ≠ 0x1FF#9 →
    t.size ≤ s.nodes.length → t.height ≤ 255 → (t.codes.map Prod.fst).Nodup →
    ∃ u, exec .walk s = .next { s with ct := u } ∧
      (∀ c ∈ t.codes, ∀ k : Fin 256, k.val = c.1.toNat → u[k].valid = true ∧
        u[k].len.toNat = (codeOfRoute c.2).length ∧
        ∀ j < 256, u[k].path.getLsbD (255 - j) = (codeOfRoute c.2).getD j false) ∧
      (∀ k : Fin 256, (∀ c ∈ t.codes, c.1.toNat ≠ k.val) → u[k] = ⟨false, 0#8, 0#256⟩)

/-- R183, R184 (c) and (e): after a successful WALK the valid entries are exactly the Data nodes reachable from ROOT,
each with its route from the root as code and 1 ≤ L ≤ 255; after a WALK that raised, every valid entry is one of
them (D33). -/
def Obligations.WalkTableIsTheReachableLeaves : Prop :=
  ∀ s t : State, s.errCode = .none → exec .walk s = .next t →
    (∀ sym : Byte, (t.entry sym).valid = true →
      1 ≤ (t.entry sym).len.toNat ∧
      ∃ route n, leadsTo s.nodes s.root route = some n ∧ (s.node n).kind = .data ∧ (s.node n).sym = sym ∧
        (t.entry sym).bits = codeOfRoute route) ∧
    (t.errCode = .none → ∀ route n, leadsTo s.nodes s.root route = some n → (s.node n).kind = .data →
      (t.entry (s.node n).sym).valid = true ∧ (t.entry (s.node n).sym).bits = codeOfRoute route)

/-- R184 (d): the table after WALK is prefix-free: no code is a prefix of the code of another symbol. -/
def Obligations.WalkTableIsPrefixFree : Prop :=
  ∀ s t : State, exec .walk s = .next t → ∀ a b : Byte, a ≠ b →
    (t.entry a).valid = true → (t.entry b).valid = true → ¬ (t.entry a).bits <+: (t.entry b).bits

/-- R183, R272: WALK clears the table first, also when ROOT = NULL then raises NODE_INDEX(0x1FF). Else it visits the nodes
route by route and raises at the first visit that fails a check, with that node's index as ERR_INFO: a child deeper than
255, an index at or past NODE_COUNT, more visits than NODE_COUNT, a Data node with a child, and a second Data node of one
symbol, in this order; the Data nodes visited before stay recorded and every other entry is invalid (D33). It raises
nothing when every visit it comes to passes. -/
def Obligations.WalkStopsAtTheFirstFailingVisit : Prop :=
  ∀ s : State,
    (s.root = 0x1FF#9 →
      exec .walk s = .next ((s.setCt (Vector.replicate 256 ⟨false, 0#8, 0#256⟩)).raise .nodeIndex 0x1FF)) ∧
    (∀ (before : List (List Bool)) (route : List Bool) (n : NodeIdx), s.root ≠ 0x1FF#9 →
      WalkReaches s.nodes s.root before route → follow s.nodes s.root route = some n →
      let x := s.node n
      let ends := fun code : ErrCode => ∃ u : Vector Entry 256,
        exec .walk s = .next (({ s with ct := u } : State).raise code n.toNat) ∧
        (∀ p ∈ before, ∀ k : Fin 256, LeafAt s.nodes s.root p (BitVec.ofFin k) →
          u[k].valid = true ∧ u[k].bits = codeOfRoute p) ∧
        (∀ k : Fin 256, (∀ p ∈ before, ¬ LeafAt s.nodes s.root p (BitVec.ofFin k)) → u[k] = ⟨false, 0#8, 0#256⟩)
      (route.length = 256 → ends .treeMalformed) ∧
      (route.length ≤ 255 → s.nodes.length ≤ n.toNat → ends .nodeIndex) ∧
      (route.length ≤ 255 → n.toNat < s.nodes.length → before.length = s.nodes.length → ends .treeMalformed) ∧
      (route.length ≤ 255 → n.toNat < s.nodes.length → x.kind = .data → x.left ≠ 0x1FF#9 ∨ x.right ≠ 0x1FF#9 →
        ends .treeMalformed) ∧
      (route.length ≤ 255 → n.toNat < s.nodes.length → x.kind = .data →
        (∃ p ∈ before, LeafAt s.nodes s.root p x.sym) → ends .treeMalformed)) ∧
    (s.root ≠ 0x1FF#9 →
      (∀ before route n, WalkReaches s.nodes s.root before route → follow s.nodes s.root route = some n →
        VisitPasses s.nodes s.root before route) →
      ∃ u, exec .walk s = .next { s with ct := u })

/-! Tree (45_tree.md). -/

/-- R212, R213, R42: TCLR leaves no node and ROOT = NULL; TRST leaves one EMPTY node as the root, whose packed value is
0x000001FF01FF0000. -/
def Obligations.ClearAndStartTree : Prop :=
  ∀ s : State, exec .tclr s = .next { s with nodes := [], root := 0x1FF#9 } ∧
    exec .trst s = .next { s with nodes := [⟨.internal, 0#8, 0x1FF#9, 0x1FF#9⟩], root := 0#9 } ∧
    Node.empty.pack = 0x000001FF01FF0000#64

/-- R216: NWR stores the node of A1 in slot A0, allocating and filling with EMPTY up to it; ROOT and every other slot
are unchanged. Reserved bits are BAD_FIELD(6), k ≥ 511 is CAPACITY(k + 1), in this order, and then node memory is
unchanged. (For k = 2^64 - 1 the detail does not fit in 64 bits and `raise` latches a free value, assumption log 12.) -/
def Obligations.NwrWritesOneNode : Prop :=
  ∀ s : State,
    let k := s.la0.toNat
    let v := s.la1
    let reservedZero := v.extractLsb' 9 7 = 0#7 ∧ v.extractLsb' 25 7 = 0#7 ∧ v.extractLsb' 41 23 = 0#23
    (¬ reservedZero → exec .nwr s = .next (s.raise .badField 6)) ∧
    (reservedZero → 511 ≤ k → exec .nwr s = .next (s.raise .capacity (k + 1))) ∧
    (reservedZero → k < 511 → ∃ ns, exec .nwr s = .next { s with nodes := ns } ∧
      ns.length = max s.nodes.length (k + 1) ∧
      ∀ j : Nat, ns[j]? =
        if j = k then some ⟨if v.getLsbD 8 then .data else .internal, v.extractLsb' 0 8, v.extractLsb' 16 9,
          v.extractLsb' 32 9⟩
        else if j < s.nodes.length then s.nodes[j]?
        else if j < k then some ⟨.internal, 0#8, 0x1FF#9, 0x1FF#9⟩ else none)

/-- R217, R218: NRD puts the packed node of slot A0 into RESULT and TROOT makes A0 the root, and nothing else changes;
an index at or past NODE_COUNT is NODE_INDEX with nothing else changed. NODE_COUNT is at most 511 (R43). -/
def Obligations.NodeReadAndSetRoot : Prop :=
  ∀ s : State, s.nodes.length ≤ 511 →
    (s.nodes.length ≤ s.la0.toNat → exec .nrd s = .next (s.raise .nodeIndex s.la0.toNat) ∧
      exec .troot s = .next (s.raise .nodeIndex s.la0.toNat)) ∧
    ((h : s.la0.toNat < s.nodes.length) → exec .nrd s = .next { s with result := s.nodes[s.la0.toNat].pack } ∧
      exec .troot s = .next { s with root := BitVec.ofNat 9 s.la0.toNat })

/-- R41: the packed form of a node, field by field, and its unpacking. -/
def Obligations.PackedNodeLayout : Prop :=
  (∀ n : Node,
    n.pack.extractLsb' 0 8 = n.sym ∧ (n.pack.getLsbD 8 = true ↔ n.kind = .data) ∧
    n.pack.extractLsb' 9 7 = 0#7 ∧ n.pack.extractLsb' 16 9 = n.left ∧ n.pack.extractLsb' 25 7 = 0#7 ∧
    n.pack.extractLsb' 32 9 = n.right ∧ n.pack.extractLsb' 41 23 = 0#23 ∧ Node.unpack n.pack = n) ∧
  (∀ v : Word, v.extractLsb' 9 7 = 0#7 → v.extractLsb' 25 7 = 0#7 → v.extractLsb' 41 23 = 0#23 →
    (Node.unpack v).pack = v)

/-- R214: when the path of S follows existing Internal nodes along p, finds no child for its next bit x, and the missing
nodes fit, TINS creates one node per remaining bit, with consecutive indices from NODE_COUNT on in path order, links
each to the one before, and makes the last the Data leaf of symbol A0. No other node changes, the whole path then leads
to that leaf, and every route that existed still leads where it led. -/
def Obligations.TinsCreatesTheMissingPath : Prop :=
  ∀ (b : BufIdx) (s : State) (p q : List Bool) (x : Bool) (n : NodeIdx),
    s.la0.toNat ≤ 255 → (s.buf b).len ≤ 255 → s.root ≠ 0x1FF#9 → (s.buf b).bits = p ++ x :: q →
    leadsTo s.nodes s.root p = some n → (s.node n).kind = .internal → (s.node n).child x = 0x1FF#9 →
    s.nodes.length + (q.length + 1) ≤ 511 →
    let count := s.nodes.length
    let leaf := BitVec.ofNat 9 (count + q.length)
    ∃ ns, exec (.tins b) s = .next { s with nodes := ns } ∧ ns.length = count + (q.length + 1) ∧
      (∀ k : NodeIdx, k.toNat < count → k ≠ n → nodeAt ns k = nodeAt s.nodes k) ∧
      nodeAt ns n = (if x then { nodeAt s.nodes n with right := BitVec.ofNat 9 count }
        else { nodeAt s.nodes n with left := BitVec.ofNat 9 count }) ∧
      (∀ j, (h : j < q.length) → nodeAt ns (BitVec.ofNat 9 (count + j)) =
        (if q[j] then ⟨.internal, 0#8, 0x1FF#9, BitVec.ofNat 9 (count + j + 1)⟩
          else ⟨.internal, 0#8, BitVec.ofNat 9 (count + j + 1), 0x1FF#9⟩)) ∧
      nodeAt ns leaf = ⟨.data, BitVec.ofNat 8 s.la0.toNat, 0x1FF#9, 0x1FF#9⟩ ∧
      leadsTo ns s.root (s.buf b).bits = some leaf ∧
      (∀ route m, leadsTo s.nodes s.root route = some m → leadsTo ns s.root route = some m)

/-- R214: each error of TINS, in the order of its checks, with nothing but the latch changed: the symbol, the length, no
root, a Data root, an edge of the path to an index past NODE_COUNT, an edge to an existing Data node, a path that ends
on an existing Internal node, and too few free nodes. -/
def Obligations.TinsRejects : Prop :=
  ∀ (b : BufIdx) (s : State),
    let bits := (s.buf b).bits
    let len := (s.buf b).len
    let err := fun (c : ErrCode) (n : Nat) => exec (.tins b) s = .next (s.raise c n)
    let open_ := s.la0.toNat ≤ 255 ∧ 1 ≤ len ∧ len ≤ 255 ∧ s.root ≠ 0x1FF#9
    (255 < s.la0.toNat → err .badField 5) ∧
    (s.la0.toNat ≤ 255 → len = 0 ∨ 255 < len → err .badLength len) ∧
    (s.la0.toNat ≤ 255 → 1 ≤ len → len ≤ 255 → s.root = 0x1FF#9 → err .nodeIndex 0x1FF) ∧
    (open_ → (s.node s.root).kind = .data → err .recordConflict 0) ∧
    (∀ p x q n, open_ → bits = p ++ x :: q → leadsTo s.nodes s.root p = some n → (s.node n).kind = .internal →
      (s.node n).child x ≠ 0x1FF#9 → s.nodes.length ≤ ((s.node n).child x).toNat →
      err .nodeIndex ((s.node n).child x).toNat) ∧
    (∀ p x q n, open_ → bits = p ++ x :: q → leadsTo s.nodes s.root p = some n → (s.node n).kind = .internal →
      (s.node n).child x ≠ 0x1FF#9 → ((s.node n).child x).toNat < s.nodes.length →
      (s.node ((s.node n).child x)).kind = .data → err .recordConflict p.length) ∧
    (∀ n, open_ → leadsTo s.nodes s.root bits = some n → (s.node n).kind = .internal → err .recordConflict len) ∧
    (∀ p x q n, open_ → bits = p ++ x :: q → leadsTo s.nodes s.root p = some n → (s.node n).kind = .internal →
      (s.node n).child x = 0x1FF#9 → 511 < s.nodes.length + (q.length + 1) →
      err .capacity (s.nodes.length + (q.length + 1)))

/-! The payload decoder (46_decode.md). -/

/-- R240: DEC with D = S is BAD_FIELD(7) and without a root NODE_INDEX(0x1FF), nothing else changed. Else, when the
payload's LEN bits are whole codes, then bits that lead to Internal nodes only, then a rest: with nothing after the codes
DEC succeeds with every symbol emitted; when the bits end inside a code it is DECODE_TRAILING of the place where that
code began; when the next bit selects a NULL child it is DECODE_CORRUPT of that bit, an index past NODE_COUNT
NODE_INDEX of that index, and a leaf for which D has no room CAPACITY. After these errors the symbols emitted before
stay, and SYMCOUNT, RESULT and BITPOS are those of the last symbol emitted. -/
def Obligations.DecFollowsTheTree : Prop :=
  ∀ (d b : BufIdx) (s : State),
    (d = b → exec (.dec d b) s = .next (s.raise .badField 7)) ∧
    (d ≠ b → s.root = 0x1FF#9 → exec (.dec d b) s = .next (s.raise .nodeIndex 0x1FF)) ∧
    (∀ (codes : List (List Bool × Byte)) (p rest : List Bool) (cur : NodeIdx),
      d ≠ b → s.root ≠ 0x1FF#9 → (s.buf d).len ≤ 64 * (s.buf d).ec →
      (∀ c ∈ codes, codeSymbol s.nodes s.root s.root c.1 = some c.2) →
      (s.buf b).bits = codes.flatMap Prod.fst ++ p ++ rest →
      cursorAfter s.nodes s.root s.root p = some cur →
      ((s.buf d).len + 8 * codes.length + 63) / 64 ≤ s.params.bufWords →
      let syms := codes.map Prod.snd
      let start := (codes.flatMap Prod.fst).length
      (p = [] → rest = [] → ∃ t, DecodedTo s t d syms start ∧ exec (.dec d b) s = .next t) ∧
      (p ≠ [] → rest = [] →
        ∃ t, DecodedTo s t d syms start ∧ exec (.dec d b) s = .next (t.raise .decodeTrailing start)) ∧
      (∀ x xs, rest = x :: xs →
        let c := cursorChild s.nodes s.root cur x
        let need := ((s.buf d).len + 8 * codes.length + 8 + 63) / 64
        (c = 0x1FF#9 → ∃ t, DecodedTo s t d syms start ∧
          exec (.dec d b) s = .next (t.raise .decodeCorrupt (start + p.length))) ∧
        (c ≠ 0x1FF#9 → s.nodes.length ≤ c.toNat → ∃ t, DecodedTo s t d syms start ∧
          exec (.dec d b) s = .next (t.raise .nodeIndex c.toNat)) ∧
        (c ≠ 0x1FF#9 → c.toNat < s.nodes.length → (s.node c).kind = .data → s.params.bufWords < need →
          ∃ t, DecodedTo s t d syms start ∧ exec (.dec d b) s = .next (t.raise .capacity need))))

/-- R241: what BENC encodes with the table of a successful WALK into an empty buffer, DEC decodes on the same tree into
an empty buffer: the same bytes, 8 bits each, with SYMCOUNT and RESULT their number and BITPOS the payload's LEN,
whenever they fit. -/
def Obligations.DecodeInvertsEncode : Prop :=
  ∀ (s0 s1 s2 : State) (d b : BufIdx) (syms : List Byte),
    s0.errCode = .none → exec .walk s0 = .next s1 → s1.errCode = .none →
    (∀ y ∈ syms, (s1.entry y).valid = true) → s1.buf b = Buf.empty → s1.buf d = Buf.empty → d ≠ b →
    encodeAll b syms s1 = some s2 → s2.errCode = .none → 8 * syms.length ≤ 64 * s2.params.bufWords →
    ∃ t, exec (.dec d b) s2 = .next t ∧ t.errCode = .none ∧ (t.buf d).len = 8 * syms.length ∧
      (t.buf d).serialize = syms ∧ t.symCount = BitVec.ofNat 64 syms.length ∧
      t.result = BitVec.ofNat 64 syms.length ∧ t.bitPos = BitVec.ofNat 64 (s2.buf b).len

/-- R242, R150, R121: on a buffer of T bits, BSHL by `pos` and then BSETLEN to T - `pos` leave exactly the bits after the
first `pos`, with EC as it was, and change nothing else (the statement sets A0 for each command). -/
def Obligations.ShiftAndSetLengthDropLeadingBits : Prop :=
  ∀ (d : BufIdx) (s : State) (pos : Nat),
    let old := s.buf d
    s.params.Legal → old.len ≤ 64 * old.ec → old.ec ≤ s.params.bufWords → pos ≤ old.len →
    ∃ t b, exec (.bshl d) { s with la0 := BitVec.ofNat 64 pos } = .next t ∧
      exec (.bsetlen d) { t with la0 := BitVec.ofNat 64 (old.len - pos) } =
        .next (({ s with la0 := BitVec.ofNat 64 (old.len - pos) } : State).setBuf d b) ∧
      b.bits = old.bits.drop pos ∧ b.ec = old.ec

/-! Control (47_control.md) and bit order (20_memory.md). -/

/-- R260, R261: NOP changes nothing, with an error latched too; CLRERR sets ERR_CODE and ERR_INFO to 0 and changes nothing
else. -/
def Obligations.NopAndClrerr : Prop :=
  ∀ s : State, exec .nop s = .next s ∧ exec .clrerr s = .next { s with errCode := .none, errInfo := 0#64 }

/-- R63, R64: stream position i is bit 64 * EC - 1 - i of V(b), and stream position 8m + j is bit 7 - j of serialized
byte m. -/
def Obligations.StreamOrderOfValueAndBytes : Prop :=
  ∀ b : Buf,
    (∀ i < 64 * b.ec, b.value.testBit (64 * b.ec - 1 - i) = b.bit i) ∧
    (∀ m j, j < 8 → (b.serialByte m).getLsbD (7 - j) = b.bit (8 * m + j))
end

