-- ==== Sys2Proof/Laws/State.lean ====
section
/-! SUPPORT. What each update of the state leaves in each field. -/
namespace Sys2Proof.Machine

variable (s : State)

/-! setBuf -/

section
variable (b : BufIdx) (x : Buf)
@[simp] theorem State.setBuf_params : (s.setBuf b x).params = s.params := rfl
@[simp] theorem State.setBuf_arg0 : (s.setBuf b x).arg0 = s.arg0 := rfl
@[simp] theorem State.setBuf_arg1 : (s.setBuf b x).arg1 = s.arg1 := rfl
@[simp] theorem State.setBuf_result : (s.setBuf b x).result = s.result := rfl
@[simp] theorem State.setBuf_busy : (s.setBuf b x).busy = s.busy := rfl
@[simp] theorem State.setBuf_eq : (s.setBuf b x).eq = s.eq := rfl
@[simp] theorem State.setBuf_errCode : (s.setBuf b x).errCode = s.errCode := rfl
@[simp] theorem State.setBuf_errInfo : (s.setBuf b x).errInfo = s.errInfo := rfl
@[simp] theorem State.setBuf_root : (s.setBuf b x).root = s.root := rfl
@[simp] theorem State.setBuf_symCount : (s.setBuf b x).symCount = s.symCount := rfl
@[simp] theorem State.setBuf_bitPos : (s.setBuf b x).bitPos = s.bitPos := rfl
@[simp] theorem State.setBuf_bufs : (s.setBuf b x).bufs = s.bufs.set b.toNat x b.isLt := rfl
@[simp] theorem State.setBuf_ct : (s.setBuf b x).ct = s.ct := rfl
@[simp] theorem State.setBuf_nodes : (s.setBuf b x).nodes = s.nodes := rfl
@[simp] theorem State.setBuf_lcmd : (s.setBuf b x).lcmd = s.lcmd := rfl
@[simp] theorem State.setBuf_la0 : (s.setBuf b x).la0 = s.la0 := rfl
@[simp] theorem State.setBuf_la1 : (s.setBuf b x).la1 = s.la1 := rfl
@[simp] theorem State.setBuf_lblk : (s.setBuf b x).lblk = s.lblk := rfl
@[simp] theorem State.setBuf_agenda : (s.setBuf b x).agenda = s.agenda := rfl
@[simp] theorem State.setBuf_rdata : (s.setBuf b x).rdata = s.rdata := rfl
@[simp] theorem State.setBuf_draws : (s.setBuf b x).draws = s.draws := rfl
end

/-! setCt -/

section
variable (t : Vector Entry 256)
@[simp] theorem State.setCt_params : (s.setCt t).params = s.params := rfl
@[simp] theorem State.setCt_arg0 : (s.setCt t).arg0 = s.arg0 := rfl
@[simp] theorem State.setCt_arg1 : (s.setCt t).arg1 = s.arg1 := rfl
@[simp] theorem State.setCt_result : (s.setCt t).result = s.result := rfl
@[simp] theorem State.setCt_busy : (s.setCt t).busy = s.busy := rfl
@[simp] theorem State.setCt_eq : (s.setCt t).eq = s.eq := rfl
@[simp] theorem State.setCt_errCode : (s.setCt t).errCode = s.errCode := rfl
@[simp] theorem State.setCt_errInfo : (s.setCt t).errInfo = s.errInfo := rfl
@[simp] theorem State.setCt_root : (s.setCt t).root = s.root := rfl
@[simp] theorem State.setCt_symCount : (s.setCt t).symCount = s.symCount := rfl
@[simp] theorem State.setCt_bitPos : (s.setCt t).bitPos = s.bitPos := rfl
@[simp] theorem State.setCt_bufs : (s.setCt t).bufs = s.bufs := rfl
@[simp] theorem State.setCt_ct : (s.setCt t).ct = t := rfl
@[simp] theorem State.setCt_nodes : (s.setCt t).nodes = s.nodes := rfl
@[simp] theorem State.setCt_lcmd : (s.setCt t).lcmd = s.lcmd := rfl
@[simp] theorem State.setCt_la0 : (s.setCt t).la0 = s.la0 := rfl
@[simp] theorem State.setCt_la1 : (s.setCt t).la1 = s.la1 := rfl
@[simp] theorem State.setCt_lblk : (s.setCt t).lblk = s.lblk := rfl
@[simp] theorem State.setCt_agenda : (s.setCt t).agenda = s.agenda := rfl
@[simp] theorem State.setCt_rdata : (s.setCt t).rdata = s.rdata := rfl
@[simp] theorem State.setCt_draws : (s.setCt t).draws = s.draws := rfl
end

/-! setNodes -/

section
variable (ns : List Node)
@[simp] theorem State.setNodes_params : (s.setNodes ns).params = s.params := rfl
@[simp] theorem State.setNodes_arg0 : (s.setNodes ns).arg0 = s.arg0 := rfl
@[simp] theorem State.setNodes_arg1 : (s.setNodes ns).arg1 = s.arg1 := rfl
@[simp] theorem State.setNodes_result : (s.setNodes ns).result = s.result := rfl
@[simp] theorem State.setNodes_busy : (s.setNodes ns).busy = s.busy := rfl
@[simp] theorem State.setNodes_eq : (s.setNodes ns).eq = s.eq := rfl
@[simp] theorem State.setNodes_errCode : (s.setNodes ns).errCode = s.errCode := rfl
@[simp] theorem State.setNodes_errInfo : (s.setNodes ns).errInfo = s.errInfo := rfl
@[simp] theorem State.setNodes_root : (s.setNodes ns).root = s.root := rfl
@[simp] theorem State.setNodes_symCount : (s.setNodes ns).symCount = s.symCount := rfl
@[simp] theorem State.setNodes_bitPos : (s.setNodes ns).bitPos = s.bitPos := rfl
@[simp] theorem State.setNodes_bufs : (s.setNodes ns).bufs = s.bufs := rfl
@[simp] theorem State.setNodes_ct : (s.setNodes ns).ct = s.ct := rfl
@[simp] theorem State.setNodes_nodes : (s.setNodes ns).nodes = ns := rfl
@[simp] theorem State.setNodes_lcmd : (s.setNodes ns).lcmd = s.lcmd := rfl
@[simp] theorem State.setNodes_la0 : (s.setNodes ns).la0 = s.la0 := rfl
@[simp] theorem State.setNodes_la1 : (s.setNodes ns).la1 = s.la1 := rfl
@[simp] theorem State.setNodes_lblk : (s.setNodes ns).lblk = s.lblk := rfl
@[simp] theorem State.setNodes_agenda : (s.setNodes ns).agenda = s.agenda := rfl
@[simp] theorem State.setNodes_rdata : (s.setNodes ns).rdata = s.rdata := rfl
@[simp] theorem State.setNodes_draws : (s.setNodes ns).draws = s.draws := rfl
end

/-! setRoot -/

section
variable (r : NodeIdx)
@[simp] theorem State.setRoot_params : (s.setRoot r).params = s.params := rfl
@[simp] theorem State.setRoot_arg0 : (s.setRoot r).arg0 = s.arg0 := rfl
@[simp] theorem State.setRoot_arg1 : (s.setRoot r).arg1 = s.arg1 := rfl
@[simp] theorem State.setRoot_result : (s.setRoot r).result = s.result := rfl
@[simp] theorem State.setRoot_busy : (s.setRoot r).busy = s.busy := rfl
@[simp] theorem State.setRoot_eq : (s.setRoot r).eq = s.eq := rfl
@[simp] theorem State.setRoot_errCode : (s.setRoot r).errCode = s.errCode := rfl
@[simp] theorem State.setRoot_errInfo : (s.setRoot r).errInfo = s.errInfo := rfl
@[simp] theorem State.setRoot_root : (s.setRoot r).root = r := rfl
@[simp] theorem State.setRoot_symCount : (s.setRoot r).symCount = s.symCount := rfl
@[simp] theorem State.setRoot_bitPos : (s.setRoot r).bitPos = s.bitPos := rfl
@[simp] theorem State.setRoot_bufs : (s.setRoot r).bufs = s.bufs := rfl
@[simp] theorem State.setRoot_ct : (s.setRoot r).ct = s.ct := rfl
@[simp] theorem State.setRoot_nodes : (s.setRoot r).nodes = s.nodes := rfl
@[simp] theorem State.setRoot_lcmd : (s.setRoot r).lcmd = s.lcmd := rfl
@[simp] theorem State.setRoot_la0 : (s.setRoot r).la0 = s.la0 := rfl
@[simp] theorem State.setRoot_la1 : (s.setRoot r).la1 = s.la1 := rfl
@[simp] theorem State.setRoot_lblk : (s.setRoot r).lblk = s.lblk := rfl
@[simp] theorem State.setRoot_agenda : (s.setRoot r).agenda = s.agenda := rfl
@[simp] theorem State.setRoot_rdata : (s.setRoot r).rdata = s.rdata := rfl
@[simp] theorem State.setRoot_draws : (s.setRoot r).draws = s.draws := rfl
end

/-! setResult -/

section
variable (v : Word)
@[simp] theorem State.setResult_params : (s.setResult v).params = s.params := rfl
@[simp] theorem State.setResult_arg0 : (s.setResult v).arg0 = s.arg0 := rfl
@[simp] theorem State.setResult_arg1 : (s.setResult v).arg1 = s.arg1 := rfl
@[simp] theorem State.setResult_result : (s.setResult v).result = v := rfl
@[simp] theorem State.setResult_busy : (s.setResult v).busy = s.busy := rfl
@[simp] theorem State.setResult_eq : (s.setResult v).eq = s.eq := rfl
@[simp] theorem State.setResult_errCode : (s.setResult v).errCode = s.errCode := rfl
@[simp] theorem State.setResult_errInfo : (s.setResult v).errInfo = s.errInfo := rfl
@[simp] theorem State.setResult_root : (s.setResult v).root = s.root := rfl
@[simp] theorem State.setResult_symCount : (s.setResult v).symCount = s.symCount := rfl
@[simp] theorem State.setResult_bitPos : (s.setResult v).bitPos = s.bitPos := rfl
@[simp] theorem State.setResult_bufs : (s.setResult v).bufs = s.bufs := rfl
@[simp] theorem State.setResult_ct : (s.setResult v).ct = s.ct := rfl
@[simp] theorem State.setResult_nodes : (s.setResult v).nodes = s.nodes := rfl
@[simp] theorem State.setResult_lcmd : (s.setResult v).lcmd = s.lcmd := rfl
@[simp] theorem State.setResult_la0 : (s.setResult v).la0 = s.la0 := rfl
@[simp] theorem State.setResult_la1 : (s.setResult v).la1 = s.la1 := rfl
@[simp] theorem State.setResult_lblk : (s.setResult v).lblk = s.lblk := rfl
@[simp] theorem State.setResult_agenda : (s.setResult v).agenda = s.agenda := rfl
@[simp] theorem State.setResult_rdata : (s.setResult v).rdata = s.rdata := rfl
@[simp] theorem State.setResult_draws : (s.setResult v).draws = s.draws := rfl
end

/-! setEq -/

section
variable (e : Bool)
@[simp] theorem State.setEq_params : (s.setEq e).params = s.params := rfl
@[simp] theorem State.setEq_arg0 : (s.setEq e).arg0 = s.arg0 := rfl
@[simp] theorem State.setEq_arg1 : (s.setEq e).arg1 = s.arg1 := rfl
@[simp] theorem State.setEq_result : (s.setEq e).result = (BitVec.ofBool e).setWidth 64 := rfl
@[simp] theorem State.setEq_busy : (s.setEq e).busy = s.busy := rfl
@[simp] theorem State.setEq_eq : (s.setEq e).eq = e := rfl
@[simp] theorem State.setEq_errCode : (s.setEq e).errCode = s.errCode := rfl
@[simp] theorem State.setEq_errInfo : (s.setEq e).errInfo = s.errInfo := rfl
@[simp] theorem State.setEq_root : (s.setEq e).root = s.root := rfl
@[simp] theorem State.setEq_symCount : (s.setEq e).symCount = s.symCount := rfl
@[simp] theorem State.setEq_bitPos : (s.setEq e).bitPos = s.bitPos := rfl
@[simp] theorem State.setEq_bufs : (s.setEq e).bufs = s.bufs := rfl
@[simp] theorem State.setEq_ct : (s.setEq e).ct = s.ct := rfl
@[simp] theorem State.setEq_nodes : (s.setEq e).nodes = s.nodes := rfl
@[simp] theorem State.setEq_lcmd : (s.setEq e).lcmd = s.lcmd := rfl
@[simp] theorem State.setEq_la0 : (s.setEq e).la0 = s.la0 := rfl
@[simp] theorem State.setEq_la1 : (s.setEq e).la1 = s.la1 := rfl
@[simp] theorem State.setEq_lblk : (s.setEq e).lblk = s.lblk := rfl
@[simp] theorem State.setEq_agenda : (s.setEq e).agenda = s.agenda := rfl
@[simp] theorem State.setEq_rdata : (s.setEq e).rdata = s.rdata := rfl
@[simp] theorem State.setEq_draws : (s.setEq e).draws = s.draws := rfl
end

/-! setDecode -/

section
variable (c p : Word)
@[simp] theorem State.setDecode_params : (s.setDecode c p).params = s.params := rfl
@[simp] theorem State.setDecode_arg0 : (s.setDecode c p).arg0 = s.arg0 := rfl
@[simp] theorem State.setDecode_arg1 : (s.setDecode c p).arg1 = s.arg1 := rfl
@[simp] theorem State.setDecode_result : (s.setDecode c p).result = s.result := rfl
@[simp] theorem State.setDecode_busy : (s.setDecode c p).busy = s.busy := rfl
@[simp] theorem State.setDecode_eq : (s.setDecode c p).eq = s.eq := rfl
@[simp] theorem State.setDecode_errCode : (s.setDecode c p).errCode = s.errCode := rfl
@[simp] theorem State.setDecode_errInfo : (s.setDecode c p).errInfo = s.errInfo := rfl
@[simp] theorem State.setDecode_root : (s.setDecode c p).root = s.root := rfl
@[simp] theorem State.setDecode_symCount : (s.setDecode c p).symCount = c := rfl
@[simp] theorem State.setDecode_bitPos : (s.setDecode c p).bitPos = p := rfl
@[simp] theorem State.setDecode_bufs : (s.setDecode c p).bufs = s.bufs := rfl
@[simp] theorem State.setDecode_ct : (s.setDecode c p).ct = s.ct := rfl
@[simp] theorem State.setDecode_nodes : (s.setDecode c p).nodes = s.nodes := rfl
@[simp] theorem State.setDecode_lcmd : (s.setDecode c p).lcmd = s.lcmd := rfl
@[simp] theorem State.setDecode_la0 : (s.setDecode c p).la0 = s.la0 := rfl
@[simp] theorem State.setDecode_la1 : (s.setDecode c p).la1 = s.la1 := rfl
@[simp] theorem State.setDecode_lblk : (s.setDecode c p).lblk = s.lblk := rfl
@[simp] theorem State.setDecode_agenda : (s.setDecode c p).agenda = s.agenda := rfl
@[simp] theorem State.setDecode_rdata : (s.setDecode c p).rdata = s.rdata := rfl
@[simp] theorem State.setDecode_draws : (s.setDecode c p).draws = s.draws := rfl
end

/-! setBusy -/

section
variable (x : Bool)
@[simp] theorem State.setBusy_params : (s.setBusy x).params = s.params := rfl
@[simp] theorem State.setBusy_arg0 : (s.setBusy x).arg0 = s.arg0 := rfl
@[simp] theorem State.setBusy_arg1 : (s.setBusy x).arg1 = s.arg1 := rfl
@[simp] theorem State.setBusy_result : (s.setBusy x).result = s.result := rfl
@[simp] theorem State.setBusy_busy : (s.setBusy x).busy = x := rfl
@[simp] theorem State.setBusy_eq : (s.setBusy x).eq = s.eq := rfl
@[simp] theorem State.setBusy_errCode : (s.setBusy x).errCode = s.errCode := rfl
@[simp] theorem State.setBusy_errInfo : (s.setBusy x).errInfo = s.errInfo := rfl
@[simp] theorem State.setBusy_root : (s.setBusy x).root = s.root := rfl
@[simp] theorem State.setBusy_symCount : (s.setBusy x).symCount = s.symCount := rfl
@[simp] theorem State.setBusy_bitPos : (s.setBusy x).bitPos = s.bitPos := rfl
@[simp] theorem State.setBusy_bufs : (s.setBusy x).bufs = s.bufs := rfl
@[simp] theorem State.setBusy_ct : (s.setBusy x).ct = s.ct := rfl
@[simp] theorem State.setBusy_nodes : (s.setBusy x).nodes = s.nodes := rfl
@[simp] theorem State.setBusy_lcmd : (s.setBusy x).lcmd = s.lcmd := rfl
@[simp] theorem State.setBusy_la0 : (s.setBusy x).la0 = s.la0 := rfl
@[simp] theorem State.setBusy_la1 : (s.setBusy x).la1 = s.la1 := rfl
@[simp] theorem State.setBusy_lblk : (s.setBusy x).lblk = s.lblk := rfl
@[simp] theorem State.setBusy_agenda : (s.setBusy x).agenda = s.agenda := rfl
@[simp] theorem State.setBusy_rdata : (s.setBusy x).rdata = s.rdata := rfl
@[simp] theorem State.setBusy_draws : (s.setBusy x).draws = s.draws := rfl
end

/-! setArg0 -/

section
variable (v : Word)
@[simp] theorem State.setArg0_params : (s.setArg0 v).params = s.params := rfl
@[simp] theorem State.setArg0_arg0 : (s.setArg0 v).arg0 = v := rfl
@[simp] theorem State.setArg0_arg1 : (s.setArg0 v).arg1 = s.arg1 := rfl
@[simp] theorem State.setArg0_result : (s.setArg0 v).result = s.result := rfl
@[simp] theorem State.setArg0_busy : (s.setArg0 v).busy = s.busy := rfl
@[simp] theorem State.setArg0_eq : (s.setArg0 v).eq = s.eq := rfl
@[simp] theorem State.setArg0_errCode : (s.setArg0 v).errCode = s.errCode := rfl
@[simp] theorem State.setArg0_errInfo : (s.setArg0 v).errInfo = s.errInfo := rfl
@[simp] theorem State.setArg0_root : (s.setArg0 v).root = s.root := rfl
@[simp] theorem State.setArg0_symCount : (s.setArg0 v).symCount = s.symCount := rfl
@[simp] theorem State.setArg0_bitPos : (s.setArg0 v).bitPos = s.bitPos := rfl
@[simp] theorem State.setArg0_bufs : (s.setArg0 v).bufs = s.bufs := rfl
@[simp] theorem State.setArg0_ct : (s.setArg0 v).ct = s.ct := rfl
@[simp] theorem State.setArg0_nodes : (s.setArg0 v).nodes = s.nodes := rfl
@[simp] theorem State.setArg0_lcmd : (s.setArg0 v).lcmd = s.lcmd := rfl
@[simp] theorem State.setArg0_la0 : (s.setArg0 v).la0 = s.la0 := rfl
@[simp] theorem State.setArg0_la1 : (s.setArg0 v).la1 = s.la1 := rfl
@[simp] theorem State.setArg0_lblk : (s.setArg0 v).lblk = s.lblk := rfl
@[simp] theorem State.setArg0_agenda : (s.setArg0 v).agenda = s.agenda := rfl
@[simp] theorem State.setArg0_rdata : (s.setArg0 v).rdata = s.rdata := rfl
@[simp] theorem State.setArg0_draws : (s.setArg0 v).draws = s.draws := rfl
end

/-! setArg1 -/

section
variable (v : Word)
@[simp] theorem State.setArg1_params : (s.setArg1 v).params = s.params := rfl
@[simp] theorem State.setArg1_arg0 : (s.setArg1 v).arg0 = s.arg0 := rfl
@[simp] theorem State.setArg1_arg1 : (s.setArg1 v).arg1 = v := rfl
@[simp] theorem State.setArg1_result : (s.setArg1 v).result = s.result := rfl
@[simp] theorem State.setArg1_busy : (s.setArg1 v).busy = s.busy := rfl
@[simp] theorem State.setArg1_eq : (s.setArg1 v).eq = s.eq := rfl
@[simp] theorem State.setArg1_errCode : (s.setArg1 v).errCode = s.errCode := rfl
@[simp] theorem State.setArg1_errInfo : (s.setArg1 v).errInfo = s.errInfo := rfl
@[simp] theorem State.setArg1_root : (s.setArg1 v).root = s.root := rfl
@[simp] theorem State.setArg1_symCount : (s.setArg1 v).symCount = s.symCount := rfl
@[simp] theorem State.setArg1_bitPos : (s.setArg1 v).bitPos = s.bitPos := rfl
@[simp] theorem State.setArg1_bufs : (s.setArg1 v).bufs = s.bufs := rfl
@[simp] theorem State.setArg1_ct : (s.setArg1 v).ct = s.ct := rfl
@[simp] theorem State.setArg1_nodes : (s.setArg1 v).nodes = s.nodes := rfl
@[simp] theorem State.setArg1_lcmd : (s.setArg1 v).lcmd = s.lcmd := rfl
@[simp] theorem State.setArg1_la0 : (s.setArg1 v).la0 = s.la0 := rfl
@[simp] theorem State.setArg1_la1 : (s.setArg1 v).la1 = s.la1 := rfl
@[simp] theorem State.setArg1_lblk : (s.setArg1 v).lblk = s.lblk := rfl
@[simp] theorem State.setArg1_agenda : (s.setArg1 v).agenda = s.agenda := rfl
@[simp] theorem State.setArg1_rdata : (s.setArg1 v).rdata = s.rdata := rfl
@[simp] theorem State.setArg1_draws : (s.setArg1 v).draws = s.draws := rfl
end

/-! setAgenda -/

section
variable (ms : List Move)
@[simp] theorem State.setAgenda_params : (s.setAgenda ms).params = s.params := rfl
@[simp] theorem State.setAgenda_arg0 : (s.setAgenda ms).arg0 = s.arg0 := rfl
@[simp] theorem State.setAgenda_arg1 : (s.setAgenda ms).arg1 = s.arg1 := rfl
@[simp] theorem State.setAgenda_result : (s.setAgenda ms).result = s.result := rfl
@[simp] theorem State.setAgenda_busy : (s.setAgenda ms).busy = s.busy := rfl
@[simp] theorem State.setAgenda_eq : (s.setAgenda ms).eq = s.eq := rfl
@[simp] theorem State.setAgenda_errCode : (s.setAgenda ms).errCode = s.errCode := rfl
@[simp] theorem State.setAgenda_errInfo : (s.setAgenda ms).errInfo = s.errInfo := rfl
@[simp] theorem State.setAgenda_root : (s.setAgenda ms).root = s.root := rfl
@[simp] theorem State.setAgenda_symCount : (s.setAgenda ms).symCount = s.symCount := rfl
@[simp] theorem State.setAgenda_bitPos : (s.setAgenda ms).bitPos = s.bitPos := rfl
@[simp] theorem State.setAgenda_bufs : (s.setAgenda ms).bufs = s.bufs := rfl
@[simp] theorem State.setAgenda_ct : (s.setAgenda ms).ct = s.ct := rfl
@[simp] theorem State.setAgenda_nodes : (s.setAgenda ms).nodes = s.nodes := rfl
@[simp] theorem State.setAgenda_lcmd : (s.setAgenda ms).lcmd = s.lcmd := rfl
@[simp] theorem State.setAgenda_la0 : (s.setAgenda ms).la0 = s.la0 := rfl
@[simp] theorem State.setAgenda_la1 : (s.setAgenda ms).la1 = s.la1 := rfl
@[simp] theorem State.setAgenda_lblk : (s.setAgenda ms).lblk = s.lblk := rfl
@[simp] theorem State.setAgenda_agenda : (s.setAgenda ms).agenda = ms := rfl
@[simp] theorem State.setAgenda_rdata : (s.setAgenda ms).rdata = s.rdata := rfl
@[simp] theorem State.setAgenda_draws : (s.setAgenda ms).draws = s.draws := rfl
end

/-! setRdata -/

section
variable (v : Word)
@[simp] theorem State.setRdata_params : (s.setRdata v).params = s.params := rfl
@[simp] theorem State.setRdata_arg0 : (s.setRdata v).arg0 = s.arg0 := rfl
@[simp] theorem State.setRdata_arg1 : (s.setRdata v).arg1 = s.arg1 := rfl
@[simp] theorem State.setRdata_result : (s.setRdata v).result = s.result := rfl
@[simp] theorem State.setRdata_busy : (s.setRdata v).busy = s.busy := rfl
@[simp] theorem State.setRdata_eq : (s.setRdata v).eq = s.eq := rfl
@[simp] theorem State.setRdata_errCode : (s.setRdata v).errCode = s.errCode := rfl
@[simp] theorem State.setRdata_errInfo : (s.setRdata v).errInfo = s.errInfo := rfl
@[simp] theorem State.setRdata_root : (s.setRdata v).root = s.root := rfl
@[simp] theorem State.setRdata_symCount : (s.setRdata v).symCount = s.symCount := rfl
@[simp] theorem State.setRdata_bitPos : (s.setRdata v).bitPos = s.bitPos := rfl
@[simp] theorem State.setRdata_bufs : (s.setRdata v).bufs = s.bufs := rfl
@[simp] theorem State.setRdata_ct : (s.setRdata v).ct = s.ct := rfl
@[simp] theorem State.setRdata_nodes : (s.setRdata v).nodes = s.nodes := rfl
@[simp] theorem State.setRdata_lcmd : (s.setRdata v).lcmd = s.lcmd := rfl
@[simp] theorem State.setRdata_la0 : (s.setRdata v).la0 = s.la0 := rfl
@[simp] theorem State.setRdata_la1 : (s.setRdata v).la1 = s.la1 := rfl
@[simp] theorem State.setRdata_lblk : (s.setRdata v).lblk = s.lblk := rfl
@[simp] theorem State.setRdata_agenda : (s.setRdata v).agenda = s.agenda := rfl
@[simp] theorem State.setRdata_rdata : (s.setRdata v).rdata = v := rfl
@[simp] theorem State.setRdata_draws : (s.setRdata v).draws = s.draws := rfl
end

/-! drawn -/

section
@[simp] theorem State.drawn_params : s.drawn.params = s.params := rfl
@[simp] theorem State.drawn_arg0 : s.drawn.arg0 = s.arg0 := rfl
@[simp] theorem State.drawn_arg1 : s.drawn.arg1 = s.arg1 := rfl
@[simp] theorem State.drawn_result : s.drawn.result = s.result := rfl
@[simp] theorem State.drawn_busy : s.drawn.busy = s.busy := rfl
@[simp] theorem State.drawn_eq : s.drawn.eq = s.eq := rfl
@[simp] theorem State.drawn_errCode : s.drawn.errCode = s.errCode := rfl
@[simp] theorem State.drawn_errInfo : s.drawn.errInfo = s.errInfo := rfl
@[simp] theorem State.drawn_root : s.drawn.root = s.root := rfl
@[simp] theorem State.drawn_symCount : s.drawn.symCount = s.symCount := rfl
@[simp] theorem State.drawn_bitPos : s.drawn.bitPos = s.bitPos := rfl
@[simp] theorem State.drawn_bufs : s.drawn.bufs = s.bufs := rfl
@[simp] theorem State.drawn_ct : s.drawn.ct = s.ct := rfl
@[simp] theorem State.drawn_nodes : s.drawn.nodes = s.nodes := rfl
@[simp] theorem State.drawn_lcmd : s.drawn.lcmd = s.lcmd := rfl
@[simp] theorem State.drawn_la0 : s.drawn.la0 = s.la0 := rfl
@[simp] theorem State.drawn_la1 : s.drawn.la1 = s.la1 := rfl
@[simp] theorem State.drawn_lblk : s.drawn.lblk = s.lblk := rfl
@[simp] theorem State.drawn_agenda : s.drawn.agenda = s.agenda := rfl
@[simp] theorem State.drawn_rdata : s.drawn.rdata = s.rdata := rfl
@[simp] theorem State.drawn_draws : s.drawn.draws = s.draws + 1 := rfl
end

/-! setLatch -/

section
variable (w a0 a1 : Word) (k : Bool)
@[simp] theorem State.setLatch_params : (s.setLatch w a0 a1 k).params = s.params := rfl
@[simp] theorem State.setLatch_arg0 : (s.setLatch w a0 a1 k).arg0 = s.arg0 := rfl
@[simp] theorem State.setLatch_arg1 : (s.setLatch w a0 a1 k).arg1 = s.arg1 := rfl
@[simp] theorem State.setLatch_result : (s.setLatch w a0 a1 k).result = s.result := rfl
@[simp] theorem State.setLatch_busy : (s.setLatch w a0 a1 k).busy = s.busy := rfl
@[simp] theorem State.setLatch_eq : (s.setLatch w a0 a1 k).eq = s.eq := rfl
@[simp] theorem State.setLatch_errCode : (s.setLatch w a0 a1 k).errCode = s.errCode := rfl
@[simp] theorem State.setLatch_errInfo : (s.setLatch w a0 a1 k).errInfo = s.errInfo := rfl
@[simp] theorem State.setLatch_root : (s.setLatch w a0 a1 k).root = s.root := rfl
@[simp] theorem State.setLatch_symCount : (s.setLatch w a0 a1 k).symCount = s.symCount := rfl
@[simp] theorem State.setLatch_bitPos : (s.setLatch w a0 a1 k).bitPos = s.bitPos := rfl
@[simp] theorem State.setLatch_bufs : (s.setLatch w a0 a1 k).bufs = s.bufs := rfl
@[simp] theorem State.setLatch_ct : (s.setLatch w a0 a1 k).ct = s.ct := rfl
@[simp] theorem State.setLatch_nodes : (s.setLatch w a0 a1 k).nodes = s.nodes := rfl
@[simp] theorem State.setLatch_lcmd : (s.setLatch w a0 a1 k).lcmd = w := rfl
@[simp] theorem State.setLatch_la0 : (s.setLatch w a0 a1 k).la0 = a0 := rfl
@[simp] theorem State.setLatch_la1 : (s.setLatch w a0 a1 k).la1 = a1 := rfl
@[simp] theorem State.setLatch_lblk : (s.setLatch w a0 a1 k).lblk = k := rfl
@[simp] theorem State.setLatch_agenda : (s.setLatch w a0 a1 k).agenda = s.agenda := rfl
@[simp] theorem State.setLatch_rdata : (s.setLatch w a0 a1 k).rdata = s.rdata := rfl
@[simp] theorem State.setLatch_draws : (s.setLatch w a0 a1 k).draws = s.draws := rfl
end

/-! setErr -/

section
variable (c : ErrCode) (i : Word)
@[simp] theorem State.setErr_params : (s.setErr c i).params = s.params := rfl
@[simp] theorem State.setErr_arg0 : (s.setErr c i).arg0 = s.arg0 := rfl
@[simp] theorem State.setErr_arg1 : (s.setErr c i).arg1 = s.arg1 := rfl
@[simp] theorem State.setErr_result : (s.setErr c i).result = s.result := rfl
@[simp] theorem State.setErr_busy : (s.setErr c i).busy = s.busy := rfl
@[simp] theorem State.setErr_eq : (s.setErr c i).eq = s.eq := rfl
@[simp] theorem State.setErr_errCode : (s.setErr c i).errCode = c := rfl
@[simp] theorem State.setErr_errInfo : (s.setErr c i).errInfo = i := rfl
@[simp] theorem State.setErr_root : (s.setErr c i).root = s.root := rfl
@[simp] theorem State.setErr_symCount : (s.setErr c i).symCount = s.symCount := rfl
@[simp] theorem State.setErr_bitPos : (s.setErr c i).bitPos = s.bitPos := rfl
@[simp] theorem State.setErr_bufs : (s.setErr c i).bufs = s.bufs := rfl
@[simp] theorem State.setErr_ct : (s.setErr c i).ct = s.ct := rfl
@[simp] theorem State.setErr_nodes : (s.setErr c i).nodes = s.nodes := rfl
@[simp] theorem State.setErr_lcmd : (s.setErr c i).lcmd = s.lcmd := rfl
@[simp] theorem State.setErr_la0 : (s.setErr c i).la0 = s.la0 := rfl
@[simp] theorem State.setErr_la1 : (s.setErr c i).la1 = s.la1 := rfl
@[simp] theorem State.setErr_lblk : (s.setErr c i).lblk = s.lblk := rfl
@[simp] theorem State.setErr_agenda : (s.setErr c i).agenda = s.agenda := rfl
@[simp] theorem State.setErr_rdata : (s.setErr c i).rdata = s.rdata := rfl
@[simp] theorem State.setErr_draws : (s.setErr c i).draws = s.draws := rfl
end

end Sys2Proof.Machine
end

