-- ==== Sys2Proof/Laws/Buf.lean ====
section
/-! SUPPORT. What each operation on a buffer does, said once: the reads after it, its LEN and its EC. -/
namespace Sys2Proof.Machine

theorem getLsbD_setBit (v : Word) {j : Nat} (hj : j < 64) (x : Bool) (i : Nat) :
    (setBit v j x).getLsbD i = if i = j then x else v.getLsbD i := by
  by_cases hi : i = j
  · subst hi; cases x <;> simp [setBit, hj]
  · by_cases h64 : i < 64
    · cases x <;> simp [setBit, hi, h64] <;> omega
    · rw [BitVec.getLsbD_of_ge _ _ (by omega), if_neg hi, BitVec.getLsbD_of_ge _ _ (by omega)]

/-! Element reads. -/

theorem Buf.memRead_eq (b : Buf) (k : Nat) : b.memRead k = b.elems.getD k 0#64 := by
  unfold Buf.memRead Buf.ec
  split
  · rfl
  · rw [List.getD_eq_default]; omega

theorem Buf.memRead_of_ge (b : Buf) {k : Nat} (h : b.ec ≤ k) : b.memRead k = 0#64 := by
  simp [Buf.memRead, Nat.not_lt.mpr h]

theorem Buf.bit_eq (b : Buf) (i : Nat) : b.bit i = (b.memRead (i / 64)).getLsbD (63 - i % 64) := by
  unfold Buf.bit
  split
  · rfl
  · rw [Buf.memRead_of_ge b (by omega)]; simp

theorem Buf.bit_of_ge (b : Buf) {i : Nat} (h : 64 * b.ec ≤ i) : b.bit i = false := by
  simp [Buf.bit, Nat.not_lt.mpr h]

@[simp] theorem Buf.ec_memWrite (b : Buf) (k : Nat) (v : Word) : (b.memWrite k v).ec = b.ec := by
  simp [Buf.ec, Buf.memWrite]

@[simp] theorem Buf.len_memWrite (b : Buf) (k : Nat) (v : Word) : (b.memWrite k v).len = b.len := rfl

theorem Buf.memRead_memWrite (b : Buf) {k : Nat} (hk : k < b.ec) (v : Word) (j : Nat) :
    (b.memWrite k v).memRead j = if j = k then v else b.memRead j := by
  have hk' : k < b.elems.length := hk
  simp only [Buf.memRead_eq, Buf.memWrite, List.getD_eq_getElem?_getD, List.getElem?_set]
  by_cases h : j = k
  · subst h; simp [hk']
  · simp [h, Ne.symm h]

@[simp] theorem Buf.ec_grow (b : Buf) (m : Nat) : (b.grow m).ec = max b.ec m := by
  simp [Buf.ec, Buf.grow]; omega

@[simp] theorem Buf.len_grow (b : Buf) (m : Nat) : (b.grow m).len = b.len := rfl

@[simp] theorem Buf.memRead_grow (b : Buf) (m k : Nat) : (b.grow m).memRead k = b.memRead k := by
  simp only [Buf.memRead_eq, Buf.grow, List.getD_eq_getElem?_getD]
  by_cases h : k < b.elems.length
  · rw [List.getElem?_append_left h]
  · rw [List.getElem?_append_right (by omega), List.getElem?_eq_none (l := b.elems) (by omega),
      List.getElem?_replicate]
    split <;> rfl

@[simp] theorem Buf.bit_grow (b : Buf) (m i : Nat) : (b.grow m).bit i = b.bit i := by
  simp [Buf.bit_eq]

theorem Buf.grow_of_le (b : Buf) {m : Nat} (h : m ≤ b.ec) : b.grow m = b := by
  simp [Buf.grow, Nat.sub_eq_zero_of_le h]

/-! Bit writes. -/

@[simp] theorem Buf.ec_put (b : Buf) (i : Nat) (x : Bool) : (b.put i x).ec = b.ec := by simp [Buf.put]

@[simp] theorem Buf.len_put (b : Buf) (i : Nat) (x : Bool) : (b.put i x).len = b.len := rfl

theorem Buf.bit_put (b : Buf) {i : Nat} (hi : i < 64 * b.ec) (x : Bool) (j : Nat) :
    (b.put i x).bit j = if j = i then x else b.bit j := by
  rw [Buf.bit_eq, Buf.put, Buf.memRead_memWrite b (by omega), Buf.bit_eq]
  by_cases hq : j / 64 = i / 64
  · rw [if_pos hq, getLsbD_setBit _ (by omega), hq]
    by_cases h : j = i
    · simp [h]
    · rw [if_neg (by omega), if_neg h]
  · rw [if_neg hq, if_neg (by intro h; exact hq (by rw [h]))]

@[simp] theorem Buf.ec_putBits (b : Buf) (i : Nat) (xs : List Bool) : (b.putBits i xs).ec = b.ec := by
  induction xs generalizing b i with
  | nil => rfl
  | cons x xs ih => simp [Buf.putBits, ih]

@[simp] theorem Buf.len_putBits (b : Buf) (i : Nat) (xs : List Bool) : (b.putBits i xs).len = b.len := by
  induction xs generalizing b i with
  | nil => rfl
  | cons x xs ih => simp [Buf.putBits, ih]

theorem Buf.bit_putBits (b : Buf) (i : Nat) (xs : List Bool) (h : i + xs.length ≤ 64 * b.ec) (j : Nat) :
    (b.putBits i xs).bit j = if i ≤ j ∧ j < i + xs.length then xs.getD (j - i) false else b.bit j := by
  induction xs generalizing b i with
  | nil => simp [Buf.putBits]; omega
  | cons x xs ih =>
    simp only [List.length_cons] at h ⊢
    rw [Buf.putBits, ih _ _ (by simp; omega), Buf.bit_put b (by omega)]
    by_cases h1 : j = i
    · subst h1; simp
    · by_cases h2 : i + 1 ≤ j ∧ j < i + 1 + xs.length
      · rw [if_pos h2, if_pos (by omega)]
        obtain ⟨k, rfl⟩ : ∃ k, j = i + 1 + k := ⟨j - (i + 1), by omega⟩
        have e1 : i + 1 + k - i = k + 1 := by omega
        have e2 : i + 1 + k - (i + 1) = k := by omega
        rw [e1, e2, List.getD_cons_succ]
      · rw [if_neg h2, if_neg h1, if_neg (by omega)]

/-! Appends. -/

theorem Buf.le_needs (b : Buf) (n : Nat) : b.len + n ≤ 64 * b.needs n := by
  simp only [Buf.needs, ceil64]; omega

@[simp] theorem Buf.len_append (b : Buf) (xs : List Bool) : (b.append xs).len = b.len + xs.length := rfl

@[simp] theorem Buf.ec_append (b : Buf) (xs : List Bool) :
    (b.append xs).ec = max b.ec (b.needs xs.length) := by
  have h := Buf.ec_putBits (b.grow (b.needs xs.length)) b.len xs
  rw [Buf.ec_grow] at h
  exact h

theorem Buf.bit_append (b : Buf) (xs : List Bool) (j : Nat) :
    (b.append xs).bit j =
      if b.len ≤ j ∧ j < b.len + xs.length then xs.getD (j - b.len) false else b.bit j := by
  have hfit := b.le_needs xs.length
  have h := Buf.bit_putBits (b.grow (b.needs xs.length)) b.len xs (by rw [Buf.ec_grow]; omega) j
  rw [Buf.bit_grow] at h
  exact h

/-! The first LEN bits. -/

@[simp] theorem Buf.length_bits (b : Buf) : b.bits.length = b.len := by simp [Buf.bits]

theorem Buf.getD_bits (b : Buf) {j : Nat} (h : j < b.len) : b.bits.getD j false = b.bit j := by
  simp [Buf.bits, List.getD_eq_getElem?_getD, h]

/-- Two buffers with the same EC, LEN and bits are the same. -/
theorem Buf.ext_bits {x y : Buf} (hec : x.ec = y.ec) (hlen : x.len = y.len)
    (hbit : ∀ i, x.bit i = y.bit i) : x = y := by
  have hread : ∀ k, x.memRead k = y.memRead k := by
    intro k
    apply BitVec.eq_of_getLsbD_eq
    intro i hi
    have h := hbit (64 * k + (63 - i))
    rw [Buf.bit_eq, Buf.bit_eq] at h
    have e1 : (64 * k + (63 - i)) / 64 = k := by omega
    have e2 : 63 - (64 * k + (63 - i)) % 64 = i := by omega
    rwa [e1, e2] at h
  cases x with
  | mk ex lx =>
    cases y with
    | mk ey ly =>
      simp only at hlen
      subst hlen
      have hl : ex.length = ey.length := hec
      congr 1
      apply List.ext_getElem hl
      intro k h1 h2
      have h := hread k
      rw [Buf.memRead_eq, Buf.memRead_eq] at h
      simpa [List.getD_eq_getElem?_getD, h1, h2] using h

/-! The bounds of R31. -/

theorem Buf.empty_ok (n : Nat) : Buf.empty.Ok n := by simp [Buf.Ok, Buf.empty, Buf.ec]

theorem Buf.append_ok {n : Nat} {b : Buf} (h : b.Ok n) (xs : List Bool) (hroom : b.needs xs.length ≤ n) :
    (b.append xs).Ok n := by
  have hfit := b.le_needs xs.length
  obtain ⟨h1, h2⟩ := h
  refine ⟨?_, ?_⟩
  · rw [Buf.len_append, Buf.ec_append]; omega
  · rw [Buf.ec_append]; omega

theorem Buf.grow_ok {n : Nat} {b : Buf} (h : b.Ok n) {m : Nat} (hm : m ≤ n) : (b.grow m).Ok n := by
  obtain ⟨h1, h2⟩ := h
  refine ⟨?_, ?_⟩
  · rw [Buf.len_grow, Buf.ec_grow]; omega
  · rw [Buf.ec_grow]; omega

theorem Buf.memWrite_ok {n : Nat} {b : Buf} (h : b.Ok n) (k : Nat) (v : Word) : (b.memWrite k v).Ok n := by
  simpa [Buf.Ok] using h

theorem Buf.put_ok {n : Nat} {b : Buf} (h : b.Ok n) (i : Nat) (x : Bool) : (b.put i x).Ok n :=
  Buf.memWrite_ok h _ _

end Sys2Proof.Machine
end

