-- ==== Sys2Proof/Laws/Code.lean ====
section
/-! SUPPORT. Path bits, code-table entries and the code table, said once. -/
namespace Sys2Proof.Machine

theorem pathBit_of_ge (p : Path) {j : Nat} (h : 256 ≤ j) : pathBit p j = false := by
  simp [pathBit, Nat.not_lt.mpr h]

@[simp] theorem pathBit_zero (j : Nat) : pathBit 0#256 j = false := by simp [pathBit]

theorem pathBit_pathPut (p : Path) {j : Nat} (hj : j < 256) (x : Bool) (k : Nat) :
    pathBit (pathPut p j x) k = if k = j then x else pathBit p k := by
  by_cases hk : k < 256
  · by_cases h : k = j
    · subst h; cases x <;> simp [pathBit, pathPut, hk]; omega
    · have h1 : ¬ 255 - k = 255 - j := by omega
      cases x <;> simp [pathBit, pathPut, hk, h] <;> omega
  · rw [pathBit_of_ge _ (by omega), if_neg (by omega), pathBit_of_ge _ (by omega)]

theorem pathBit_pathPutBits (p : Path) (j : Nat) (xs : List Bool) (h : j + xs.length ≤ 256) (k : Nat) :
    pathBit (pathPutBits p j xs) k =
      if j ≤ k ∧ k < j + xs.length then xs.getD (k - j) false else pathBit p k := by
  induction xs generalizing p j with
  | nil => simp [pathPutBits]; omega
  | cons x xs ih =>
    simp only [List.length_cons] at h ⊢
    rw [pathPutBits, ih _ _ (by omega), pathBit_pathPut p (by omega)]
    by_cases h1 : k = j
    · subst h1; simp
    · by_cases h2 : j + 1 ≤ k ∧ k < j + 1 + xs.length
      · rw [if_pos h2, if_pos (by omega)]
        obtain ⟨m, rfl⟩ : ∃ m, k = j + 1 + m := ⟨k - (j + 1), by omega⟩
        have e1 : j + 1 + m - j = m + 1 := by omega
        have e2 : j + 1 + m - (j + 1) = m := by omega
        rw [e1, e2, List.getD_cons_succ]
      · rw [if_neg h2, if_neg h1, if_neg (by omega)]

/-- Path bit k of the entry of a code: the code's bit, and 0 past its end. -/
theorem pathBit_ofCode (bits : List Bool) (h : bits.length ≤ maxPath) (k : Nat) :
    pathBit (Entry.ofCode bits).path k = bits.getD k false := by
  have h' : bits.length ≤ 255 := h
  simp only [Entry.ofCode]
  rw [pathBit_pathPutBits _ _ _ (by omega)]
  by_cases hk : k < bits.length
  · simp [hk]
  · rw [if_neg (by omega), pathBit_zero, List.getD_eq_default]; omega

@[simp] theorem Entry.valid_ofCode (bits : List Bool) : (Entry.ofCode bits).valid = true := rfl

theorem Entry.len_ofCode (bits : List Bool) (h : bits.length ≤ maxPath) :
    (Entry.ofCode bits).len.toNat = bits.length := by
  have h' : bits.length ≤ 255 := h
  simp only [Entry.ofCode, BitVec.toNat_ofNat]; omega

@[simp] theorem Entry.length_bits (e : Entry) : e.bits.length = e.len.toNat := by simp [Entry.bits]

theorem Entry.bits_ofCode (bits : List Bool) (h : bits.length ≤ maxPath) : (Entry.ofCode bits).bits = bits := by
  apply List.ext_getElem
  · rw [Entry.length_bits, Entry.len_ofCode bits h]
  · intro k h1 h2
    simp [Entry.bits, pathBit_ofCode bits h, List.getD_eq_getElem?_getD, h2]

theorem Entry.ofCode_ok (bits : List Bool) (h1 : bits ≠ []) (h : bits.length ≤ maxPath) :
    (Entry.ofCode bits).Ok := by
  unfold Entry.Ok
  rw [if_pos (Entry.valid_ofCode bits), Entry.len_ofCode bits h]
  refine ⟨List.length_pos_iff.mpr h1, fun j _ hj => ?_⟩
  rw [pathBit_ofCode bits h, List.getD_eq_default]
  exact hj

theorem Entry.invalid_ok : Entry.invalid.Ok := by simp [Entry.Ok, Entry.invalid]

@[simp] theorem ctGet_ctSet_self (ct : Vector Entry 256) (sym : Byte) (e : Entry) :
    ctGet (ctSet ct sym e) sym = e := by simp [ctGet, ctSet]

theorem ctGet_ctSet_ne (ct : Vector Entry 256) {sym y : Byte} (h : y ≠ sym) (e : Entry) :
    ctGet (ctSet ct sym e) y = ctGet ct y := by
  have : sym.toNat ≠ y.toNat := fun hn => h (BitVec.eq_of_toNat_eq hn.symm)
  simp [ctGet, ctSet, this]

@[simp] theorem ctGet_ctEmpty (sym : Byte) : ctGet ctEmpty sym = Entry.invalid := by
  simp [ctGet, ctEmpty]

theorem State.entry_eq (s : State) (sym : Byte) : s.entry sym = ctGet s.ct sym := rfl

/-- Two tables with the same entries are the same. -/
theorem ct_ext {t u : Vector Entry 256} (h : ∀ sym, ctGet t sym = ctGet u sym) : t = u := by
  apply Vector.ext
  intro k hk
  have := h (BitVec.ofNat 8 k)
  simpa [ctGet, Nat.mod_eq_of_lt hk] using this

end Sys2Proof.Machine
end

