-- ==== Sys2Proof/Laws/Encoding.lean ====
section
/-! SUPPORT. The fields of an encoded command, and what the opcode map answers. -/
namespace Sys2Proof

@[simp] theorem opcField_encode (i : Instr) : opcField (encode i) = i.opcode := by
  unfold opcField encode
  generalize i.src?.getD 0#4 = b
  generalize i.dst?.getD 0#4 = d
  ext k hk
  simp
  grind

@[simp] theorem dField_encode (i : Instr) : dField (encode i) = i.dst?.getD 0#4 := by
  unfold dField encode
  generalize i.src?.getD 0#4 = b
  generalize i.dst?.getD 0#4 = d
  ext k hk
  simp
  grind

@[simp] theorem sField_encode (i : Instr) : sField (encode i) = i.src?.getD 0#4 := by
  unfold sField encode
  generalize i.src?.getD 0#4 = b
  generalize i.dst?.getD 0#4 = d
  ext k hk
  simp
  grind

@[simp] theorem reservedField_encode (i : Instr) : reservedField (encode i) = 0#48 := by
  unfold reservedField encode
  generalize i.src?.getD 0#4 = b
  generalize i.dst?.getD 0#4 = d
  ext k hk
  simp
  grind

/-- A CMD value is its four fields. -/
theorem word_eq_fields (w : Word) :
    w = (opcField w).setWidth 64 ||| (dField w).setWidth 64 <<< 8 ||| (sField w).setWidth 64 <<< 12 |||
      (reservedField w).setWidth 64 <<< 16 := by
  unfold reservedField sField dField opcField
  ext k hk
  simp
  rcases (by omega : k < 8 ∨ (8 ≤ k ∧ k < 12) ∨ (12 ≤ k ∧ k < 16) ∨ 16 ≤ k) with h | h | h | h
  all_goals grind

theorem lookup_self (i : Instr) : lookup i.opcode (i.dst?.getD 0#4) (i.src?.getD 0#4) = some i := by
  cases i <;> rfl

/-- Everything the opcode map answers: a command with this OPC whose buffer fields are the word's. -/
theorem lookup_cases {o : Byte} {d b : BufIdx} {i : Instr} (h : lookup o d b = some i) :
    i.opcode = o ∧ (i.dst? = none ∨ i.dst? = some d) ∧ (i.src? = none ∨ i.src? = some b) := by
  have h1 := List.find?_some h
  have h2 := List.mem_of_find?_eq_some h
  refine ⟨by simpa using h1, ?_⟩
  simp only [commandsWith, List.mem_append, List.mem_cons, List.not_mem_nil, or_false] at h2
  rcases h2 with (h2 | h2) | h2 <;> (repeat' (rcases h2 with rfl | h2)) <;> try (subst h2)
  all_goals simp [Instr.dst?, Instr.src?]

/-- Commands with one OPC have one format. -/
theorem format_of_opcode {i j : Instr} (h : i.opcode = j.opcode) : i.format = j.format := by
  revert h
  cases i <;> cases j <;> simp [Instr.opcode, Instr.format, Instr.dst?, Instr.src?]

/-- Every OPC of a command is in the map. -/
theorem lookup_opcode (i : Instr) (d b : BufIdx) : ∃ j, lookup i.opcode d b = some j := by
  cases i <;> exact ⟨_, rfl⟩

theorem usesD_format (i : Instr) : i.format.usesD = i.dst?.isSome := by cases i <;> rfl

theorem usesS_format (i : Instr) : i.format.usesS = i.src?.isSome := by cases i <;> rfl

/-! The fields of a word as numbers. -/

theorem toNat_opcField (w : Word) : (opcField w).toNat = w.toNat % 256 := by simp [opcField]

theorem toNat_dField (w : Word) : (dField w).toNat = w.toNat / 2 ^ 8 % 16 := by
  simp [dField, Nat.shiftRight_eq_div_pow]

theorem toNat_sField (w : Word) : (sField w).toNat = w.toNat / 2 ^ 12 % 16 := by
  simp [sField, Nat.shiftRight_eq_div_pow]

theorem toNat_reservedField (w : Word) : (reservedField w).toNat = w.toNat / 2 ^ 16 := by
  have := w.isLt
  simp [reservedField, Nat.shiftRight_eq_div_pow]
  omega

end Sys2Proof
end

