-- ==== Sys2Proof/Laws/Ops.lean ====
section
/-! SUPPORT. One lemma per shared operation: everything it can answer. -/
namespace Sys2Proof.Machine

/-! Buffers of the state. -/

@[simp] theorem State.buf_setBuf_self (s : State) (b : BufIdx) (x : Buf) : (s.setBuf b x).buf b = x := by
  simp [State.buf]

theorem State.buf_setBuf_ne (s : State) {b c : BufIdx} (h : c ≠ b) (x : Buf) :
    (s.setBuf b x).buf c = s.buf c := by
  have : b.toNat ≠ c.toNat := fun hn => h (BitVec.eq_of_toNat_eq hn.symm)
  simp [State.buf, this]

theorem State.buf_congr {s t : State} (h : t.bufs = s.bufs) (b : BufIdx) : t.buf b = s.buf b := by
  simp [State.buf, h]

theorem State.setBuf_buf (s : State) (b : BufIdx) : s.setBuf b (s.buf b) = s := by
  have h : s.bufs.set b.toNat (s.buf b) b.isLt = s.bufs := by simp [State.buf]
  unfold State.setBuf
  rw [h]

/-! The error latch. -/

theorem State.raise_of_latched {s : State} (h : s.errCode ≠ .none) (c : ErrCode) (n : Nat) :
    s.raise c n = s := by simp [State.raise, h]

theorem State.raise_of_fits {s : State} (h : s.errCode = .none) (c : ErrCode) {n : Nat} (hn : n < 2 ^ 64) :
    s.raise c n = s.setErr c (BitVec.ofNat 64 n) := by
  unfold State.raise
  rw [if_pos h, if_pos hn]

/-- Everything `raise` can do: nothing when an error is latched, else the latch, and the draw counter when the detail
does not fit. -/
theorem State.raise_cases (s : State) (c : ErrCode) (n : Nat) :
    (s.errCode ≠ .none ∧ s.raise c n = s) ∨
    (s.errCode = .none ∧ n < 2 ^ 64 ∧ s.raise c n = s.setErr c (BitVec.ofNat 64 n)) ∨
    (s.errCode = .none ∧ 2 ^ 64 ≤ n ∧ s.raise c n = (s.setErr c (Config.freeInfo s.draws)).drawn) := by
  by_cases h : s.errCode = .none
  · by_cases hn : n < 2 ^ 64
    · exact .inr (.inl ⟨h, hn, State.raise_of_fits h c hn⟩)
    · refine .inr (.inr ⟨h, by omega, ?_⟩)
      unfold State.raise
      rw [if_pos h, if_neg hn]
  · exact .inl ⟨h, State.raise_of_latched h c n⟩

/-- What `raise` never touches. -/
theorem State.raise_frame (s : State) (c : ErrCode) (n : Nat) :
    ∃ e v k, s.raise c n = { s with errCode := e, errInfo := v, draws := k } := by
  rcases s.raise_cases c n with ⟨_, h⟩ | ⟨_, _, h⟩ | ⟨_, _, h⟩
  · exact ⟨s.errCode, s.errInfo, s.draws, by rw [h]⟩
  · exact ⟨c, BitVec.ofNat 64 n, s.draws, by rw [h]; rfl⟩
  · exact ⟨c, Config.freeInfo s.draws, s.draws + 1, by rw [h]; rfl⟩

/-! Shared command shapes. -/

theorem State.appendTo_cases {s t : State} {d : BufIdx} {xs : List Bool} (h : s.appendTo d xs = .next t) :
    (s.params.bufWords < (s.buf d).needs xs.length ∧
      t = s.raise .capacity ((s.buf d).needs xs.length)) ∨
    ((s.buf d).needs xs.length ≤ s.params.bufWords ∧ t = s.setBuf d ((s.buf d).append xs)) := by
  unfold State.appendTo State.fail at h
  split at h
  · next hm => exact .inl ⟨hm, by injection h with h; exact h.symm⟩
  · next hm => exact .inr ⟨by omega, by injection h with h; exact h.symm⟩

theorem State.appendTo_of_fits {s : State} {d : BufIdx} {xs : List Bool}
    (h : (s.buf d).needs xs.length ≤ s.params.bufWords) :
    s.appendTo d xs = .next (s.setBuf d ((s.buf d).append xs)) := by
  unfold State.appendTo
  rw [if_neg (by omega)]

theorem State.appendTo_of_full {s : State} {d : BufIdx} {xs : List Bool}
    (h : s.params.bufWords < (s.buf d).needs xs.length) :
    s.appendTo d xs = .next (s.raise .capacity ((s.buf d).needs xs.length)) := by
  unfold State.appendTo
  rw [if_pos h]
  rfl

theorem State.withSymbol_of_le {s : State} (h : s.a0 ≤ 255) (k : Byte → Out) :
    s.withSymbol k = k (BitVec.ofNat 8 s.a0) := by
  unfold State.withSymbol
  rw [if_neg (by omega)]

theorem State.withPath_of_fits {s : State} {b : BufIdx} (h1 : 1 ≤ (s.buf b).len) (h2 : (s.buf b).len ≤ maxPath)
    (k : List Bool → Out) : s.withPath b k = k (s.buf b).bits := by
  unfold State.withPath
  rw [if_neg (by omega)]

theorem State.withNode_of_lt {s : State} (h : s.a0 < s.nodeCount) (k : NodeIdx → Out) :
    s.withNode k = k (BitVec.ofNat 9 s.a0) := by
  unfold State.withNode
  rw [if_neg (by omega)]

theorem State.withSymbol_cases {s t : State} {k : Byte → Out} (h : s.withSymbol k = .next t) :
    (255 < s.a0 ∧ t = s.raise .badField 5) ∨ (s.a0 ≤ 255 ∧ k (BitVec.ofNat 8 s.a0) = .next t) := by
  unfold State.withSymbol State.fail at h
  split at h
  · next hm => exact .inl ⟨hm, by injection h with h; exact h.symm⟩
  · next hm => exact .inr ⟨by omega, h⟩

theorem State.withPath_cases {s t : State} {b : BufIdx} {k : List Bool → Out} (h : s.withPath b k = .next t) :
    (((s.buf b).len = 0 ∨ maxPath < (s.buf b).len) ∧ t = s.raise .badLength (s.buf b).len) ∨
    (1 ≤ (s.buf b).len ∧ (s.buf b).len ≤ maxPath ∧ k (s.buf b).bits = .next t) := by
  unfold State.withPath State.fail at h
  split at h
  · next hm => exact .inl ⟨hm, by injection h with h; exact h.symm⟩
  · next hm => exact .inr ⟨by omega, by omega, h⟩

theorem State.withNode_cases {s t : State} {k : NodeIdx → Out} (h : s.withNode k = .next t) :
    (s.nodeCount ≤ s.a0 ∧ t = s.raise .nodeIndex s.a0) ∨
    (s.a0 < s.nodeCount ∧ k (BitVec.ofNat 9 s.a0) = .next t) := by
  unfold State.withNode State.fail at h
  split at h
  · next hm => exact .inl ⟨hm, by injection h with h; exact h.symm⟩
  · next hm => exact .inr ⟨by omega, h⟩

/-! Operand bits. -/

@[simp] theorem length_lowBits (v : Word) (n : Nat) : (lowBits v n).length = n := by simp [lowBits]

theorem getD_lowBits (v : Word) {n j : Nat} (h : j < n) : (lowBits v n).getD j false = v.getLsbD (n - 1 - j) := by
  simp [lowBits, List.getD_eq_getElem?_getD, h]

@[simp] theorem length_symbolBits (sym : Byte) : (symbolBits sym).length = 8 := by simp [symbolBits]

/-! Nodes. -/

theorem nodeAt_of_lt {nodes : List Node} {n : NodeIdx} (h : n.toNat < nodes.length) :
    nodeAt nodes n = nodes[n.toNat] := by
  simp [nodeAt, List.getD_eq_getElem?_getD, h]

theorem nodeAt_of_ge {nodes : List Node} {n : NodeIdx} (h : nodes.length ≤ n.toNat) :
    nodeAt nodes n = Node.empty := by
  simp [nodeAt, h]

@[simp] theorem length_growNodes (nodes : List Node) (k : Nat) :
    (growNodes nodes k).length = max nodes.length (k + 1) := by
  simp [growNodes]; omega

theorem length_tinsCreate (sym : Byte) (nodes : List Node) (n : NodeIdx) (xs : List Bool) :
    (tinsCreate sym nodes n xs).length = nodes.length + xs.length := by
  induction xs generalizing nodes n with
  | nil => simp [tinsCreate]
  | cons x xs ih => simp only [tinsCreate, ih, List.length_set, List.length_append, List.length_cons,
      List.length_nil]; omega

/-! The memories stay in their canonical form (Memory.wf) under each way a command changes them. -/

theorem Memory.wf_setBuf {s : State} (h : Memory.wf s) {b : BufIdx} {x : Buf}
    (hb : b.toNat < s.params.nbuf) (hx : x.Ok s.params.bufWords) : Memory.wf (s.setBuf b x) := by
  obtain ⟨h1, h2, h3, h4⟩ := h
  refine ⟨fun c => ?_, fun c hc => ?_, h3, h4⟩
  · have := h1 c
    simp only [State.setBuf_bufs, State.setBuf_params, Fin.getElem_fin, Vector.getElem_set] at this ⊢
    split
    · exact hx
    · exact this
  · have := h2 c hc
    have hne : b.toNat ≠ c.val := by simp only [State.setBuf_params] at hc; omega
    simpa [Vector.getElem_set, hne] using this

theorem Memory.buf_ok {s : State} (h : Memory.wf s) (b : BufIdx) : (s.buf b).Ok s.params.bufWords :=
  h.1 ⟨b.toNat, b.isLt⟩

theorem Memory.entry_ok {s : State} (h : Memory.wf s) (sym : Byte) : (s.entry sym).Ok :=
  h.2.2.1 ⟨sym.toNat, sym.isLt⟩

theorem Memory.wf_setCt {s : State} (h : Memory.wf s) {t : Vector Entry 256} (ht : ∀ sym, (ctGet t sym).Ok) :
    Memory.wf (s.setCt t) := by
  obtain ⟨h1, h2, _, h4⟩ := h
  refine ⟨h1, h2, fun k => ?_, h4⟩
  have := ht (BitVec.ofNat 8 k.val)
  simpa [ctGet, Nat.mod_eq_of_lt k.isLt] using this

theorem Memory.wf_setNodes {s : State} (h : Memory.wf s) {ns : List Node} (hn : ns.length ≤ nodeCap) :
    Memory.wf (s.setNodes ns) :=
  ⟨h.1, h.2.1, h.2.2.1, hn⟩

/-- The form depends on the memories and the parameters alone. -/
theorem Memory.wf_congr {s t : State} (h : Memory.wf s) (hp : t.params = s.params) (hb : t.bufs = s.bufs)
    (hc : t.ct = s.ct) (hn : t.nodes = s.nodes) : Memory.wf t := by
  unfold Memory.wf at h ⊢
  rw [hp, hb, hc, hn]
  exact h

theorem Memory.wf_raise {s : State} (h : Memory.wf s) (c : ErrCode) (n : Nat) : Memory.wf (s.raise c n) := by
  obtain ⟨e, v, k, he⟩ := s.raise_frame c n
  rw [he]
  exact Memory.wf_congr h rfl rfl rfl rfl

theorem ctEmpty_ok (sym : Byte) : (ctGet ctEmpty sym).Ok := by
  rw [ctGet_ctEmpty]; exact Entry.invalid_ok

theorem ctSet_ok {t : Vector Entry 256} (ht : ∀ sym, (ctGet t sym).Ok) {e : Entry} (he : e.Ok) (y sym : Byte) :
    (ctGet (ctSet t y e) sym).Ok := by
  by_cases h : sym = y
  · subst h; rw [ctGet_ctSet_self]; exact he
  · rw [ctGet_ctSet_ne t h]; exact ht sym

end Sys2Proof.Machine
end

