-- ==== Sys2Proof/Laws/Shift.lean ====
section
/-! SUPPORT. The shifts, the element-wise operations and the two equalities, said once. -/
namespace Sys2Proof.Machine

theorem Buf.memRead_mapRange (es : List Word) (f : Nat → Word) (len k : Nat) :
    ({ elems := (List.range es.length).map f, len := len } : Buf).memRead k =
      if k < es.length then f k else 0#64 := by
  rw [Buf.memRead_eq, List.getD_eq_getElem?_getD]
  by_cases h : k < es.length <;> simp [h]

@[simp] theorem Buf.ec_shl (b : Buf) (n : Nat) : (b.shl n).ec = b.ec := by simp [Buf.ec, Buf.shl]
@[simp] theorem Buf.len_shl (b : Buf) (n : Nat) : (b.shl n).len = b.len := rfl
@[simp] theorem Buf.ec_shr (b : Buf) (n : Nat) : (b.shr n).ec = b.ec := by simp [Buf.ec, Buf.shr]
@[simp] theorem Buf.len_shr (b : Buf) (n : Nat) : (b.shr n).len = b.len := rfl

theorem shlElem_eq (b : Buf) (n k : Nat) :
    shlElem b.elems n k = (b.memRead (k + n / 64) <<< (n % 64)) |||
      (if n % 64 = 0 then 0#64 else b.memRead (k + n / 64 + 1) >>> (64 - n % 64)) := by
  unfold shlElem
  simp only [Buf.memRead, Buf.ec]
  congr 1
  · by_cases h : k + n / 64 < b.elems.length <;> simp [h]
  · by_cases h : n % 64 = 0
    · simp [h]
    · by_cases h' : k + n / 64 + 1 < b.elems.length <;> simp [h, h']

theorem shrElem_eq (b : Buf) (n k : Nat) :
    shrElem b.elems n k =
      (if n % 64 ≠ 0 ∧ n / 64 + 1 ≤ k then b.elems.getD (k - n / 64 - 1) 0#64 <<< (64 - n % 64) else 0#64) |||
      ((if n / 64 ≤ k then b.elems.getD (k - n / 64) 0#64 else 0#64) >>> (n % 64)) := by
  unfold shrElem
  by_cases h : n / 64 ≤ k <;> simp [h]

/-- BSHL moves stream position i + n to i (R150). -/
theorem Buf.bit_shl (b : Buf) (n : Nat) {i : Nat} (h : i < 64 * b.ec) : (b.shl n).bit i = b.bit (i + n) := by
  have hk : i / 64 < b.elems.length := by simp only [Buf.ec] at h; omega
  rw [Buf.bit_eq, Buf.shl, Buf.memRead_mapRange, if_pos hk, shlElem_eq, Buf.bit_eq b]
  by_cases hc : i % 64 + n % 64 < 64
  · have e1 : (i + n) / 64 = i / 64 + n / 64 := by omega
    have e2 : 63 - i % 64 - n % 64 = 63 - (i + n) % 64 := by omega
    have e3 : ¬ 63 - i % 64 < n % 64 := by omega
    rw [BitVec.getLsbD_or, BitVec.getLsbD_shiftLeft, e1, e2]
    split
    · simp [e3, show 63 - i % 64 < 64 by omega]
    · rw [BitVec.getLsbD_ushiftRight, BitVec.getLsbD_of_ge _ (64 - n % 64 + (63 - i % 64)) (by omega)]
      simp [e3, show 63 - i % 64 < 64 by omega]
  · have e1 : (i + n) / 64 = i / 64 + n / 64 + 1 := by omega
    have e2 : 64 - n % 64 + (63 - i % 64) = 63 - (i + n) % 64 := by omega
    have e3 : 63 - i % 64 < n % 64 := by omega
    rw [BitVec.getLsbD_or, BitVec.getLsbD_shiftLeft, if_neg (by omega), e1, BitVec.getLsbD_ushiftRight, e2]
    simp [e3]

/-- BSHR moves stream position i - n to i (R151). -/
theorem Buf.bit_shr (b : Buf) (n : Nat) {i : Nat} (h : i < 64 * b.ec) :
    (b.shr n).bit i = if n ≤ i then b.bit (i - n) else false := by
  have hk : i / 64 < b.elems.length := by simp only [Buf.ec] at h; omega
  rw [Buf.bit_eq, Buf.shr, Buf.memRead_mapRange, if_pos hk, shrElem_eq]
  by_cases hc : n % 64 ≤ i % 64
  · have e2 : n % 64 + (63 - i % 64) = 63 - (i - n) % 64 ∨ i < n := by omega
    have hi : (if n % 64 ≠ 0 ∧ n / 64 + 1 ≤ i / 64 then b.elems.getD (i / 64 - n / 64 - 1) 0#64 <<< (64 - n % 64)
        else 0#64).getLsbD (63 - i % 64) = false := by
      split
      · rw [BitVec.getLsbD_shiftLeft]; simp [show 63 - i % 64 < 64 - n % 64 by omega]
      · simp
    rw [BitVec.getLsbD_or, hi, Bool.false_or, BitVec.getLsbD_ushiftRight]
    by_cases hn : n ≤ i
    · rw [if_pos hn, if_pos (by omega), Buf.bit_eq, Buf.memRead_eq, e2.resolve_right (by omega),
        show (i - n) / 64 = i / 64 - n / 64 by omega]
    · rw [if_neg hn, if_neg (by omega)]; simp
  · have hlo : ((if n / 64 ≤ i / 64 then b.elems.getD (i / 64 - n / 64) 0#64 else 0#64) >>> (n % 64)).getLsbD
        (63 - i % 64) = false := by
      rw [BitVec.getLsbD_ushiftRight, BitVec.getLsbD_of_ge _ _ (by omega)]
    rw [BitVec.getLsbD_or, hlo, Bool.or_false]
    by_cases hn : n ≤ i
    · rw [if_pos hn, if_pos (by omega), Buf.bit_eq, Buf.memRead_eq, BitVec.getLsbD_shiftLeft,
        show (i - n) / 64 = i / 64 - n / 64 - 1 by omega,
        show 63 - i % 64 - (64 - n % 64) = 63 - (i - n) % 64 by omega]
      simp [show ¬ 63 - i % 64 < 64 - n % 64 by omega, show 63 - i % 64 < 64 by omega]
    · rw [if_neg hn, if_neg (by omega)]; simp

/-! BAND and BOR. -/

theorem length_zipPrefix (f : Word → Word → Word) (xs ys : List Word) : (zipPrefix f xs ys).length = xs.length := by
  induction xs generalizing ys with
  | nil => cases ys <;> rfl
  | cons x xs ih => cases ys <;> simp [zipPrefix, ih]

theorem getD_zipPrefix (f : Word → Word → Word) (xs ys : List Word) (k : Nat) :
    (zipPrefix f xs ys).getD k 0#64 =
      if k < min xs.length ys.length then f (xs.getD k 0#64) (ys.getD k 0#64) else xs.getD k 0#64 := by
  induction xs generalizing ys k with
  | nil => cases ys <;> simp [zipPrefix]
  | cons x xs ih =>
    cases ys with
    | nil => simp [zipPrefix]
    | cons y ys =>
      cases k with
      | zero => simp [zipPrefix]
      | succ k => simp only [zipPrefix, List.getD_cons_succ, ih, List.length_cons, Nat.succ_min_succ,
          Nat.succ_lt_succ_iff]

@[simp] theorem Buf.ec_combine (f : Word → Word → Word) (x y : Buf) : (Buf.combine f x y).ec = x.ec :=
  length_zipPrefix f x.elems y.elems

@[simp] theorem Buf.len_combine (f : Word → Word → Word) (x y : Buf) : (Buf.combine f x y).len = x.len := rfl

theorem Buf.memRead_combine (f : Word → Word → Word) (x y : Buf) (k : Nat) :
    (Buf.combine f x y).memRead k =
      if k < min x.ec y.ec then f (x.memRead k) (y.memRead k) else x.memRead k := by
  simp only [Buf.memRead_eq]
  exact getD_zipPrefix f x.elems y.elems k

end Sys2Proof.Machine
end

