-- ==== Sys2Proof/Laws/Exec.lean ====
section
/-! SUPPORT. One lemma per meaning that can end in an error: everything it can answer. The other meanings are one
equation, true by definition. -/
namespace Sys2Proof.Machine

theorem next_inj {s t : State} (h : (Host.Outcome.next s : Out) = .next t) : t = s := by
  injection h with h
  exact h.symm

theorem execBapp_cases {d : BufIdx} {s t : State} (h : execBapp d s = .next t) :
    (64 < s.a1 ∧ t = s.raise .badLength s.a1) ∨ (s.a1 ≤ 64 ∧ s.appendTo d (lowBits s.la0 s.a1) = .next t) := by
  unfold execBapp at h
  split at h
  · next hn => exact .inl ⟨hn, next_inj h⟩
  · next hn => exact .inr ⟨by omega, h⟩

theorem execBsetlen_cases {d : BufIdx} {s t : State} (h : execBsetlen d s = .next t) :
    (s.params.bufWords < ceil64 s.a0 ∧ t = s.raise .capacity (ceil64 s.a0)) ∨
    (ceil64 s.a0 ≤ s.params.bufWords ∧
      t = s.setBuf d { (s.buf d).grow (ceil64 s.a0) with len := s.a0 }) := by
  unfold execBsetlen at h
  split at h
  · next hn => exact .inl ⟨hn, next_inj h⟩
  · next hn => exact .inr ⟨by omega, next_inj h⟩

theorem execBwrw_cases {d : BufIdx} {s t : State} (h : execBwrw d s = .next t) :
    (s.params.bufWords ≤ s.a0 ∧ t = s.raise .capacity (s.a0 + 1)) ∨
    (s.a0 < s.params.bufWords ∧ t = s.setBuf d (((s.buf d).grow (s.a0 + 1)).memWrite s.a0 s.la1)) := by
  unfold execBwrw at h
  split at h
  · next hn => exact .inl ⟨hn, next_inj h⟩
  · next hn => exact .inr ⟨by omega, next_inj h⟩

theorem State.putAt_cases {d : BufIdx} {x : Bool} {s t : State} (h : s.putAt d x = .next t) :
    (s.params.bufWords < s.a0 / 64 + 1 ∧ t = s.raise .capacity (s.a0 / 64 + 1)) ∨
    (s.a0 / 64 + 1 ≤ s.params.bufWords ∧
      t = s.setBuf d (((s.buf d).grow (s.a0 / 64 + 1)).put s.a0 x)) := by
  unfold State.putAt at h
  split at h
  · next hn => exact .inl ⟨hn, next_inj h⟩
  · next hn => exact .inr ⟨by omega, next_inj h⟩

theorem execBenc_cases {d : BufIdx} {s t : State} (h : execBenc d s = .next t) :
    (255 < s.a0 ∧ t = s.raise .badField 5) ∨
    (s.a0 ≤ 255 ∧ (s.entry (BitVec.ofNat 8 s.a0)).valid = false ∧ t = s.raise .noCode s.a0) ∨
    (s.a0 ≤ 255 ∧ (s.entry (BitVec.ofNat 8 s.a0)).valid = true ∧
      s.appendTo d (s.entry (BitVec.ofNat 8 s.a0)).bits = .next t) := by
  rcases State.withSymbol_cases h with ⟨h1, h2⟩ | ⟨h1, h2⟩
  · exact .inl ⟨h1, h2⟩
  · split at h2
    · next hv => exact .inr (.inr ⟨h1, hv, h2⟩)
    · next hv =>
      have e : (BitVec.ofNat 8 s.a0).toNat = s.a0 := by simp; omega
      rw [e] at h2
      exact .inr (.inl ⟨h1, by simpa using hv, next_inj h2⟩)

theorem execCtwr_cases {b : BufIdx} {s t : State} (h : execCtwr b s = .next t) :
    (255 < s.a0 ∧ t = s.raise .badField 5) ∨
    (s.a0 ≤ 255 ∧ ((s.buf b).len = 0 ∨ maxPath < (s.buf b).len) ∧ t = s.raise .badLength (s.buf b).len) ∨
    (s.a0 ≤ 255 ∧ 1 ≤ (s.buf b).len ∧ (s.buf b).len ≤ maxPath ∧
      t = s.setCt (ctSet s.ct (BitVec.ofNat 8 s.a0) (Entry.ofCode (s.buf b).bits))) := by
  rcases State.withSymbol_cases h with ⟨h1, h2⟩ | ⟨h1, h2⟩
  · exact .inl ⟨h1, h2⟩
  · rcases State.withPath_cases h2 with ⟨h3, h4⟩ | ⟨h3, h4, h5⟩
    · exact .inr (.inl ⟨h1, h3, h4⟩)
    · exact .inr (.inr ⟨h1, h3, h4, next_inj h5⟩)

theorem execCtrd_cases {d : BufIdx} {s t : State} (h : execCtrd d s = .next t) :
    (255 < s.a0 ∧ t = s.raise .badField 5) ∨
    (s.a0 ≤ 255 ∧ (s.entry (BitVec.ofNat 8 s.a0)).valid = false ∧ t = (s.setBuf d Buf.empty).setResult 0#64) ∨
    (s.a0 ≤ 255 ∧ (s.entry (BitVec.ofNat 8 s.a0)).valid = true ∧
      t = (s.setBuf d (Buf.empty.append (s.entry (BitVec.ofNat 8 s.a0)).bits)).setResult
        ((s.entry (BitVec.ofNat 8 s.a0)).len.setWidth 64)) := by
  rcases State.withSymbol_cases h with ⟨h1, h2⟩ | ⟨h1, h2⟩
  · exact .inl ⟨h1, h2⟩
  · split at h2
    · next hv => exact .inr (.inr ⟨h1, hv, next_inj h2⟩)
    · next hv => exact .inr (.inl ⟨h1, by simpa using hv, next_inj h2⟩)

theorem execWalk_cases {s t : State} (h : execWalk s = .next t) :
    (s.root = NodeIdx.null ∧ t = (s.setCt ctEmpty).raise .nodeIndex 0x1FF) ∨
    (∃ w, s.root ≠ NodeIdx.null ∧ walkTree s.nodes s.root = .ok w ∧ t = s.setCt w.ct) ∨
    (∃ e, s.root ≠ NodeIdx.null ∧ walkTree s.nodes s.root = .error e ∧ t = (s.setCt e.ct).raise e.code e.info) := by
  unfold execWalk at h
  split at h
  · next hr => exact .inl ⟨hr, next_inj h⟩
  · next hr =>
    split at h
    · next w hw => exact .inr (.inl ⟨w, hr, hw, next_inj h⟩)
    · next e he => exact .inr (.inr ⟨e, hr, he, next_inj h⟩)

theorem execTins_cases {b : BufIdx} {s t : State} (h : execTins b s = .next t) :
    (255 < s.a0 ∧ t = s.raise .badField 5) ∨
    (s.a0 ≤ 255 ∧ ((s.buf b).len = 0 ∨ maxPath < (s.buf b).len) ∧ t = s.raise .badLength (s.buf b).len) ∨
    (s.a0 ≤ 255 ∧ 1 ≤ (s.buf b).len ∧ (s.buf b).len ≤ maxPath ∧
      ((s.root = NodeIdx.null ∧ t = s.raise .nodeIndex 0x1FF) ∨
      (s.root ≠ NodeIdx.null ∧ (s.node s.root).kind = .data ∧ t = s.raise .recordConflict 0) ∨
      (∃ c n, s.root ≠ NodeIdx.null ∧ (s.node s.root).kind = .internal ∧
        tinsFollow s.nodes s.root 0 (s.buf b).bits = .error (c, n) ∧ t = s.raise c n) ∨
      (∃ n xs, s.root ≠ NodeIdx.null ∧ (s.node s.root).kind = .internal ∧
        tinsFollow s.nodes s.root 0 (s.buf b).bits = .ok (n, xs) ∧ nodeCap < s.nodeCount + xs.length ∧
        t = s.raise .capacity (s.nodeCount + xs.length)) ∨
      (∃ n xs, s.root ≠ NodeIdx.null ∧ (s.node s.root).kind = .internal ∧
        tinsFollow s.nodes s.root 0 (s.buf b).bits = .ok (n, xs) ∧ s.nodeCount + xs.length ≤ nodeCap ∧
        t = s.setNodes (tinsCreate (BitVec.ofNat 8 s.a0) s.nodes n xs)))) := by
  rcases State.withSymbol_cases h with ⟨h1, h2⟩ | ⟨h1, h2⟩
  · exact .inl ⟨h1, h2⟩
  rcases State.withPath_cases h2 with ⟨h3, h4⟩ | ⟨h3, h4, h5⟩
  · exact .inr (.inl ⟨h1, h3, h4⟩)
  refine .inr (.inr ⟨h1, h3, h4, ?_⟩)
  split at h5
  · next hr => exact .inl ⟨hr, next_inj h5⟩
  next hr =>
  split at h5
  · next hd => exact .inr (.inl ⟨hr, hd, next_inj h5⟩)
  next hd =>
  have hi : (s.node s.root).kind = .internal := by
    cases hk : (s.node s.root).kind with
    | internal => rfl
    | data => exact absurd hk hd
  split at h5
  · next c n hf => exact .inr (.inr (.inl ⟨c, n, hr, hi, hf, next_inj h5⟩))
  next n xs hf =>
  split at h5
  · next hc => exact .inr (.inr (.inr (.inl ⟨n, xs, hr, hi, hf, hc, next_inj h5⟩)))
  · next hc => exact .inr (.inr (.inr (.inr ⟨n, xs, hr, hi, hf, by omega, next_inj h5⟩)))

theorem execNwr_cases {s t : State} (h : execNwr s = .next t) :
    (packedReservedZero s.la1 = false ∧ t = s.raise .badField 6) ∨
    (packedReservedZero s.la1 = true ∧ nodeCap ≤ s.a0 ∧ t = s.raise .capacity (s.a0 + 1)) ∨
    (packedReservedZero s.la1 = true ∧ s.a0 < nodeCap ∧
      t = s.setNodes ((growNodes s.nodes s.a0).set s.a0 (Node.unpack s.la1))) := by
  unfold execNwr at h
  split at h
  · next hp => exact .inl ⟨by simpa using hp, next_inj h⟩
  next hp =>
  split at h
  · next hc => exact .inr (.inl ⟨by simpa using hp, hc, next_inj h⟩)
  · next hc => exact .inr (.inr ⟨by simpa using hp, by omega, next_inj h⟩)

theorem execDec_cases {d b : BufIdx} {s t : State} (h : execDec d b s = .next t) :
    (d = b ∧ t = s.raise .badField 7) ∨
    (d ≠ b ∧ s.root = NodeIdx.null ∧ t = s.raise .nodeIndex 0x1FF) ∨
    (d ≠ b ∧ s.root ≠ NodeIdx.null ∧ ∃ k e,
      decLoop s.params.bufWords s.nodes s.root 0 (s.buf b).bits ⟨s.buf d, 0, s.root, 0⟩ = (k, e) ∧
      ((∃ c n, e = some (c, n) ∧ t = (s.decoded d k).raise c n) ∨
      (e = none ∧ k.start ≠ (s.buf b).len ∧ t = (s.decoded d k).raise .decodeTrailing k.start) ∨
      (e = none ∧ k.start = (s.buf b).len ∧ t = s.decoded d k))) := by
  unfold execDec at h
  split at h
  · next hd => exact .inl ⟨hd, next_inj h⟩
  next hd =>
  split at h
  · next hr => exact .inr (.inl ⟨hd, hr, next_inj h⟩)
  next hr =>
  refine .inr (.inr ⟨hd, hr, ?_⟩)
  split at h
  · next k c n hk => exact ⟨k, some (c, n), hk, .inl ⟨c, n, rfl, next_inj h⟩⟩
  next k hk =>
  refine ⟨k, none, hk, .inr ?_⟩
  split at h
  · next hc => exact .inl ⟨rfl, hc, next_inj h⟩
  · next hc => exact .inr ⟨rfl, by omega, next_inj h⟩

theorem execNrd_cases {s t : State} (h : execNrd s = .next t) :
    (s.nodeCount ≤ s.a0 ∧ t = s.raise .nodeIndex s.a0) ∨
    (s.a0 < s.nodeCount ∧ t = s.setResult (s.node (BitVec.ofNat 9 s.a0)).pack) := by
  rcases State.withNode_cases h with ⟨h1, h2⟩ | ⟨h1, h2⟩
  · exact .inl ⟨h1, h2⟩
  · exact .inr ⟨h1, next_inj h2⟩

theorem execTroot_cases {s t : State} (h : execTroot s = .next t) :
    (s.nodeCount ≤ s.a0 ∧ t = s.raise .nodeIndex s.a0) ∨
    (s.a0 < s.nodeCount ∧ t = s.setRoot (BitVec.ofNat 9 s.a0)) := by
  rcases State.withNode_cases h with ⟨h1, h2⟩ | ⟨h1, h2⟩
  · exact .inl ⟨h1, h2⟩
  · exact .inr ⟨h1, next_inj h2⟩

/-- What no command ever writes, as a relation between the states around it. -/
abbrev SameHostSide (s t : State) : Prop :=
  t.params = s.params ∧ t.arg0 = s.arg0 ∧ t.arg1 = s.arg1 ∧ t.busy = s.busy ∧ t.lcmd = s.lcmd ∧
  t.la0 = s.la0 ∧ t.la1 = s.la1 ∧ t.lblk = s.lblk ∧ t.agenda = s.agenda ∧ t.rdata = s.rdata

theorem sameHostSide_raise {s u t : State} {c : ErrCode} {n : Nat} (hu : SameHostSide s u) (h : t = u.raise c n) :
    SameHostSide s t := by
  obtain ⟨e, v, k, he⟩ := u.raise_frame c n
  rw [he] at h
  subst h
  exact hu

theorem sameHostSide_appendTo {s t : State} {d : BufIdx} {xs : List Bool} (h : s.appendTo d xs = .next t) :
    SameHostSide s t := by
  rcases State.appendTo_cases h with ⟨_, h⟩ | ⟨_, h⟩
  · exact sameHostSide_raise ⟨rfl, rfl, rfl, rfl, rfl, rfl, rfl, rfl, rfl, rfl⟩ h
  · subst h; exact ⟨rfl, rfl, rfl, rfl, rfl, rfl, rfl, rfl, rfl, rfl⟩

end Sys2Proof.Machine
end

