-- ==== Sys2Proof/Laws/PerInstr.lean ====
section
/-! SUPPORT. Said of each command: its encoding matches its format's mask and its OPC, and has no bit above CMD[31:0]
(30_encoding.md R80, R82). -/
namespace Sys2Proof.Laws.Matches

def Statement (i : Instr) : Prop :=
  (encode i).extractLsb' 32 32 = 0#32 ∧
    (encode i).setWidth 32 &&& i.format.mask = i.opcode.setWidth 32

theorem nop : Statement .nop := by unfold Statement; decide
theorem bclr (d : BufIdx) : Statement (.bclr d) := by unfold Statement; revert d; decide +kernel
theorem bsetlen (d : BufIdx) : Statement (.bsetlen d) := by unfold Statement; revert d; decide +kernel
theorem bwrw (d : BufIdx) : Statement (.bwrw d) := by unfold Statement; revert d; decide +kernel
theorem brdw (s : BufIdx) : Statement (.brdw s) := by unfold Statement; revert s; decide +kernel
theorem bget (s : BufIdx) : Statement (.bget s) := by unfold Statement; revert s; decide +kernel
theorem bset (d : BufIdx) : Statement (.bset d) := by unfold Statement; revert d; decide +kernel
theorem bunset (d : BufIdx) : Statement (.bunset d) := by unfold Statement; revert d; decide +kernel
theorem bapp (d : BufIdx) : Statement (.bapp d) := by unfold Statement; revert d; decide +kernel
theorem bappb (d s : BufIdx) : Statement (.bappb d s) := by unfold Statement; revert d s; decide +kernel
theorem benc (d : BufIdx) : Statement (.benc d) := by unfold Statement; revert d; decide +kernel
theorem bshl (d : BufIdx) : Statement (.bshl d) := by unfold Statement; revert d; decide +kernel
theorem bshr (d : BufIdx) : Statement (.bshr d) := by unfold Statement; revert d; decide +kernel
theorem band (d s : BufIdx) : Statement (.band d s) := by unfold Statement; revert d s; decide +kernel
theorem bor (d s : BufIdx) : Statement (.bor d s) := by unfold Statement; revert d s; decide +kernel
theorem beqp (d s : BufIdx) : Statement (.beqp d s) := by unfold Statement; revert d s; decide +kernel
theorem beq (d s : BufIdx) : Statement (.beq d s) := by unfold Statement; revert d s; decide +kernel
theorem ctclr : Statement .ctclr := by unfold Statement; decide
theorem ctwr (s : BufIdx) : Statement (.ctwr s) := by unfold Statement; revert s; decide +kernel
theorem ctrd (d : BufIdx) : Statement (.ctrd d) := by unfold Statement; revert d; decide +kernel
theorem walk : Statement .walk := by unfold Statement; decide
theorem tclr : Statement .tclr := by unfold Statement; decide
theorem trst : Statement .trst := by unfold Statement; decide
theorem tins (s : BufIdx) : Statement (.tins s) := by unfold Statement; revert s; decide +kernel
theorem nwr : Statement .nwr := by unfold Statement; decide
theorem nrd : Statement .nrd := by unfold Statement; decide
theorem troot : Statement .troot := by unfold Statement; decide
theorem dec (d s : BufIdx) : Statement (.dec d s) := by unfold Statement; revert d s; decide +kernel
theorem clrerr : Statement .clrerr := by unfold Statement; decide

end Sys2Proof.Laws.Matches
end

