-- ==== Sys2Proof/Laws/Step.lean ====
section
/-! SUPPORT. What the moves of the engine and of the host do, said once: the engine's turn, a host read of an idle block,
what BUSY reads as, when a run is over, and what CHECK asks. -/
namespace Sys2Proof.Machine

/-- The engine's turn: the latched word is performed and BUSY falls (10_state.md R27, 30_encoding.md R89). -/
theorem step_engine {s : State} {ms : List Move} (hb : s.busy = true)
    (ha : s.agenda = .engine :: ms ∨ (s.agenda = [] ∧ ms = [])) :
    step s = finish (perform (s.setAgenda ms)) := by
  rcases ha with ha | ⟨ha, rfl⟩
  · simp [step, agentStep, ha, engineStep, hb]
  · have : s.setAgenda [] = s := by rw [State.setAgenda, ← ha]
    simp [step, agentStep, ha, engineStep, hb, this]

/-- The engine performs a word that is not blocked and decodes to a command (30_encoding.md R89). -/
theorem perform_of_ok {s : State} {i : Instr} (hb : s.lblk = false) (hd : decode s.params.nbuf s.lcmd = .ok i) :
    perform s = exec i s := by
  simp [perform, hb, hd]

/-- The engine performs a word that is not blocked and is no command (30_encoding.md R89). -/
theorem perform_of_error {s : State} {e : DecodeError} (hb : s.lblk = false)
    (hd : decode s.params.nbuf s.lcmd = .error e) :
    perform s = s.fail (errCodeOf e) (errInfoOf s.lcmd e) := by
  simp [perform, hb, hd]

/-- BUSY is never among the bits that read as any value (10_state.md R27). -/
theorem State.openBits_busy (s : State) : (s.openBits .status).getLsbD 0 = false := by
  unfold State.openBits
  split
  · simp
  · split
    · simp only [State.badWordMask]
      split <;> simp
    · simp only [State.writeMask]
      split <;> split <;> simp

theorem State.getLsbD_status_zero (s : State) : s.status.getLsbD 0 = s.busy := by
  simp only [State.status, BitVec.getLsbD_setWidth, BitVec.getLsbD_append]
  simp [BitVec.getElem_ofBool]

/-- A read of STATUS returns BUSY (10_state.md R23, R27). -/
@[simp] theorem State.readReg_status_busy (s : State) : (s.readReg .status).getLsbD 0 = s.busy := by
  simp only [State.readReg, BitVec.getLsbD_or, BitVec.getLsbD_and, BitVec.getLsbD_not, s.openBits_busy]
  simp only [State.regValue, s.getLsbD_status_zero]
  simp

/-- A run is over when no CMD write is to come and a read of STATUS returns BUSY = 0 (R312). -/
theorem State.runOver_iff (s : State) :
    s.RunOver ↔ s.agenda.any Move.isCommand = false ∧ (s.readReg .status).getLsbD 0 = false := by
  simp only [State.RunOver, State.readReg_status_busy]

/-- A host read of a register of an idle block returns its value and changes nothing of the block (10_state.md R22,
R70). -/
theorem step_read_idle {s : State} {ms : List Move} {off : Nat} {r : Reg} (ha : s.agenda = .read off 8 :: ms)
    (h8 : off % 8 = 0) (hb : s.busy = false) (hr : regAt s.params.nbuf off = some r) :
    step s = .next ((s.setAgenda ms).setRdata (s.regValue r)) := by
  have ho : (s.setAgenda ms).openBits r = 0#64 := by simp [State.openBits, hb]
  have hr' : regAt (s.setAgenda ms).params.nbuf off = some r := hr
  simp only [step, agentStep, ha, wholeAccess, h8, State.hostRead, hr', ho]
  rfl

/-- A CHECK of an idle block fails the program exactly when an error is latched (30_encoding.md R91). -/
theorem programFails_check (s : State) (h : s.busy = false) :
    programFails [.pseudo .check] s = (s.errCode != .none) := by
  have hs := step_read_idle (s := s.setAgenda [.read 0x28 8]) rfl rfl h (r := .errCode) rfl
  simp only [programFails, ProgramLine.moves, program, Pseudo.lines, List.flatMap_cons, List.flatMap_nil, Line.moves,
    Reg.offset, List.append_nil, List.length_singleton, steps, hs]
  cases hc : s.errCode <;> simp [ProgramLine.failsAt, Pseudo.failsAt, State.regValue, ErrCode.toByte, hc]

end Sys2Proof.Machine
end

