-- ==== Sys2Proof/Laws/Tree.lean ====
section
/-! SUPPORT. What the walks over node memory do, said once: the creation of a path, and that WALK and DEC keep the
bounds of the memories they write. -/
namespace Sys2Proof.Machine

theorem nodeAt_set_self {nodes : List Node} {n : NodeIdx} {x : Node} (h : n.toNat < nodes.length) :
    nodeAt (nodes.set n.toNat x) n = x := by
  simp [nodeAt, h]

theorem nodeAt_set_ne {nodes : List Node} {n k : NodeIdx} {x : Node} (h : k ≠ n) :
    nodeAt (nodes.set n.toNat x) k = nodeAt nodes k := by
  have : n.toNat ≠ k.toNat := fun e => h (BitVec.eq_of_toNat_eq e.symm)
  simp [nodeAt, this]

theorem nodeAt_append {nodes more : List Node} {n : NodeIdx} (h : n.toNat < nodes.length) :
    nodeAt (nodes ++ more) n = nodeAt nodes n := by
  simp [nodeAt, List.getElem?_append, h]

/-- Everything pass 2 of TINS does (R214): it leaves every old node but n, makes n the leaf when no bit is left, and
otherwise links n to a chain of new nodes that ends in the leaf. -/
theorem nodeAt_tinsCreate (sym : Byte) (xs : List Bool) (nodes : List Node) (n : NodeIdx) (hn : n.toNat < nodes.length)
    (hroom : nodes.length + xs.length ≤ nodeCap) :
    (∀ k : NodeIdx, k.toNat < nodes.length → k ≠ n → nodeAt (tinsCreate sym nodes n xs) k = nodeAt nodes k) ∧
    (xs = [] → nodeAt (tinsCreate sym nodes n xs) n = { nodeAt nodes n with kind := .data, sym := sym }) ∧
    (∀ x q, xs = x :: q →
      nodeAt (tinsCreate sym nodes n xs) n = (nodeAt nodes n).setChild x (BitVec.ofNat 9 nodes.length) ∧
      (∀ j, (h : j < q.length) → nodeAt (tinsCreate sym nodes n xs) (BitVec.ofNat 9 (nodes.length + j)) =
        Node.empty.setChild q[j] (BitVec.ofNat 9 (nodes.length + j + 1))) ∧
      nodeAt (tinsCreate sym nodes n xs) (BitVec.ofNat 9 (nodes.length + q.length)) =
        ⟨.data, sym, NodeIdx.null, NodeIdx.null⟩) := by
  have hcap : nodes.length + xs.length ≤ 511 := hroom
  clear hroom
  induction xs generalizing nodes n with
  | nil =>
    refine ⟨fun k hk hkn => ?_, fun _ => ?_, by simp⟩
    · rw [tinsCreate, nodeAt_set_ne hkn]
    · rw [tinsCreate, nodeAt_set_self hn]
  | cons x xs ih =>
    simp only [List.length_cons] at hcap
    have hc : (BitVec.ofNat 9 nodes.length).toNat = nodes.length := by simp; omega
    have hlen : ((nodes ++ [Node.empty]).set n.toNat
        ((nodeAt (nodes ++ [Node.empty]) n).setChild x (BitVec.ofNat 9 nodes.length))).length =
        nodes.length + 1 := by simp
    have hne : ∀ k : NodeIdx, k.toNat < nodes.length → k ≠ BitVec.ofNat 9 nodes.length := by
      intro k hk h
      rw [h, hc] at hk
      omega
    have hnew : nodeAt ((nodes ++ [Node.empty]).set n.toNat
        ((nodeAt (nodes ++ [Node.empty]) n).setChild x (BitVec.ofNat 9 nodes.length)))
        (BitVec.ofNat 9 nodes.length) = Node.empty := by
      rw [nodeAt_set_ne (hne n hn).symm, nodeAt, hc]
      simp
    obtain ⟨i1, i2, i3⟩ := ih ((nodes ++ [Node.empty]).set n.toNat
      ((nodeAt (nodes ++ [Node.empty]) n).setChild x (BitVec.ofNat 9 nodes.length))) (BitVec.ofNat 9 nodes.length)
      (by rw [hlen, hc]; omega) (by rw [hlen]; omega)
    rw [hlen] at i1 i3
    refine ⟨fun k hk hkn => ?_, by simp, ?_⟩
    · simp only [tinsCreate]
      rw [i1 k (by omega) (hne k hk), nodeAt_set_ne hkn, nodeAt_append hk]
    · intro x' q hq
      cases hq
      simp only [tinsCreate]
      refine ⟨?_, ?_, ?_⟩
      · rw [i1 n (by omega) (hne n hn), nodeAt_set_self (by simp; omega), nodeAt_append hn]
      · intro j hj
        cases xs with
        | nil => simp at hj
        | cons y ys =>
          obtain ⟨j1, j2, _⟩ := i3 y ys rfl
          cases j with
          | zero =>
            rw [Nat.add_zero, j1, hnew]
            rfl
          | succ j =>
            have := j2 j (by simpa using hj)
            rw [show nodes.length + (j + 1) = nodes.length + 1 + j by omega, this]
            rfl
      · cases xs with
        | nil =>
          simp only [List.length_nil, Nat.add_zero]
          rw [i2 rfl, hnew]
          rfl
        | cons y ys =>
          obtain ⟨_, _, j3⟩ := i3 y ys rfl
          rw [List.length_cons, show nodes.length + (ys.length + 1) = nodes.length + 1 + ys.length by omega, j3]

/-- DEC keeps its output buffer within its bounds (R31, R240). -/
theorem decLoop_ok {bufWords : Nat} {nodes : List Node} {root : NodeIdx} {i : Nat} {xs : List Bool} {k : Decoding}
    (h : k.out.Ok bufWords) : (decLoop bufWords nodes root i xs k).1.out.Ok bufWords := by
  induction xs generalizing i k with
  | nil => exact h
  | cons x xs ih =>
    rw [decLoop]
    split
    · exact h
    split
    · exact h
    split
    · split
      · exact h
      · exact ih (Buf.append_ok h _ (by simp; omega))
    · exact ih h

/-- What a walk left in the table, whether it ended in an error or not. -/
def walkedTable : Except WalkError Walk → Vector Entry 256
  | .ok w => w.ct
  | .error e => e.ct

/-- WALK keeps the form of the code table (R39, R183). -/
theorem walkVisit_ok {nodes : List Node} {fuel : Nat} {n : NodeIdx} {route : List Bool} {w : Walk}
    (hroute : route.length ≤ maxPath) (h : ∀ sym, (ctGet w.ct sym).Ok) :
    ∀ sym, (ctGet (walkedTable (walkVisit nodes fuel n route w)) sym).Ok := by
  induction fuel generalizing n route w with
  | zero => exact h
  | succ fuel ih =>
    have edge : ∀ (c : NodeIdx) (x : Bool) (w : Walk), (∀ sym, (ctGet w.ct sym).Ok) →
        ∀ sym, (ctGet (walkedTable (walkEdge c route (walkVisit nodes fuel c (route ++ [x])) w)) sym).Ok := by
      intro c x w hw
      unfold walkEdge
      split
      · exact hw
      split
      · exact hw
      · next hd => exact ih (by simp only [List.length_append, List.length_singleton]; omega) hw
    rw [walkVisit]
    split
    · exact h
    split
    · exact h
    simp only
    split
    · unfold walkLeaf
      split
      · exact h
      split
      · exact h
      · refine fun sym => ctSet_ok h (Entry.ofCode_ok _ ?_ ?_) _ sym
        · split <;> simp_all
        · split <;> simp_all
    · split
      · next e he =>
        have := edge (nodeAt nodes n).left false { w with visits := w.visits + 1 } h
        rw [he] at this
        exact this
      · next w' hw' =>
        have := edge (nodeAt nodes n).left false { w with visits := w.visits + 1 } h
        rw [hw'] at this
        exact edge _ true w' this

end Sys2Proof.Machine
end

