-- ==== Sys2Proof/Tests/Slice0.lean ====
section
/-! SUPPORT. The model's own tests: expected values are those of 95_test_vectors.md and of the rules' examples, and each
statement with hypotheses has a witness of them here. -/
namespace Sys2Proof.Tests

open Sys2Proof.Machine Sys2Proof.Claims

/-- The block of 95_test_vectors.md after reset: NBUF = 4, BUF_WORDS = 4. -/
def blk : State := State.resetWith ⟨4, 4⟩

def args (a0 a1 : Word) (s : State) : State := { s with la0 := a0, la1 := a1 }

def load (b : BufIdx) (len : Nat) (es : List Word) (s : State) : State := s.setBuf b ⟨es, len⟩

/-- Slots of node memory from their packed values, and ROOT. -/
def tree (packed : List Word) (root : NodeIdx) (s : State) : State :=
  (s.setNodes (packed.map Node.unpack)).setRoot root

def code (sym : Byte) (bits : List Bool) (s : State) : State := s.setCt (ctSet s.ct sym (Entry.ofCode bits))

def latched (w : Word) (s : State) : State := { s with lcmd := w, busy := true, lblk := false }

def comes (ms : List Move) (s : State) : State := { s with agenda := ms }

def failed (s : State) : State := { s with errCode := .noCode, errInfo := 0x41#64 }

/-- The outcome is a next state with this property. -/
def after (o : Out) (p : State → Bool) : Bool :=
  match o with
  | .next t => p t
  | .fault _ => false
  | .refused _ => false

def errs (c : ErrCode) (n : Word) (t : State) : Bool := t.errCode == c && t.errInfo == n

def holds (b : BufIdx) (len : Nat) (es : List Word) (t : State) : Bool := t.buf b == ⟨es, len⟩

/-- The tree of V-E: 0x61 has path 0, 0x62 has path 1,0 and 0x63 has path 1,1. -/
def abc : State :=
  tree [0x0000000200010000, 0x000001FF01FF0161, 0x0000000400030000, 0x000001FF01FF0162, 0x000001FF01FF0163] 0 blk

/-! WellFormed: an ill-formed command for each check. -/

theorem test_wellFormed_ok : wellFormed 4 (.bappb 3 3) = true := by decide
theorem test_wellFormed_d_range : wellFormed 4 (.bappb 4 0) = false := by decide
theorem test_wellFormed_s_range : wellFormed 4 (.bappb 0 4) = false := by decide
theorem test_wellFormed_d_only : wellFormed 2 (.bclr 2) = false := by decide
theorem test_wellFormed_s_only : wellFormed 15 (.tins 15) = false := by decide

/-! Every command's word, written out from 30_encoding.md R81, R85: OPC in [7:0], D in [11:8], S in [15:12]. -/

theorem test_decode_nop : decode 4 0x00000000#64 = .ok .nop := by decide
theorem test_decode_bclr : decode 4 0x00000301#64 = .ok (.bclr 3) := by decide
theorem test_decode_bsetlen : decode 4 0x00000102#64 = .ok (.bsetlen 1) := by decide
theorem test_decode_bwrw : decode 4 0x00000203#64 = .ok (.bwrw 2) := by decide
theorem test_decode_brdw : decode 4 0x00003004#64 = .ok (.brdw 3) := by decide
theorem test_decode_bget : decode 4 0x00001005#64 = .ok (.bget 1) := by decide
theorem test_decode_bset : decode 4 0x00000206#64 = .ok (.bset 2) := by decide
theorem test_decode_bunset : decode 4 0x00000107#64 = .ok (.bunset 1) := by decide
theorem test_decode_bapp : decode 4 0x00000310#64 = .ok (.bapp 3) := by decide
theorem test_decode_bappb : decode 4 0x00001211#64 = .ok (.bappb 2 1) := by decide
theorem test_decode_benc : decode 4 0x00000112#64 = .ok (.benc 1) := by decide
theorem test_decode_bshl : decode 4 0x00000220#64 = .ok (.bshl 2) := by decide
theorem test_decode_bshr : decode 4 0x00000321#64 = .ok (.bshr 3) := by decide
theorem test_decode_band : decode 4 0x00003122#64 = .ok (.band 1 3) := by decide
theorem test_decode_bor : decode 4 0x00001323#64 = .ok (.bor 3 1) := by decide
theorem test_decode_beqp : decode 4 0x00002124#64 = .ok (.beqp 1 2) := by decide
theorem test_decode_beq : decode 4 0x00001225#64 = .ok (.beq 2 1) := by decide
theorem test_decode_ctclr : decode 4 0x00000030#64 = .ok .ctclr := by decide
theorem test_decode_ctwr : decode 4 0x00002031#64 = .ok (.ctwr 2) := by decide
theorem test_decode_ctrd : decode 4 0x00000232#64 = .ok (.ctrd 2) := by decide
theorem test_decode_walk : decode 4 0x00000033#64 = .ok .walk := by decide
theorem test_decode_tclr : decode 4 0x00000040#64 = .ok .tclr := by decide
theorem test_decode_trst : decode 4 0x00000041#64 = .ok .trst := by decide
theorem test_decode_tins : decode 4 0x00001042#64 = .ok (.tins 1) := by decide
theorem test_decode_nwr : decode 4 0x00000043#64 = .ok .nwr := by decide
theorem test_decode_nrd : decode 4 0x00000044#64 = .ok .nrd := by decide
theorem test_decode_troot : decode 4 0x00000045#64 = .ok .troot := by decide
theorem test_decode_dec : decode 4 0x00002150#64 = .ok (.dec 1 2) := by decide
theorem test_decode_clrerr : decode 4 0x0000007F#64 = .ok .clrerr := by decide

/-! V-G: words that are no command (VG1 to VG8). -/

theorem test_word_vg1 : after (perform (latched 0x8#64 blk)) (errs .illegalOpcode 0x8#64) = true := by decide
theorem test_word_vg2 : after (perform (latched 0x10008#64 blk)) (errs .illegalOpcode 0x10008#64) = true := by
  decide
theorem test_word_reserved : after (perform (latched 0x10001#64 blk)) (errs .badField 1#64) = true := by decide
theorem test_word_unused : after (perform (latched 0x1000#64 blk)) (errs .badField 2#64) = true := by decide
theorem test_word_d_range : after (perform (latched 0x401#64 blk)) (errs .badField 3#64) = true := by decide
theorem test_word_s_range : after (perform (latched 0x4022#64 blk)) (errs .badField 4#64) = true := by decide

/-! V-A: packing. -/

theorem test_bapp_va6 :
    after (exec (.bapp 0) (args 0xF#64 4#64 (load 0 62 [0xFFFFFFFFFFFFFFFC] blk)))
      (holds 0 66 [0xFFFFFFFFFFFFFFFF, 0xC000000000000000]) = true := by decide
theorem test_bapp_va4 : after (exec (.bapp 0) (args 1#64 65#64 blk)) (errs .badLength 0x41#64) = true := by
  decide
theorem test_bappb_va9 :
    after (exec (.bappb 0 0) (load 0 3 [0xA000000000000000] blk)) (holds 0 6 [0xB400000000000000]) = true := by
  decide
theorem test_bappb_va10 :
    after (exec (.bappb 0 1) (load 1 1 [0x9000000000000000] blk)) (holds 0 1 [0x8000000000000000]) = true := by
  decide
/-- VD18 on a full buffer. -/
theorem test_benc_full :
    after (exec (.benc 0) (args 0xAA#64 0#64 (code 0xAA#8 [true] (load 0 256 [0, 0, 0, 1] blk))))
      (errs .capacity 5#64) = true := by decide
theorem test_benc_vd5 : after (exec (.benc 0) (args 0x41#64 0#64 blk)) (errs .noCode 0x41#64) = true := by
  decide

/-! V-B: buffers and bits. -/

theorem test_bclr_vb9 : after (exec (.bclr 0) (load 0 66 [1, 2] blk)) (holds 0 0 []) = true := by decide
theorem test_bsetlen_vb8 :
    after (exec (.bsetlen 0) (args 4#64 0#64 (load 0 8 [0xFF00000000000000] blk)))
      (holds 0 4 [0xFF00000000000000]) = true := by decide
theorem test_bsetlen_vb7 : after (exec (.bsetlen 0) (args 257#64 0#64 blk)) (errs .capacity 5#64) = true := by
  decide
theorem test_bwrw_vb6 :
    after (exec (.bwrw 0) (args 2#64 0xDEADBEEF#64 blk)) (holds 0 0 [0, 0, 0xDEADBEEF]) = true := by decide
theorem test_bwrw_vb5 : after (exec (.bwrw 0) (args 4#64 1#64 blk)) (errs .capacity 5#64) = true := by decide
theorem test_brdw_vb2 :
    after (exec (.brdw 0) (args 1#64 0#64 (load 0 3 [0xA000000000000000] blk))) (fun t => t.result == 0#64) = true := by
  decide
theorem test_bget_vb1 :
    after (exec (.bget 0) (args 2#64 0#64 (load 0 3 [0xA000000000000000] blk))) (fun t => t.result == 1#64) = true := by
  decide
theorem test_bget_past_end :
    after (exec (.bget 0) (args 0xFFFFFFFFFFFFFFFF#64 0#64 (load 0 3 [0xA000000000000000] blk)))
      (fun t => t.result == 0#64 && t.errCode == .none) = true := by decide
theorem test_bset_vb4 :
    after (exec (.bset 1) (args 130#64 0#64 blk)) (holds 1 0 [0, 0, 0x2000000000000000]) = true := by decide
theorem test_bset_vb3 : after (exec (.bset 0) (args 256#64 0#64 blk)) (errs .capacity 5#64) = true := by decide
theorem test_bunset_vb10 :
    after (exec (.bunset 0) (args 200#64 0#64 (load 0 0 [0, 0, 0, 0x0080000000000000] blk)))
      (holds 0 0 [0, 0, 0, 0]) = true := by decide

/-! V-C: shift, logic and compare. -/

def vc : State := load 0 128 [0x8000000000000001, 0x0123456789ABCDEF] blk

theorem test_bshl_vc4 :
    after (exec (.bshl 0) (args 65#64 0#64 vc)) (holds 0 128 [0x02468ACF13579BDE, 0]) = true := by decide
theorem test_bshl_all : after (exec (.bshl 0) (args 128#64 0#64 vc)) (holds 0 128 [0, 0]) = true := by decide
theorem test_bshr_vc5 :
    after (exec (.bshr 0) (args 65#64 0#64 vc)) (holds 0 128 [0, 0x4000000000000000]) = true := by decide
theorem test_bshr_all : after (exec (.bshr 0) (args 200#64 0#64 vc)) (holds 0 128 [0, 0]) = true := by decide
/-- The example of R152. -/
theorem test_band_example :
    after (exec (.band 0 1) (load 1 0 [0x0F0F0F0F0F0F0F0F] (load 0 0 [0xFF00FF00FF00FF00, 0xFFFFFFFFFFFFFFFF] blk)))
      (holds 0 0 [0x0F000F000F000F00, 0xFFFFFFFFFFFFFFFF]) = true := by decide
theorem test_bor_longer_source :
    after (exec (.bor 0 1) (load 1 0 [1, 0xFFFFFFFFFFFFFFFF] (load 0 0 [0x8000000000000000] blk)))
      (holds 0 0 [0x8000000000000001]) = true := by decide
theorem test_beqp_vc14 :
    after (exec (.beqp 0 1) (load 1 4 [0xF020000000000000] (load 0 4 [0xF000000000000000] blk)))
      (fun t => t.eq == false && t.result == 0#64) = true := by decide
theorem test_beq_vc14 :
    after (exec (.beq 0 1) (load 1 4 [0xF020000000000000] (load 0 4 [0xF000000000000000] blk)))
      (fun t => t.eq && t.result == 1#64) = true := by decide

/-! V-D: code table and walker. -/

theorem test_ctclr : after (exec .ctclr (code 7#8 [true] blk)) (fun t => (t.entry 7#8).valid == false) = true := by
  decide
theorem test_ctwr_code :
    after (exec (.ctwr 1) (args 0x62#64 0#64 (load 1 2 [0x9000000000000000] blk)))
      (fun t => (t.entry 0x62#8).valid && (t.entry 0x62#8).bits == [true, false]) = true := by decide
theorem test_ctwr_vd1 : after (exec (.ctwr 1) (args 0x41#64 0#64 blk)) (errs .badLength 0#64) = true := by
  decide
theorem test_ctrd_vd4 :
    after (exec (.ctrd 3) (args 0x62#64 0#64 (code 0x62#8 [true, false] blk)))
      (fun t => t.result == 2#64 && holds 3 2 [0x8000000000000000] t) = true := by decide +kernel
theorem test_ctrd_vd3 :
    after (exec (.ctrd 2) (args 0x41#64 0#64 (load 2 8 [5] blk)))
      (fun t => t.result == 0#64 && holds 2 0 [] t) = true := by decide
theorem test_walk_abc :
    after (exec .walk abc) (fun t => (t.entry 0x61#8).bits == [false] && (t.entry 0x62#8).bits == [true, false] &&
      (t.entry 0x63#8).bits == [true, true] && t.errCode == .none) = true := by decide
theorem test_walk_vd11 :
    after (exec .walk (tree [0x0000000200010000, 0x000001FF01FF0110, 0x000001FF01FF0110] 0 blk))
      (fun t => errs .treeMalformed 2#64 t && (t.entry 0x10#8).bits == [false]) = true := by decide

/-! V-E: tree. -/

theorem test_tclr_ve18 : after (exec .tclr abc) (fun t => t.nodeCount == 0 && t.root == 0x1FF#9) = true := by
  decide
theorem test_trst : after (exec .trst blk) (fun t => t.nodes.map Node.pack == [0x000001FF01FF0000] && t.root == 0#9) =
    true := by decide
theorem test_tins_ve9 :
    after (exec (.tins 1) (args 0x20#64 0#64 (load 1 3 [0x6000000000000000] (tree [0x000001FF01FF0000] 0 blk))))
      (fun t => t.nodes.map Node.pack ==
        [0x000001FF00010000, 0x0000000201FF0000, 0x0000000301FF0000, 0x000001FF01FF0120]) = true := by decide
theorem test_tins_ve4 :
    after (exec (.tins 1) (args 0x64#64 0#64 (load 1 2 [0x8000000000000000] abc)))
      (fun t => errs .recordConflict 1#64 t && t.nodes == abc.nodes) = true := by decide
theorem test_nwr_ve14 :
    after (exec .nwr (args 3#64 0x000001FF01FF0141#64 blk))
      (fun t => t.nodes.map Node.pack ==
        [0x000001FF01FF0000, 0x000001FF01FF0000, 0x000001FF01FF0000, 0x000001FF01FF0141] && t.root == 0x1FF#9) =
      true := by decide
theorem test_nwr_ve13 : after (exec .nwr (args 0#64 0x200#64 blk)) (errs .badField 6#64) = true := by decide
theorem test_nrd_ve15 :
    after (exec .nrd (args 2#64 0#64 abc)) (fun t => t.result == 0x0000000400030000#64) = true := by decide
theorem test_nrd_ve16 : after (exec .nrd (args 5#64 0#64 abc)) (errs .nodeIndex 5#64) = true := by decide
theorem test_troot : after (exec .troot (args 4#64 0#64 abc)) (fun t => t.root == 4#9) = true := by decide
theorem test_troot_ve17 :
    after (exec .troot (args 0x1FF#64 0#64 abc)) (fun t => errs .nodeIndex 0x1FF#64 t && t.root == 0#9) = true := by
  decide

/-! V-F: decode. -/

theorem test_dec_vf1 :
    after (exec (.dec 1 0) (load 0 8 [0x5A00000000000000] abc))
      (fun t => holds 1 40 [0x6162636162000000] t && t.symCount == 5#64 && t.result == 5#64 && t.bitPos == 8#64 &&
        t.errCode == .none) = true := by decide
theorem test_dec_vf8 :
    after (exec (.dec 0 2) (load 2 4 [0x2000000000000000] (tree [0x000001FF01FF0141] 0 blk)))
      (fun t => holds 0 16 [0x4141000000000000] t && t.symCount == 2#64 && t.bitPos == 2#64 &&
        errs .decodeCorrupt 2#64 t) = true := by decide

/-! V-G: control, blocking and overrun. -/

theorem test_nop_keeps_error : after (exec .nop (failed blk)) (errs .noCode 0x41#64) = true := by decide
theorem test_clrerr : after (exec .clrerr (failed blk)) (errs .none 0#64) = true := by decide
theorem test_step_issue :
    after (step (comes [.write 0 8 0x17F#64] (failed blk))) (fun t => t.lblk && t.busy) = true := by decide
theorem test_step_overrun :
    after (step (comes [.write 0 8 1#64] (latched 0x12#64 blk))) (errs .busyOverrun 1#64) = true := by decide
theorem test_step_read_status :
    after (step (comes [.read 0x20 8] (failed { blk with eq := true }))) (fun t => t.rdata == 6#64) = true := by
  decide
theorem test_fetch_word :
    after (step (blk.withFetchWord 32 0x41)) (fun t => t.nodeCount == 1 && t.root == 0#9 && !t.busy) = true := by
  decide
theorem test_table_word : decodeTableWord 32 0x1042 = some (.tins 1) := by decide
theorem test_line_moves :
    program (Pseudo.append 1 5 3).lines =
      [.write 0x008 8 5, .write 0x010 8 3, .write 0x000 8 0x110, .engine, .read 0x020 8] := by decide

/-- A CHECK fails the program after an error, also when CLRERR comes after it, and passes before one (R91). -/
theorem test_check :
    programFails [.pseudo (.encode 0 0x41), .pseudo .check, .action (.command .clrerr), .action .wait] blk = true ∧
    programFails [.pseudo .check, .pseudo (.encode 0 0x41)] blk = false := by decide

/-- A run is over while a reset is to come, and has failed; it is not over while a CMD write is to come (R312). -/
theorem test_run_over :
    (comes [.write 8 8 0#64, .read 0x20 8, .reset (some 1#64)] (failed blk)).RunFailed ∧
    ¬ (comes [.read 0x20 8, .write 0 8 0x7F#64] (failed blk)).RunOver ∧ ¬ (latched 0x12#64 blk).RunOver := by decide

/-- The run of one BENC without a code, then a reset: its outcome is the state before the reset. -/
theorem test_run_end :
    (runEnd 3 (comes [.write 0 8 0x12#64, .engine, .reset none] blk)).map State.errCode = some .noCode := by decide

/-! Witnesses: for each statement that has hypotheses, and for each of its clauses, a state and operands that meet them.
-/

theorem witness_DecodeOfEncode : wellFormed 2 (.bappb 1 1) = true ∧ wellFormed 16 (.dec 15 0) = true := by decide

theorem witness_DecodedWordIsItsEncoding : decode 4 0x00003350#64 = .ok (.dec 3 3) := by decide

theorem witness_WordMatchesCommandByMask :
    ((0xFF11#64).extractLsb' 32 32 = 0#32 ∧
      (0xFF11#64).setWidth 32 &&& maskOf (.bappb 0 0) = (Instr.bappb 0 0).opcode.setWidth 32) ∧
    decode 16 0xFF11#64 = .ok (.bappb 15 15) ∧ (Instr.bappb 15 15).opcode = (Instr.bappb 0 0).opcode := by decide

/-- No error latched, and one latched by an overrun while the word was running. -/
theorem witness_IllegalOpcodeLatched_illegal :
    (∀ n ∈ [0x08, 0x0F, 0x13, 0x1F, 0x26, 0x2F, 0x34, 0x3F, 0x46, 0x4F, 0x51, 0x7E, 0x80, 0xFF], IllegalOpc n) ∧
    (∀ s ∈ [blk, failed blk], EngineTurn (latched 0x12FF#64 s) [] ∧ (latched 0x12FF#64 s).lblk = false ∧
      IllegalOpc ((latched 0x12FF#64 s).lcmd.toNat % 256)) := by
  unfold IllegalOpc EngineTurn
  decide

theorem witness_IllegalOpcodeLatched_legal :
    ∀ n ∈ [0x00, 0x07, 0x10, 0x12, 0x20, 0x25, 0x30, 0x33, 0x40, 0x45, 0x50, 0x7F], ¬ IllegalOpc n := by
  unfold IllegalOpc
  decide

/-- One word for each clause: its D and S fields, its reserved bits, and the command its OPC names. -/
theorem witness_BadFieldLatched :
    (∀ w ∈ [0x10001, 0x8000000000000001], EngineTurn (latched (BitVec.ofNat 64 w) blk) [] ∧
      EngineTurn (comes [.engine] (latched (BitVec.ofNat 64 w) (failed blk))) [] ∧
      (latched (BitVec.ofNat 64 w) blk).lblk = false ∧
      (latched (BitVec.ofNat 64 w) blk).lcmd.toNat % 256 = (Instr.bclr 0).opcode.toNat ∧
      (latched (BitVec.ofNat 64 w) blk).lcmd.toNat / 2 ^ 16 ≠ 0) ∧
    ((latched 0x1001#64 blk).lcmd.toNat % 256 = (Instr.bclr 0).opcode.toNat ∧
      (latched 0x1001#64 blk).lcmd.toNat / 2 ^ 16 = 0 ∧
      (Instr.bclr 0).src? = none ∧ (latched 0x1001#64 blk).lcmd.toNat / 2 ^ 12 % 16 ≠ 0) ∧
    ((latched 0x401#64 blk).lcmd.toNat % 256 = (Instr.bclr 0).opcode.toNat ∧ (Instr.bclr 0).dst? ≠ none ∧
      (latched 0x401#64 blk).lcmd.toNat / 2 ^ 12 % 16 = 0 ∧
      (latched 0x401#64 blk).params.nbuf ≤ (latched 0x401#64 blk).lcmd.toNat / 2 ^ 8 % 16) ∧
    ((latched 0x4322#64 blk).lcmd.toNat % 256 = (Instr.band 0 0).opcode.toNat ∧ (Instr.band 0 0).src? ≠ none ∧
      (latched 0x4322#64 blk).lcmd.toNat / 2 ^ 8 % 16 < (latched 0x4322#64 blk).params.nbuf ∧
      (latched 0x4322#64 blk).params.nbuf ≤ (latched 0x4322#64 blk).lcmd.toNat / 2 ^ 12 % 16) ∧
    ((latched 0x3322#64 blk).lcmd.toNat % 256 = (Instr.band 0 0).opcode.toNat ∧
      (latched 0x3322#64 blk).lcmd.toNat / 2 ^ 16 = 0 ∧
      (latched 0x3322#64 blk).lcmd.toNat / 2 ^ 8 % 16 < (latched 0x3322#64 blk).params.nbuf ∧
      (latched 0x3322#64 blk).lcmd.toNat / 2 ^ 12 % 16 < (latched 0x3322#64 blk).params.nbuf) := by
  unfold EngineTurn
  decide

theorem witness_StepRunsDecodedCommand :
    (EngineTurn (latched 0x301#64 blk) [] ∧ (latched 0x301#64 blk).lblk = false ∧
      decode (latched 0x301#64 blk).params.nbuf (latched 0x301#64 blk).lcmd = .ok (.bclr 3)) ∧
    EngineTurn (comes [.engine, .read 0x20 8] (latched 0x301#64 blk)) [.read 0x20 8] := by
  unfold EngineTurn
  decide

theorem witness_BlockedCommandIgnored :
    (EngineTurn { latched 0x12#64 (failed blk) with lblk := true } [] ∧
      { latched 0x12#64 (failed blk) with lblk := true }.lblk = true) ∧
    (∀ w ∈ [0x0, 0x7F, 0x17F, 1], (comes [.write 0 8 (BitVec.ofNat 64 w)] (failed blk)).busy = false ∧
      (comes [.write 0 8 (BitVec.ofNat 64 w)] (failed blk)).agenda = [.write 0 8 (BitVec.ofNat 64 w)]) := by
  unfold EngineTurn
  decide

theorem witness_CmdWriteIssues :
    (comes [.write 0 8 0x10#64] blk).busy = false ∧
    (comes [.write 0 8 0x10#64] blk).agenda = [.write 0 8 0x10#64] := by decide

theorem witness_BusyOverrunDropsTheWord :
    (∀ s ∈ [blk, failed blk], (comes [.write 0 8 1#64] (latched 0x12#64 s)).busy = true ∧
      (comes [.write 0 8 1#64] (latched 0x12#64 s)).agenda = [.write 0 8 1#64]) ∧
    blk.errCode = .none := by decide

theorem witness_WindowWrites :
    ∀ off ∈ [0x008, 0x010, 0x018, 0x0F8, 0x100, 0x1F8], off % 8 = 0 ∧ off ≠ 0 ∧
      (comes [.write off 8 5#64] (latched 0x12#64 blk)).agenda = [.write off 8 5#64] := by decide

theorem witness_IdleReadReturnsWindowValue :
    blk.params.Legal ∧ ∀ off ∈ [0x000, 0x008, 0x010, 0x018, 0x020, 0x028, 0x030, 0x038, 0x040, 0x048, 0x050, 0x058,
        0x060, 0x0F8, 0x100, 0x108, 0x130, 0x138, 0x140, 0x1F8], off % 8 = 0 ∧
      (comes [.read off 8] blk).busy = false ∧ (comes [.read off 8] blk).agenda = [.read off 8] := by decide

/-- The first and the last register of the window, and, in turn, a blocked word, a running command and a word that is no
command. -/
theorem witness_BusyReadsOfUnwrittenRegistersAreExact :
    (∀ off ∈ [0x000, 0x020, 0x138, 0x1F8], (latched 0x101#64 blk).params.Legal ∧
      (comes [.read off 8] (latched 0x101#64 blk)).busy = true ∧ off % 8 = 0 ∧
      (comes [.read off 8] (latched 0x101#64 blk)).agenda = [.read off 8]) ∧
    { latched 0x101#64 (failed blk) with lblk := true }.lblk = true ∧
    ((latched 0x101#64 blk).lblk = false ∧ decode 4 (latched 0x101#64 blk).lcmd = .ok (.bclr 1)) ∧
    decode 4 (latched 0x104#64 blk).lcmd = .error .unusedField := by decide

/-- BCLR of b1 may write BLEN_1 and ECNT_1; BEQ may write RESULT and EQ; a word that is no command, with an error latched,
writes nothing. -/
theorem test_mayWrite :
    mayWrite blk (.bclr 1) = [(0x110, 0xFFFFFFFFFFFFFFFF#64), (0x118, 0xFFFFFFFFFFFFFFFF#64)] ∧
    mayWrite blk (.beq 0 1) = [(0x018, 0xFFFFFFFFFFFFFFFF#64), (0x020, 4#64)] ∧ raises (failed blk) = [] := by decide

theorem witness_ReadsHaveNoSideEffects : ∃ t, step (comes [.read 0x18 8] blk) = .next t := ⟨_, rfl⟩

theorem witness_NarrowAccessRefused :
    (∀ a ∈ [(0x20, 4), (0x24, 8), (0x21, 1)], ¬ (a.2 = 8 ∧ a.1 % 8 = 0)) ∧
    (comes [.read 0x20 4] blk).agenda = [.read 0x20 4] ∧
    (comes [.write 0x24 8 0#64] blk).agenda = [.write 0x24 8 0#64] := by decide

theorem witness_ResetSetsEveryField :
    (comes [.reset none] (latched 0x12#64 (failed abc))).agenda = [.reset none] ∧
    (comes [.reset (some 0x10#64)] abc).agenda = [.reset (some 0x10#64)] := by decide

theorem witness_IdleBlockKeepsItsState : (failed abc).agenda = [] ∧ (failed abc).busy = false := by decide

theorem witness_ParamsNeverChange : ∃ t, step (comes [.reset none] abc) = .next t := ⟨_, rfl⟩

theorem witness_FirstErrorWins :
    (failed blk).errCode ≠ .none ∧ (∃ t, step (latched 0x12#64 (failed blk)) = .next t) ∧
    (∃ t, step (comes [.reset none] (failed blk)) = .next t) ∧
    (∃ t, step (latched 0x7F#64 (failed blk)) = .next t ∧ t.errCode = .none) := by
  refine ⟨by decide, ⟨_, rfl⟩, ⟨_, rfl⟩, ⟨_, rfl, by decide⟩⟩

/-- Every command that can raise, on a state where it does. -/
def raising : List (Instr × State) :=
  [(.bsetlen 0, args 257#64 0#64 blk), (.bwrw 0, args 4#64 0#64 blk), (.bset 0, args 256#64 0#64 blk),
   (.bunset 0, args 256#64 0#64 blk), (.bapp 0, args 0#64 65#64 blk),
   (.bapp 0, args 0#64 1#64 (load 0 256 [0, 0, 0, 0] blk)), (.bappb 0 1, load 1 1 [0] (load 0 256 [0, 0, 0, 0] blk))] ++
  [(.benc 0, args 256#64 0#64 blk), (.benc 0, args 255#64 0#64 blk), (.ctwr 1, args 256#64 0#64 blk),
   (.ctwr 1, args 255#64 0#64 blk), (.ctrd 0, args 256#64 0#64 blk), (.walk, blk),
   (.walk, tree [0x0000000000000000] 0 blk)] ++
  [(.tins 1, args 256#64 0#64 blk), (.tins 1, args 1#64 0#64 blk), (.tins 1, args 1#64 0#64 (load 1 1 [0] blk)),
   (.tins 1, args 1#64 0#64 (load 1 1 [0] abc)), (.nwr, args 0#64 0x200#64 blk), (.nwr, args 511#64 0#64 blk),
   (.nrd, args 5#64 0#64 abc), (.troot, args 5#64 0#64 abc)] ++
  [(.dec 0 0, abc), (.dec 0 1, blk), (.dec 0 1, load 1 1 [0x8000000000000000] abc),
   (.dec 0 2, load 2 1 [0x8000000000000000] (tree [0x000001FF01FF0141] 0 blk))]

/-- The hypotheses of CommandRaisesOnlyItsErrors and of ErrorsArePrecise. -/
theorem witness_CommandRaisesOnlyItsErrors :
    ∀ p ∈ raising, p.2.errCode = .none ∧ after (exec p.1 p.2) (fun t => t.errCode != .none) = true := by decide

theorem witness_ErrorsArePrecise :
    blk.errCode = .none ∧ (∃ t, exec .walk blk = .next t ∧ t.errCode ≠ .none) ∧
    (∃ t, exec (.dec 0 1) (load 1 1 [0x8000000000000000] abc) = .next t ∧ t.errCode ≠ .none) ∧
    (∃ t, exec (.bwrw 0) (args 4#64 0#64 blk) = .next t ∧ t.errCode ≠ .none) := by
  refine ⟨by decide, ⟨_, rfl, by decide⟩, ⟨_, rfl, by decide⟩, ⟨_, rfl, by decide⟩⟩

theorem witness_ResultWrittenOnlyByItsCommands :
    (∃ t, exec (.brdw 0) blk = .next t) ∧ (∃ t, exec (.bclr 0) blk = .next t) ∧
    (∃ t, exec (.ctrd 0) (args 256#64 0#64 blk) = .next t ∧ 255 < (args 256#64 0#64 blk).la0.toNat) ∧
    (∃ t, exec .nrd (args 5#64 0#64 abc) = .next t ∧ abc.nodes.length ≤ (args 5#64 0#64 abc).la0.toNat) ∧
    (∃ t, exec (.dec 0 0) abc = .next t) ∧ (∃ t, exec (.dec 0 1) blk = .next t ∧ blk.root = 0x1FF#9) ∧
    (∃ t, exec (.dec 0 1) abc = .next t ∧ (0 : BufIdx) ≠ 1 ∧ abc.root ≠ 0x1FF#9) := by
  refine ⟨⟨_, rfl⟩, ⟨_, rfl⟩, ⟨_, rfl, by decide⟩, ⟨_, rfl, by decide⟩, ⟨_, rfl⟩, ⟨_, rfl, by decide⟩,
    ⟨_, rfl, by decide, by decide⟩⟩

theorem witness_EqWrittenOnlyByComparisons : ∃ t, exec (.bshl 0) { vc with eq := true } = .next t := ⟨_, rfl⟩

theorem witness_TreeWrittenOnlyByTreeCommands :
    (∃ t, exec .tclr abc = .next t) ∧ (∃ t, exec .nwr (args 0#64 0#64 abc) = .next t) ∧
    (∃ t, exec .troot (args 4#64 0#64 abc) = .next t) ∧ (∃ t, exec .nrd (args 4#64 0#64 abc) = .next t) :=
  ⟨⟨_, rfl⟩, ⟨_, rfl⟩, ⟨_, rfl⟩, ⟨_, rfl⟩⟩

theorem witness_CountersAndTableWrittenOnlyByTheirCommands :
    (∃ t, exec (.dec 0 1) abc = .next t) ∧ (∃ t, exec .ctclr abc = .next t) ∧ (∃ t, exec (.bclr 0) abc = .next t) :=
  ⟨⟨_, rfl⟩, ⟨_, rfl⟩, ⟨_, rfl⟩⟩

theorem witness_HostSideUntouchedByCommands : ∃ t, exec (.bapp 0) (args 5#64 3#64 blk) = .next t := ⟨_, rfl⟩

theorem witness_OnlyTheDestinationBufferChanges :
    (∃ t, exec (.beqp 0 1) vc = .next t) ∧ (∃ t, exec (.bset 1) vc = .next t ∧ (0 : BufIdx) ≠ 1) ∧
    (∃ t, exec (.bshl 1) vc = .next t ∧ (0 : BufIdx) ≠ 1) ∧
    (∃ t, exec (.bappb 1 0) (load 0 3 [5] blk) = .next t ∧ (Instr.bappb 1 0).dst? ≠ some 0) := by
  exact ⟨⟨_, rfl⟩, ⟨_, rfl, by decide⟩, ⟨_, rfl, by decide⟩, ⟨_, rfl, by simp [Instr.dst?]⟩⟩

theorem witness_ResetStateMeetsInvariant :
    (⟨2, 4⟩ : Params).Legal ∧ (⟨16, 2 ^ 32 - 1⟩ : Params).Legal := by decide

theorem witness_StepKeepsInvariant :
    (comes [.write 0 8 0x33#64] (code 7#8 [true] (load 3 65 [1, 2] abc))).Inv ∧
    ∃ t, step (comes [.write 0 8 0x33#64] (code 7#8 [true] (load 3 65 [1, 2] abc))) = .next t := by
  refine ⟨by decide +kernel, ⟨_, rfl⟩⟩

/-! Packing. -/

def full : State := load 0 256 [0, 0, 0, 0] blk

theorem witness_BappAppendsLowBits :
    64 < (args 0#64 65#64 blk).la1.toNat ∧
    ((args 0#64 1#64 full).la1.toNat ≤ 64 ∧
      full.params.bufWords < ((full.buf 0).len + (args 0#64 1#64 full).la1.toNat + 63) / 64) ∧
    (∀ n ∈ [0, 1, 64], (args 5#64 (BitVec.ofNat 64 n) blk).la1.toNat ≤ 64 ∧
      ((blk.buf 0).len + (args 5#64 (BitVec.ofNat 64 n) blk).la1.toNat + 63) / 64 ≤ blk.params.bufWords) := by decide

theorem witness_BappbAppendsSnapshot :
    full.params.bufWords < ((full.buf 0).len + (full.buf 0).len + 63) / 64 ∧
    ((vc.buf 0).len + (vc.buf 0).len + 63) / 64 ≤ vc.params.bufWords ∧
    ((full.buf 0).len + (full.buf 1).len + 63) / 64 ≤ full.params.bufWords := by decide

theorem witness_BencAppendsCode :
    255 < (args 256#64 0#64 blk).la0.toNat ∧
    ((args 255#64 0#64 blk).la0.toNat ≤ 255 ∧ (blk.entry 255#8).valid = false) ∧
    ((code 255#8 [true] full).entry (BitVec.ofNat 8 (args 255#64 0#64 full).la0.toNat)).valid = true ∧
    full.params.bufWords < ((full.buf 0).len + ((code 255#8 [true] full).entry 255#8).len.toNat + 63) / 64 ∧
    ((blk.buf 0).len + ((code 255#8 [true] blk).entry 255#8).len.toNat + 63) / 64 ≤ blk.params.bufWords := by decide

theorem witness_AppendLaws : 0 < (vc.buf 0).len ∧ 2 < [true, false, true].length := by decide

/-! Buffers and bits. -/

theorem witness_ClearAndSetLength :
    blk.params.bufWords < ((args 257#64 0#64 blk).la0.toNat + 63) / 64 ∧
    (∀ n ∈ [0, 256], ((args (BitVec.ofNat 64 n) 0#64 blk).la0.toNat + 63) / 64 ≤ blk.params.bufWords) := by decide

theorem witness_BwrwWritesOneElement :
    blk.params.bufWords ≤ (args 4#64 0#64 blk).la0.toNat ∧
    (∀ k ∈ [0, 3], (args (BitVec.ofNat 64 k) 0#64 blk).la0.toNat < blk.params.bufWords) := by decide

theorem witness_SetAndClearOneBit :
    64 * blk.params.bufWords ≤ (args 256#64 0#64 blk).la0.toNat ∧
    (∀ i ∈ [0, 255], (args (BitVec.ofNat 64 i) 0#64 blk).la0.toNat < 64 * blk.params.bufWords) := by decide

theorem witness_ShiftsMoveStreamPositions : 127 < 64 * (vc.buf 0).ec := by decide

theorem witness_ShiftAndSetLengthDropLeadingBits :
    vc.params.Legal ∧ (vc.buf 0).len ≤ 64 * (vc.buf 0).ec ∧ (vc.buf 0).ec ≤ vc.params.bufWords ∧
    0 ≤ (vc.buf 0).len ∧ 128 ≤ (vc.buf 0).len := by decide

theorem witness_StreamOrderOfValueAndBytes : 127 < 64 * (vc.buf 0).ec ∧ 7 < 8 := by decide

/-! Code table and walker. -/

theorem witness_TableClearAndWrite :
    255 < (args 256#64 0#64 blk).la0.toNat ∧
    ((args 255#64 0#64 blk).la0.toNat ≤ 255 ∧ (blk.buf 1).len = 0 ∧ 255 < (full.buf 0).len) ∧
    (1 ≤ ((load 1 1 [0] blk).buf 1).len ∧ ((load 1 255 [0, 0, 0, 0] blk).buf 1).len ≤ 255 ∧
      1 ≤ ((load 1 255 [0, 0, 0, 0] blk).buf 1).len) := by decide

theorem witness_CtrdReadsEntry :
    255 < (args 256#64 0#64 blk).la0.toNat ∧
    ((args 0#64 0#64 blk).la0.toNat ≤ 255 ∧ (blk.entry 0#8).valid = false) ∧
    ((args 255#64 0#64 blk).la0.toNat ≤ 255 ∧ ((code 255#8 [true] blk).entry 255#8).valid = true) := by decide

/-- The tree of V-E, and a root that is itself a leaf. -/
theorem witness_WalkRecordsTheCodesOfATree :
    (let t := Tree.fork 0#9 (.leaf 1#9 0x61#8) (.fork 2#9 (.leaf 3#9 0x62#8) (.leaf 4#9 0x63#8))
     t.HeldIn abc.nodes ∧ t.top = abc.root ∧ abc.root ≠ 0x1FF#9 ∧ t.size ≤ abc.nodes.length ∧ t.height ≤ 255 ∧
       (t.codes.map Prod.fst).Nodup) ∧
    (let t := Tree.leaf 0#9 0x41#8
     let s := tree [0x000001FF01FF0141] 0 blk
     t.HeldIn s.nodes ∧ t.top = s.root ∧ s.root ≠ 0x1FF#9 ∧ t.size ≤ s.nodes.length ∧ t.height ≤ 255 ∧
       (t.codes.map Prod.fst).Nodup) := by
  refine ⟨⟨?_, by decide, by decide, by decide, by decide, by decide⟩,
    ⟨⟨by decide, rfl⟩, by decide, by decide, by decide, by decide, by decide⟩⟩
  exact ⟨by decide, ⟨0#8, rfl⟩, by decide, by decide, ⟨by decide, rfl⟩,
    ⟨by decide, ⟨0#8, rfl⟩, by decide, by decide, ⟨by decide, rfl⟩, ⟨by decide, rfl⟩⟩⟩

theorem witness_WalkTableIsTheReachableLeaves :
    abc.errCode = .none ∧ (∃ t, exec .walk abc = .next t ∧ t.errCode = .none ∧ (t.entry 0x62#8).valid = true) ∧
    leadsTo abc.nodes abc.root [true, false] = some 3#9 ∧ (abc.node 3#9).kind = .data := by
  refine ⟨by decide, ⟨_, rfl, by decide, by decide⟩, by decide, by decide⟩

theorem witness_WalkTableIsPrefixFree :
    0x61#8 ≠ 0x63#8 ∧ ∃ t, exec .walk abc = .next t ∧ (t.entry 0x61#8).valid = true ∧
      (t.entry 0x63#8).valid = true := by
  refine ⟨by decide, ⟨_, rfl, by decide, by decide⟩⟩

theorem walkReaches_root (nodes : List Node) (root : NodeIdx) : WalkReaches nodes root [] [] := by
  refine ⟨.nil, fun q => ?_, by simp⟩
  cases q <;> simp [visitedBefore]

theorem walkReaches_left (nodes : List Node) (root : NodeIdx) (h : VisitPasses nodes root [] []) :
    WalkReaches nodes root [[]] [false] := by
  refine ⟨by simp, fun q => ?_, fun pre q post e => ?_⟩
  · cases q with
    | nil => simp [visitedBefore, follow]
    | cons x q => cases x <;> cases q <;> simp [visitedBefore]
  · cases pre with
    | nil => cases e; exact h
    | cons a pre => simp at e

/-- No root, a root past NODE_COUNT, and a Data root with a child. -/
theorem witness_WalkStopsAtTheFirstFailingVisit_root :
    blk.root = 0x1FF#9 ∧
    (let s := tree [0x000001FF01FF0000] 1 blk
     s.root ≠ 0x1FF#9 ∧ WalkReaches s.nodes s.root [] [] ∧ follow s.nodes s.root [] = some 1#9 ∧
       s.nodes.length ≤ (1#9).toNat) ∧
    (let s := tree [0x000001FF00000141] 0 blk
     WalkReaches s.nodes s.root [] [] ∧ follow s.nodes s.root [] = some 0#9 ∧ (0#9).toNat < s.nodes.length ∧
       (s.node 0#9).kind = .data ∧ (s.node 0#9).left ≠ 0x1FF#9) :=
  ⟨by decide, ⟨by decide, walkReaches_root _ _, by decide, by decide⟩,
    ⟨walkReaches_root _ _, by decide, by decide, by decide, by decide⟩⟩

/-- A left child past NODE_COUNT, a Data node with a child below the root, and a cycle: more visits than NODE_COUNT. -/
theorem witness_WalkStopsAtTheFirstFailingVisit_below :
    (let s := tree [0x000001FF00090000] 0 blk
     WalkReaches s.nodes s.root [[]] [false] ∧ follow s.nodes s.root [false] = some 9#9 ∧
       s.nodes.length ≤ (9#9).toNat) ∧
    (let s := tree [0x000001FF00010000, 0x0000000001FF0141] 0 blk
     WalkReaches s.nodes s.root [[]] [false] ∧ follow s.nodes s.root [false] = some 1#9 ∧
       (1#9).toNat < s.nodes.length ∧ (s.node 1#9).kind = .data ∧ (s.node 1#9).right ≠ 0x1FF#9) ∧
    (let s := tree [0x000001FF00000000] 0 blk
     WalkReaches s.nodes s.root [[]] [false] ∧ follow s.nodes s.root [false] = some 0#9 ∧
       (0#9).toNat < s.nodes.length ∧ [([] : List Bool)].length = s.nodes.length) := by
  refine ⟨⟨walkReaches_left _ _ ⟨0#9, ?_⟩, by decide, by decide⟩,
    ⟨walkReaches_left _ _ ⟨0#9, ?_⟩, by decide, by decide, by decide, by decide⟩,
    ⟨walkReaches_left _ _ ⟨0#9, ?_⟩, by decide, by decide, by decide⟩⟩ <;>
    exact ⟨by decide, by decide, by decide, by decide, fun h => absurd h (by decide)⟩

/-- Two leaves of one symbol (VD11): the root and the left leaf pass, and the right one is the second. -/
theorem witness_WalkStopsAtTheFirstFailingVisit_twice :
    let s := tree [0x0000000200010000, 0x000001FF01FF0110, 0x000001FF01FF0110] 0 blk
    WalkReaches s.nodes s.root [[], [false]] [true] ∧ follow s.nodes s.root [true] = some 2#9 ∧
      (2#9).toNat < s.nodes.length ∧ (s.node 2#9).kind = .data ∧
      ∃ p ∈ [[], [false]], LeafAt s.nodes s.root p (s.node 2#9).sym := by
  refine ⟨⟨by decide, fun q => ?_, fun pre q post e => ?_⟩, by decide, by decide, by decide,
    ⟨[false], by decide, 1#9, by decide, by decide, by decide⟩⟩
  · have hleaf : ∀ x r, follow (tree [0x0000000200010000, 0x000001FF01FF0110, 0x000001FF01FF0110] 0 blk).nodes 1#9
        (x :: r) = none := fun x r => rfl
    rcases q with _ | ⟨_ | _, _ | ⟨x, r⟩⟩
    · decide
    · decide
    · exact ⟨fun h => by simp at h, fun h => absurd (hleaf x r) h.2⟩
    · decide
    · exact ⟨fun h => by simp at h, fun h => by simp [visitedBefore] at h⟩
  · rcases pre with _ | ⟨a, _ | ⟨b, pre⟩⟩
    · cases e
      exact ⟨0#9, by decide, by decide, by decide, by decide, fun h => absurd h (by decide)⟩
    · cases e
      refine ⟨1#9, by decide, by decide, by decide, by decide, fun _ => ⟨by decide, by decide, fun p hp => ?_⟩⟩
      simp only [List.mem_singleton] at hp
      subst hp
      rintro ⟨n, h1, h2, _⟩
      cases h1
      exact absurd h2 (by decide)
    · simp at e

/-- 256 nodes that are their own left child. -/
def deep : State := (blk.setNodes (List.replicate 256 ⟨.internal, 0#8, 0#9, NodeIdx.null⟩)).setRoot 0#9

theorem nodeAt_deep : nodeAt deep.nodes 0#9 = ⟨.internal, 0#8, 0#9, NodeIdx.null⟩ := rfl

theorem follow_deep (k : Nat) : follow deep.nodes 0#9 (List.replicate k false) = some 0#9 := by
  induction k with
  | zero => rfl
  | succ k ih =>
    have hlen : deep.nodes.length = 256 := List.length_replicate
    rw [List.replicate_succ, follow, nodeAt_deep, if_pos ⟨by rw [hlen]; decide, rfl, by decide⟩]
    exact ih

theorem visitedBefore_lefts (q : List Bool) (k : Nat) :
    visitedBefore q (List.replicate k false) = true ↔ ∃ j < k, q = List.replicate j false := by
  induction k generalizing q with
  | zero => cases q <;> simp [visitedBefore]
  | succ k ih =>
    rw [List.replicate_succ]
    cases q with
    | nil => simp only [visitedBefore, true_iff]; exact ⟨0, by omega, rfl⟩
    | cons x q =>
      cases x
      · simp only [visitedBefore, Bool.not_false, Bool.and_false, Bool.false_or, beq_self_eq_true, Bool.true_and, ih]
        constructor
        · rintro ⟨j, hj, rfl⟩
          exact ⟨j + 1, by omega, rfl⟩
        · rintro ⟨_ | j, hj, h⟩
          · cases h
          · rw [List.replicate_succ] at h
            exact ⟨j, by omega, (List.cons.inj h).2⟩
      · refine ⟨fun h => by simp [visitedBefore] at h, ?_⟩
        rintro ⟨_ | j, hj, h⟩ <;> simp [List.replicate_succ] at h

/-- A child at depth 256. -/
theorem witness_WalkStopsAtTheFirstFailingVisit_deep :
    deep.root ≠ 0x1FF#9 ∧
    WalkReaches deep.nodes deep.root ((List.range 256).map fun j => List.replicate j false) (List.replicate 256 false) ∧
    follow deep.nodes deep.root (List.replicate 256 false) = some 0#9 ∧ (List.replicate 256 false).length = 256 := by
  refine ⟨by decide, ⟨?_, fun q => ?_, fun pre q post e => ?_⟩, follow_deep 256, List.length_replicate⟩
  · rw [List.pairwise_map]
    exact List.pairwise_lt_range.imp fun {a b} h => (visitedBefore_lefts _ b).2 ⟨a, h, rfl⟩
  · rw [visitedBefore_lefts, List.mem_map]
    constructor
    · rintro ⟨j, hj, rfl⟩
      exact ⟨⟨j, List.mem_range.1 hj, rfl⟩, by rw [show deep.root = 0#9 from rfl, follow_deep]; simp⟩
    · rintro ⟨⟨j, hj, rfl⟩, _⟩
      exact ⟨j, List.mem_range.2 hj, rfl⟩
  · have hl := congrArg List.length e
    have hq : q = List.replicate pre.length false := by
      have := congrArg (fun l => l[pre.length]?) e
      simp only [List.length_map, List.length_range, List.length_append, List.length_cons] at hl
      simpa [List.getElem?_range, show pre.length < 256 by omega] using this.symm
    subst hq
    simp only [List.length_map, List.length_range, List.length_append, List.length_cons] at hl
    refine ⟨0#9, follow_deep _, by rw [List.length_replicate]; omega, ?_, ?_, fun h => ?_⟩
    · rw [show deep.nodes.length = 256 from List.length_replicate]; decide
    · rw [show deep.nodes.length = 256 from List.length_replicate]; omega
    · rw [nodeAt_deep] at h
      cases h

/-- A root that is a leaf without children: every visit passes. -/
theorem witness_WalkStopsAtTheFirstFailingVisit_passes :
    let s := tree [0x000001FF01FF0141] 0 blk
    s.root ≠ 0x1FF#9 ∧ ∀ before route n, WalkReaches s.nodes s.root before route →
      follow s.nodes s.root route = some n → VisitPasses s.nodes s.root before route := by
  refine ⟨by decide, fun before route n hr hf => ?_⟩
  have hroute : route = [] := by
    cases route with
    | nil => rfl
    | cons x r => cases hf
  subst hroute
  have hbefore : before = [] := by
    cases before with
    | nil => rfl
    | cons q _ =>
      have := ((hr.2.1 q).1 (List.mem_cons_self ..)).1
      cases q <;> simp [visitedBefore] at this
  subst hbefore
  exact ⟨0#9, by decide, by decide, by decide, by decide, fun _ => ⟨by decide, by decide, by simp⟩⟩

/-! Tree. -/

theorem witness_NwrWritesOneNode :
    ¬ ((args 0#64 0x200#64 blk).la1.extractLsb' 9 7 = 0#7) ∧
    ((args 511#64 0#64 blk).la1.extractLsb' 9 7 = 0#7 ∧ (args 511#64 0#64 blk).la1.extractLsb' 25 7 = 0#7 ∧
      (args 511#64 0#64 blk).la1.extractLsb' 41 23 = 0#23 ∧ 511 ≤ (args 511#64 0#64 blk).la0.toNat) ∧
    ((args 510#64 0x000001FF01FF01FF#64 blk).la1.extractLsb' 9 7 = 0#7 ∧
      (args 510#64 0x000001FF01FF01FF#64 blk).la1.extractLsb' 25 7 = 0#7 ∧
      (args 510#64 0x000001FF01FF01FF#64 blk).la1.extractLsb' 41 23 = 0#23 ∧
      (args 510#64 0x000001FF01FF01FF#64 blk).la0.toNat < 511) := by decide

theorem witness_NodeReadAndSetRoot :
    abc.nodes.length ≤ 511 ∧ abc.nodes.length ≤ (args 5#64 0#64 abc).la0.toNat ∧
    (∀ k ∈ [0, 4], (args (BitVec.ofNat 64 k) 0#64 abc).la0.toNat < abc.nodes.length) := by decide

theorem witness_PackedNodeLayout :
    (0x000001FF01FF01FF#64).extractLsb' 9 7 = 0#7 ∧ (0x000001FF01FF01FF#64).extractLsb' 25 7 = 0#7 ∧
    (0x000001FF01FF01FF#64).extractLsb' 41 23 = 0#23 := by decide

/-- A root with a left leaf. -/
def sapling : State := tree [0x000001FF00010000, 0x000001FF01FF0161] 0 blk

/-- A whole missing path of two nodes, and one missing edge. -/
theorem witness_TinsCreatesTheMissingPath :
    (let s := args 0x62#64 0#64 (load 1 2 [0x8000000000000000] sapling)
     s.la0.toNat ≤ 255 ∧ (s.buf 1).len ≤ 255 ∧ s.root ≠ 0x1FF#9 ∧ (s.buf 1).bits = [] ++ true :: [false] ∧
       leadsTo s.nodes s.root [] = some 0#9 ∧ (s.node 0#9).kind = .internal ∧ (s.node 0#9).child true = 0x1FF#9 ∧
       s.nodes.length + ([false].length + 1) ≤ 511) ∧
    (let s := args 255#64 0#64 (load 1 1 [0x8000000000000000] sapling)
     s.la0.toNat ≤ 255 ∧ (s.buf 1).bits = [] ++ true :: [] ∧ s.nodes.length + ([].length (α := Bool) + 1) ≤ 511) := by
  decide

theorem witness_TinsRejects_operands :
    255 < (args 256#64 0#64 sapling).la0.toNat ∧
    ((args 255#64 0#64 sapling).la0.toNat ≤ 255 ∧ (sapling.buf 1).len = 0 ∧
      255 < ((load 1 256 [0, 0, 0, 0] sapling).buf 1).len) ∧
    (1 ≤ ((load 1 1 [0] blk).buf 1).len ∧ ((load 1 255 [0, 0, 0, 0] blk).buf 1).len ≤ 255 ∧ blk.root = 0x1FF#9) ∧
    ((tree [0x000001FF01FF0141] 0 blk).node 0#9).kind = .data := by decide

theorem witness_TinsRejects_path :
    (let s := args 1#64 0#64 (load 1 1 [0] (tree [0x000001FF00050000] 0 blk))
     s.la0.toNat ≤ 255 ∧ 1 ≤ (s.buf 1).len ∧ (s.buf 1).len ≤ 255 ∧ s.root ≠ 0x1FF#9 ∧
       (s.buf 1).bits = [] ++ false :: [] ∧ leadsTo s.nodes s.root [] = some 0#9 ∧ (s.node 0#9).kind = .internal ∧
       (s.node 0#9).child false ≠ 0x1FF#9 ∧ s.nodes.length ≤ ((s.node 0#9).child false).toNat) ∧
    (let s := args 0x64#64 0#64 (load 1 2 [0x8000000000000000] abc)
     (s.buf 1).bits = [true] ++ false :: [] ∧ leadsTo s.nodes s.root [true] = some 2#9 ∧
       (s.node 2#9).kind = .internal ∧ (s.node 2#9).child false ≠ 0x1FF#9 ∧
       ((s.node 2#9).child false).toNat < s.nodes.length ∧ (s.node ((s.node 2#9).child false)).kind = .data) ∧
    (let s := args 0x64#64 0#64 (load 1 1 [0x8000000000000000] abc)
     leadsTo s.nodes s.root (s.buf 1).bits = some 2#9 ∧ (s.node 2#9).kind = .internal) := by decide

/-- 511 nodes are in use and one more is asked for. -/
theorem witness_TinsRejects_full :
    let s := (args 1#64 0#64 (load 1 1 [0] blk)).setRoot 0 |>.setNodes (List.replicate 511 Node.empty)
    s.la0.toNat ≤ 255 ∧ 1 ≤ (s.buf 1).len ∧ (s.buf 1).len ≤ 255 ∧ s.root ≠ 0x1FF#9 ∧
      (s.buf 1).bits = [] ++ false :: [] ∧ leadsTo s.nodes s.root [] = some 0#9 ∧ (s.node 0#9).kind = .internal ∧
      (s.node 0#9).child false = 0x1FF#9 ∧ 511 < s.nodes.length + ([].length (α := Bool) + 1) := by decide +kernel

/-! The payload decoder. -/

theorem witness_DecFollowsTheTree_start : (1 : BufIdx) = 1 ∧ (0 : BufIdx) ≠ 1 ∧ blk.root = 0x1FF#9 := by decide

/-- Whole codes, then nothing; then an unfinished code. -/
theorem witness_DecFollowsTheTree_ends :
    (let s := load 0 3 [0x4000000000000000] abc
     s.root ≠ 0x1FF#9 ∧ (s.buf 1).len ≤ 64 * (s.buf 1).ec ∧
       (∀ c ∈ [([false], 0x61#8), ([true, false], 0x62#8)], codeSymbol s.nodes s.root s.root c.1 = some c.2) ∧
       (s.buf 0).bits = [([false], 0x61#8), ([true, false], 0x62#8)].flatMap Prod.fst ++ [] ++ [] ∧
       cursorAfter s.nodes s.root s.root [] = some 0#9 ∧
       ((s.buf 1).len + 8 * [([false], 0x61#8), ([true, false], 0x62#8)].length + 63) / 64 ≤ s.params.bufWords) ∧
    (let s := load 0 2 [0x4000000000000000] abc
     (s.buf 0).bits = [([false], 0x61#8)].flatMap Prod.fst ++ [true] ++ [] ∧
       cursorAfter s.nodes s.root s.root [true] = some 2#9) := by decide

/-- A NULL child, an index past NODE_COUNT, and a leaf for a full buffer. -/
theorem witness_DecFollowsTheTree_errors :
    (let s := load 0 2 [0x4000000000000000] sapling
     (s.buf 0).bits = [([false], 0x61#8)].flatMap Prod.fst ++ [] ++ true :: [] ∧
       codeSymbol s.nodes s.root s.root [false] = some 0x61#8 ∧ cursorAfter s.nodes s.root s.root [] = some 0#9 ∧
       cursorChild s.nodes s.root 0#9 true = 0x1FF#9) ∧
    (let s := load 0 1 [0] (tree [0x000001FF00090000] 0 blk)
     (s.buf 0).bits = ([] : List (List Bool × Byte)).flatMap Prod.fst ++ [] ++ false :: [] ∧
       cursorChild s.nodes s.root 0#9 false ≠ 0x1FF#9 ∧
       s.nodes.length ≤ (cursorChild s.nodes s.root 0#9 false).toNat) ∧
    (let s := load 1 256 [0, 0, 0, 0] (load 0 1 [0] abc)
     (s.buf 1).len ≤ 64 * (s.buf 1).ec ∧
       (s.buf 0).bits = ([] : List (List Bool × Byte)).flatMap Prod.fst ++ [] ++ false :: [] ∧
       ((s.buf 1).len + 8 * 0 + 63) / 64 ≤ s.params.bufWords ∧
       cursorChild s.nodes s.root 0#9 false ≠ 0x1FF#9 ∧
       (cursorChild s.nodes s.root 0#9 false).toNat < s.nodes.length ∧
       (s.node (cursorChild s.nodes s.root 0#9 false)).kind = .data ∧
       s.params.bufWords < ((s.buf 1).len + 8 * 0 + 8 + 63) / 64) := by decide

theorem witness_DecodeInvertsEncode :
    ∃ s1 s2, abc.errCode = .none ∧ exec .walk abc = .next s1 ∧ s1.errCode = .none ∧
      (∀ y ∈ [0x61#8, 0x63#8], (s1.entry y).valid = true) ∧ s1.buf 0 = Buf.empty ∧ s1.buf 1 = Buf.empty ∧
      (1 : BufIdx) ≠ 0 ∧ encodeAll 0 [0x61#8, 0x63#8] s1 = some s2 ∧ s2.errCode = .none ∧
      8 * [0x61#8, 0x63#8].length ≤ 64 * s2.params.bufWords := by
  refine ⟨_, _, by decide, rfl, by decide, by decide, by decide, by decide, by decide, rfl, by decide, by decide⟩

end Sys2Proof.Tests
end

section
/-! PROOFS. What a command can do to the state, said once as a chain of updates within the command's footprint
(`Update`), and what every such chain keeps. -/
namespace Sys2Proof.Machine

/-! What a raise leaves. -/

@[simp] theorem State.raise_params (s : State) (c : ErrCode) (n : Nat) : (s.raise c n).params = s.params := by
  obtain ⟨e, v, k, he⟩ := s.raise_frame c n
  rw [he]

@[simp] theorem State.raise_result (s : State) (c : ErrCode) (n : Nat) : (s.raise c n).result = s.result := by
  obtain ⟨e, v, k, he⟩ := s.raise_frame c n
  rw [he]

@[simp] theorem State.raise_symCount (s : State) (c : ErrCode) (n : Nat) : (s.raise c n).symCount = s.symCount := by
  obtain ⟨e, v, k, he⟩ := s.raise_frame c n
  rw [he]

/-- After a raise an error is latched, the new one or the first (R275). -/
theorem State.raise_errCode_ne_none (s : State) {c : ErrCode} (hc : c ≠ .none) (n : Nat) :
    (s.raise c n).errCode ≠ .none := by
  rcases s.raise_cases c n with ⟨h0, h⟩ | ⟨_, _, h⟩ | ⟨_, _, h⟩
  · rwa [h]
  · rwa [h]
  · rwa [h]

/-! The invariant in two parts: the memories with ROOT, and the error latch. -/

/-- The part of the invariant that speaks of the parameters, the memories and ROOT (R31, R39, R43). -/
abbrev State.StoreOk (s : State) : Prop := s.params.Legal ∧ Memory.wf s ∧ s.RootOk

theorem State.inv_iff (s : State) : s.Inv ↔ s.StoreOk ∧ s.LatchOk := by
  simp only [State.Inv, State.StoreOk, and_assoc]

theorem State.StoreOk.setBuf {s : State} (h : s.StoreOk) {d : BufIdx} {b : Buf} (hd : d.toNat < s.params.nbuf)
    (hb : b.Ok s.params.bufWords) : (s.setBuf d b).StoreOk := by
  obtain ⟨hp, hm, hr⟩ := h
  exact ⟨hp, Memory.wf_setBuf hm hd hb, hr⟩

theorem State.StoreOk.setCt {s : State} (h : s.StoreOk) {ct : Vector Entry 256} (hct : ∀ y, (ctGet ct y).Ok) :
    (s.setCt ct).StoreOk := by
  obtain ⟨hp, hm, hr⟩ := h
  exact ⟨hp, Memory.wf_setCt hm hct, hr⟩

/-- The bounds of a node memory with its root (R43). -/
def TreeOk (ns : List Node) (r : NodeIdx) : Prop := ns.length ≤ nodeCap ∧ (r = NodeIdx.null ∨ r.toNat < ns.length)

theorem State.StoreOk.setTree {s : State} (h : s.StoreOk) {ns : List Node} {r : NodeIdx} (ht : TreeOk ns r) :
    ((s.setNodes ns).setRoot r).StoreOk := by
  obtain ⟨hp, hm, -⟩ := h
  obtain ⟨hcap, hr⟩ := ht
  exact ⟨hp, Memory.wf_setNodes hm hcap, hr⟩

/-- The error latch is no part of the memories. -/
theorem State.StoreOk.raise {s : State} (h : s.StoreOk) (c : ErrCode) (n : Nat) : (s.raise c n).StoreOk := by
  obtain ⟨e, v, k, he⟩ := s.raise_frame c n
  rw [he]
  exact h

theorem State.StoreOk.treeOk {s : State} (h : s.StoreOk) : TreeOk s.nodes s.root := by
  obtain ⟨-, ⟨-, -, -, hcap⟩, hroot⟩ := h
  exact ⟨hcap, hroot⟩

theorem State.StoreOk.four_le_bufWords {s : State} (h : s.StoreOk) : 4 ≤ s.params.bufWords := by
  obtain ⟨⟨-, -, h4, -⟩, -⟩ := h
  exact h4

theorem State.StoreOk.buf_ok {s : State} (h : s.StoreOk) (b : BufIdx) : (s.buf b).Ok s.params.bufWords :=
  Memory.buf_ok h.2.1 b

theorem State.StoreOk.ct_ok {s : State} (h : s.StoreOk) (y : Byte) : (ctGet s.ct y).Ok :=
  Memory.entry_ok h.2.1 y

/-! What a command can do. -/

theorem bufOk_dst {nbuf : Nat} {i : Instr} (hi : wellFormed nbuf i = true) {d : BufIdx} (hd : i.dst? = some d) :
    bufOk nbuf (some d) = true := by
  rw [wellFormed, hd, Bool.and_eq_true] at hi
  exact hi.1

/-- `Update i s t`: the command `i` can take `s` to `t` by updates that its footprint allows (R28, R29, R43, R44, R60,
R275), each of which keeps the bounds of what it writes. -/
inductive Update (i : Instr) (s : State) : State → Prop
  | refl : Update i s s
  | setBuf {u : State} {d : BufIdx} {b : Buf} (hu : Update i s u) (hd : i.dst? = some d)
      (hb : u.StoreOk → b.Ok u.params.bufWords) : Update i s (u.setBuf d b)
  | setResult {u : State} {v : Word} (hu : Update i s u) (hi : i.writesResult = true) : Update i s (u.setResult v)
  | setEq {u : State} {e : Bool} (hu : Update i s u) (he : i.writesEq = true) (hr : i.writesResult = true) :
      Update i s (u.setEq e)
  | setCt {u : State} {ct : Vector Entry 256} (hu : Update i s u) (hi : i.writesCt = true)
      (hct : u.StoreOk → ∀ y, (ctGet ct y).Ok) : Update i s (u.setCt ct)
  | setTree {u : State} {ns : List Node} {r : NodeIdx} (hu : Update i s u) (hn : i.writesNodes = true ∨ ns = u.nodes)
      (hr : i.writesRoot = true ∨ r = u.root) (ht : u.StoreOk → TreeOk ns r) :
      Update i s ((u.setNodes ns).setRoot r)
  | setDecode {u : State} {c p : Word} (hu : Update i s u) (hi : i.writesDecode = true) :
      Update i s (u.setDecode c p)
  | latch {u : State} {c : ErrCode} {v : Word} {k : Nat} (hu : Update i s u)
      (hc : (u.errCode = .none ∧ c ≠ .none) ∨ (i = .clrerr ∧ v = 0#64)) :
      Update i s { u with errCode := c, errInfo := v, draws := k }

namespace Update

variable {i : Instr} {s u t : State}

theorem raise (hu : Update i s u) {c : ErrCode} (hc : c ≠ .none) (n : Nat) : Update i s (u.raise c n) := by
  rcases u.raise_cases c n with ⟨_, h⟩ | ⟨h0, _, h⟩ | ⟨h0, _, h⟩
  · rwa [h]
  · rw [h]; exact hu.latch (.inl ⟨h0, hc⟩)
  · rw [h]; exact hu.latch (.inl ⟨h0, hc⟩)

theorem setNodes {ns : List Node} (hn : i.writesNodes = true) (ht : s.StoreOk → TreeOk ns s.root) :
    Update i s (s.setNodes ns) :=
  setTree (r := s.root) refl (.inl hn) (.inr rfl) ht

theorem setRoot {r : NodeIdx} (hr : i.writesRoot = true) (ht : s.StoreOk → TreeOk s.nodes r) :
    Update i s (s.setRoot r) :=
  setTree (ns := s.nodes) refl (.inr rfl) (.inl hr) ht

/-- An append that does not fit raises; one that fits writes D within its bounds. -/
theorem appendTo {d : BufIdx} {xs : List Bool} (hd : i.dst? = some d) (h : s.appendTo d xs = .next t) :
    Update i s t := by
  rcases State.appendTo_cases h with ⟨_, rfl⟩ | ⟨hroom, rfl⟩
  · exact refl.raise (by decide) _
  · exact refl.setBuf hd fun hs => Buf.append_ok (hs.buf_ok d) xs hroom

/-! What every chain of updates leaves unchanged. -/

theorem sameHostSide (h : Update i s t) : SameHostSide s t := by
  induction h with
  | refl => exact ⟨rfl, rfl, rfl, rfl, rfl, rfl, rfl, rfl, rfl, rfl⟩
  | setBuf _ _ _ ih | setResult _ _ ih | setEq _ _ _ ih | setCt _ _ _ ih | setTree _ _ _ _ ih | setDecode _ _ ih
  | latch _ _ ih => exact ih

theorem result_eq (h : Update i s t) (hi : i.writesResult = false) : t.result = s.result := by
  induction h with
  | refl => rfl
  | setResult _ hw | setEq _ _ hw => rw [hi] at hw; cases hw
  | setBuf _ _ _ ih | setCt _ _ _ ih | setTree _ _ _ _ ih | setDecode _ _ ih | latch _ _ ih => exact ih

theorem eqFlag_eq (h : Update i s t) (hi : i.writesEq = false) : t.eq = s.eq := by
  induction h with
  | refl => rfl
  | setEq _ hw => rw [hi] at hw; cases hw
  | setBuf _ _ _ ih | setResult _ _ ih | setCt _ _ _ ih | setTree _ _ _ _ ih | setDecode _ _ ih | latch _ _ ih =>
    exact ih

theorem ct_eq (h : Update i s t) (hi : i.writesCt = false) : t.ct = s.ct := by
  induction h with
  | refl => rfl
  | setCt _ hw => rw [hi] at hw; cases hw
  | setBuf _ _ _ ih | setResult _ _ ih | setEq _ _ _ ih | setTree _ _ _ _ ih | setDecode _ _ ih | latch _ _ ih =>
    exact ih

theorem nodes_eq (h : Update i s t) (hi : i.writesNodes = false) : t.nodes = s.nodes := by
  induction h with
  | refl => rfl
  | setTree _ hn _ _ ih =>
    rcases hn with hw | rfl
    · rw [hi] at hw; cases hw
    · exact ih
  | setBuf _ _ _ ih | setResult _ _ ih | setEq _ _ _ ih | setCt _ _ _ ih | setDecode _ _ ih | latch _ _ ih => exact ih

theorem root_eq (h : Update i s t) (hi : i.writesRoot = false) : t.root = s.root := by
  induction h with
  | refl => rfl
  | setTree _ _ hr _ ih =>
    rcases hr with hw | rfl
    · rw [hi] at hw; cases hw
    · exact ih
  | setBuf _ _ _ ih | setResult _ _ ih | setEq _ _ _ ih | setCt _ _ _ ih | setDecode _ _ ih | latch _ _ ih => exact ih

theorem decode_eq (h : Update i s t) (hi : i.writesDecode = false) :
    t.symCount = s.symCount ∧ t.bitPos = s.bitPos := by
  induction h with
  | refl => exact ⟨rfl, rfl⟩
  | setDecode _ hw => rw [hi] at hw; cases hw
  | setBuf _ _ _ ih | setResult _ _ ih | setEq _ _ _ ih | setCt _ _ _ ih | setTree _ _ _ _ ih | latch _ _ ih => exact ih

/-- The first error wins: only CLRERR changes a latched one (R275, R279). -/
theorem err_eq (h : Update i s t) (hi : i ≠ .clrerr) (hs : s.errCode ≠ .none) :
    t.errCode = s.errCode ∧ t.errInfo = s.errInfo := by
  induction h with
  | refl => exact ⟨rfl, rfl⟩
  | latch _ hc ih =>
    rcases hc with ⟨h0, _⟩ | ⟨h0, _⟩
    · exact absurd (ih.1 ▸ h0) hs
    · exact absurd h0 hi
  | setBuf _ _ _ ih | setResult _ _ ih | setEq _ _ _ ih | setCt _ _ _ ih | setTree _ _ _ _ ih | setDecode _ _ ih =>
    exact ih

/-! What every chain of updates keeps. -/

/-- No error latched means no detail (R24, R261, R275). -/
theorem errInfo_eq_zero (h : Update i s t) (hs : s.errCode = .none → s.errInfo = 0#64) :
    t.errCode = .none → t.errInfo = 0#64 := by
  induction h with
  | refl => exact hs
  | latch _ hc =>
    rcases hc with ⟨_, hc⟩ | ⟨_, hv⟩
    · exact fun h0 => absurd h0 hc
    · exact fun _ => hv
  | setBuf _ _ _ ih | setResult _ _ ih | setEq _ _ _ ih | setCt _ _ _ ih | setTree _ _ _ _ ih | setDecode _ _ ih =>
    exact ih

theorem storeOk (h : Update i s t) (hi : wellFormed s.params.nbuf i = true) (hs : s.StoreOk) : t.StoreOk := by
  induction h with
  | refl => exact hs
  | setBuf hu hd hb ih =>
    refine ih.setBuf ?_ (hb ih)
    rw [hu.sameHostSide.1]
    simpa [bufOk] using bufOk_dst hi hd
  | setCt _ _ hct ih => exact ih.setCt (hct ih)
  | setTree _ _ _ ht ih => exact ih.setTree (ht ih)
  | setResult _ _ ih | setEq _ _ _ ih | setDecode _ _ ih | latch _ _ ih => exact ih

end Update

/-! The bounds that the commands' own writes keep. -/

theorem setLen_grow_ok {n m : Nat} {b : Buf} (h : b.Ok n) (hm : ceil64 m ≤ n) :
    ({ b.grow (ceil64 m) with len := m } : Buf).Ok n := by
  obtain ⟨-, hec⟩ := Buf.grow_ok h hm
  refine ⟨?_, hec⟩
  change m ≤ 64 * (b.grow (ceil64 m)).ec
  rw [Buf.ec_grow]
  simp only [ceil64]
  omega

/-- The L ≤ 255 path bits of an entry fit an empty buffer, BUF_WORDS being at least 4 (R182). -/
theorem append_entry_ok {n : Nat} (hn : 4 ≤ n) (e : Entry) : (Buf.empty.append e.bits).Ok n := by
  refine Buf.append_ok (Buf.empty_ok n) _ ?_
  have := e.len.isLt
  simp only [Buf.needs, Buf.empty, ceil64, Entry.length_bits]
  omega

theorem ofCode_bits_ok {b : Buf} (h1 : 1 ≤ b.len) (h : b.len ≤ maxPath) : (Entry.ofCode b.bits).Ok :=
  Entry.ofCode_ok _ (by rw [← List.length_pos_iff, Buf.length_bits]; exact h1) (by rwa [Buf.length_bits])

/-- A root stays allocated when NODE_COUNT does not fall. -/
theorem TreeOk.mono {ns ms : List Node} {r : NodeIdx} (h : TreeOk ns r) (hle : ns.length ≤ ms.length)
    (hcap : ms.length ≤ nodeCap) : TreeOk ms r :=
  ⟨hcap, h.2.imp id fun hr => lt_of_lt_of_le hr hle⟩

/-! The errors that the walks answer are errors. -/

theorem walkVisit_error_ne_none {nodes : List Node} {fuel : Nat} {n : NodeIdx} {route : List Bool} {w : Walk}
    {e : WalkError} (h : walkVisit nodes fuel n route w = .error e) : e.code ≠ .none := by
  induction fuel generalizing n route w with
  | zero => cases h; simp
  | succ fuel ih =>
    have edge : ∀ {c : NodeIdx} {x : Bool} {w : Walk},
        walkEdge c route (walkVisit nodes fuel c (route ++ [x])) w = .error e → e.code ≠ .none := by
      intro c x w h
      unfold walkEdge at h
      split at h
      · cases h
      split at h
      · cases h; simp
      · exact ih h
    rw [walkVisit] at h
    split at h
    · cases h; simp
    split at h
    · cases h; simp
    simp only at h
    split at h
    · unfold walkLeaf at h
      split at h
      · cases h; simp
      split at h
      · cases h; simp
      · cases h
    · split at h
      · next he => cases h; exact edge he
      · exact edge h

theorem tinsFollow_error_ne_none {nodes : List Node} {n : NodeIdx} {j : Nat} {xs : List Bool} {c : ErrCode} {k : Nat}
    (h : tinsFollow nodes n j xs = .error (c, k)) : c ≠ .none := by
  induction xs generalizing n j with
  | nil => cases h; decide
  | cons x xs ih =>
    simp only [tinsFollow] at h
    split at h
    · cases h
    split at h
    · cases h; decide
    split at h
    · cases h; decide
    · exact ih h

theorem decLoop_error_ne_none {bufWords : Nat} {nodes : List Node} {root : NodeIdx} {i : Nat} {xs : List Bool}
    {k k' : Decoding} {c : ErrCode} {n : Nat} (h : decLoop bufWords nodes root i xs k = (k', some (c, n))) :
    c ≠ .none := by
  induction xs generalizing i k with
  | nil => cases h
  | cons x xs ih =>
    simp only [decLoop] at h
    split at h
    · cases h; decide
    split at h
    · cases h; decide
    split at h
    · split at h
      · cases h; decide
      · exact ih h
    · exact ih h

/-! The commands as updates. -/

variable {s t : State} {d b : BufIdx}

theorem update_bsetlen (h : execBsetlen d s = .next t) : Update (.bsetlen d) s t := by
  rcases execBsetlen_cases h with ⟨_, rfl⟩ | ⟨hm, rfl⟩
  · exact Update.refl.raise (by decide) _
  · exact Update.refl.setBuf rfl fun hs => setLen_grow_ok (hs.buf_ok d) hm

theorem update_bwrw (h : execBwrw d s = .next t) : Update (.bwrw d) s t := by
  rcases execBwrw_cases h with ⟨_, rfl⟩ | ⟨hm, rfl⟩
  · exact Update.refl.raise (by decide) _
  · exact Update.refl.setBuf rfl fun hs => Buf.memWrite_ok (Buf.grow_ok (hs.buf_ok d) hm) _ _

theorem update_putAt {i : Instr} (hd : i.dst? = some d) {x : Bool} (h : s.putAt d x = .next t) : Update i s t := by
  rcases State.putAt_cases h with ⟨_, rfl⟩ | ⟨hm, rfl⟩
  · exact Update.refl.raise (by decide) _
  · exact Update.refl.setBuf hd fun hs => Buf.put_ok (Buf.grow_ok (hs.buf_ok d) hm) _ _

theorem update_bapp (h : execBapp d s = .next t) : Update (.bapp d) s t := by
  rcases execBapp_cases h with ⟨_, rfl⟩ | ⟨_, h⟩
  · exact Update.refl.raise (by decide) _
  · exact Update.appendTo rfl h

theorem update_benc (h : execBenc d s = .next t) : Update (.benc d) s t := by
  rcases execBenc_cases h with ⟨_, rfl⟩ | ⟨_, _, rfl⟩ | ⟨_, _, h⟩
  · exact Update.refl.raise (by decide) _
  · exact Update.refl.raise (by decide) _
  · exact Update.appendTo rfl h

theorem update_ctwr (h : execCtwr b s = .next t) : Update (.ctwr b) s t := by
  rcases execCtwr_cases h with ⟨_, rfl⟩ | ⟨_, _, rfl⟩ | ⟨_, h1, hmax, rfl⟩
  · exact Update.refl.raise (by decide) _
  · exact Update.refl.raise (by decide) _
  · exact Update.refl.setCt rfl fun hs => ctSet_ok hs.ct_ok (ofCode_bits_ok h1 hmax) _

theorem update_ctrd (h : execCtrd d s = .next t) : Update (.ctrd d) s t := by
  rcases execCtrd_cases h with ⟨_, rfl⟩ | ⟨_, _, rfl⟩ | ⟨_, _, rfl⟩
  · exact Update.refl.raise (by decide) _
  · exact (Update.refl.setBuf rfl fun _ => Buf.empty_ok _).setResult rfl
  · exact (Update.refl.setBuf rfl fun hs => append_entry_ok hs.four_le_bufWords _).setResult rfl

theorem update_walk (h : execWalk s = .next t) : Update .walk s t := by
  have table : ∀ y, (ctGet (walkedTable (walkTree s.nodes s.root)) y).Ok :=
    walkVisit_ok (by decide) ctEmpty_ok
  rcases execWalk_cases h with ⟨_, rfl⟩ | ⟨w, _, hw, rfl⟩ | ⟨e, _, he, rfl⟩
  · exact (Update.refl.setCt rfl fun _ => ctEmpty_ok).raise (by decide) _
  · rw [hw] at table
    exact Update.refl.setCt rfl fun _ => table
  · rw [he] at table
    exact (Update.refl.setCt rfl fun _ => table).raise (walkVisit_error_ne_none he) _

theorem update_tins (h : execTins b s = .next t) : Update (.tins b) s t := by
  rcases execTins_cases h with ⟨_, rfl⟩ | ⟨_, _, rfl⟩ | ⟨_, _, _, h⟩
  · exact Update.refl.raise (by decide) _
  · exact Update.refl.raise (by decide) _
  rcases h with ⟨_, rfl⟩ | ⟨_, _, rfl⟩ | ⟨c, n, _, _, hf, rfl⟩ | ⟨n, xs, _, _, _, _, rfl⟩ |
    ⟨n, xs, _, _, _, hcap, rfl⟩
  · exact Update.refl.raise (by decide) _
  · exact Update.refl.raise (by decide) _
  · exact Update.refl.raise (tinsFollow_error_ne_none hf) _
  · exact Update.refl.raise (by decide) _
  · refine Update.setNodes rfl fun hs => hs.treeOk.mono ?_ ?_
    · rw [length_tinsCreate]; omega
    · rwa [length_tinsCreate]

theorem update_nwr (h : execNwr s = .next t) : Update .nwr s t := by
  rcases execNwr_cases h with ⟨_, rfl⟩ | ⟨_, _, rfl⟩ | ⟨_, hk, rfl⟩
  · exact Update.refl.raise (by decide) _
  · exact Update.refl.raise (by decide) _
  · refine Update.setNodes rfl fun hs => hs.treeOk.mono ?_ ?_
    · rw [List.length_set, length_growNodes]; omega
    · have := hs.treeOk.1
      rw [List.length_set, length_growNodes]; omega

theorem update_nrd (h : execNrd s = .next t) : Update .nrd s t := by
  rcases execNrd_cases h with ⟨_, rfl⟩ | ⟨_, rfl⟩
  · exact Update.refl.raise (by decide) _
  · exact Update.refl.setResult rfl

theorem update_troot (h : execTroot s = .next t) : Update .troot s t := by
  rcases execTroot_cases h with ⟨_, rfl⟩ | ⟨hk, rfl⟩
  · exact Update.refl.raise (by decide) _
  · refine Update.setRoot rfl fun hs => ⟨hs.treeOk.1, .inr ?_⟩
    have hcap : s.nodes.length ≤ 511 := hs.treeOk.1
    have hlt : s.a0 < s.nodes.length := hk
    rw [BitVec.toNat_ofNat]
    omega

theorem update_decoded {k : Decoding} (hk : s.StoreOk → k.out.Ok s.params.bufWords) :
    Update (.dec d b) s (s.decoded d k) :=
  ((Update.refl.setBuf rfl hk).setDecode rfl).setResult rfl

theorem update_dec (h : execDec d b s = .next t) : Update (.dec d b) s t := by
  rcases execDec_cases h with ⟨_, rfl⟩ | ⟨_, _, rfl⟩ | ⟨_, _, k, e, hk, h⟩
  · exact Update.refl.raise (by decide) _
  · exact Update.refl.raise (by decide) _
  have out_ok : s.StoreOk → k.out.Ok s.params.bufWords := fun hs => by
    simpa only [hk] using decLoop_ok (nodes := s.nodes) (root := s.root) (i := 0) (xs := (s.buf b).bits)
      (k := ⟨s.buf d, 0, s.root, 0⟩) (hs.buf_ok d)
  rcases h with ⟨c, n, rfl, rfl⟩ | ⟨_, _, rfl⟩ | ⟨_, _, rfl⟩
  · exact (update_decoded out_ok).raise (decLoop_error_ne_none hk) _
  · exact (update_decoded out_ok).raise (by decide) _
  · exact update_decoded out_ok

/-- Whatever a command answers, it got there by updates within its footprint and the bounds of the memories. -/
theorem exec_update {i : Instr} (h : exec i s = .next t) : Update i s t := by
  cases i with
  | nop => exact next_inj h ▸ .refl
  | clrerr => exact next_inj h ▸ Update.refl.latch (.inr ⟨rfl, rfl⟩)
  | bclr d => exact next_inj h ▸ Update.refl.setBuf rfl fun _ => Buf.empty_ok _
  | bsetlen d => exact update_bsetlen h
  | bwrw d => exact update_bwrw h
  | bset d => exact update_putAt rfl h
  | bunset d => exact update_putAt rfl h
  | bapp d => exact update_bapp h
  | bappb d b => exact Update.appendTo rfl h
  | benc d => exact update_benc h
  | brdw b => exact next_inj h ▸ Update.refl.setResult rfl
  | bget b => exact next_inj h ▸ Update.refl.setResult rfl
  | bshl d => exact next_inj h ▸ Update.refl.setBuf rfl fun hs => by simpa [Buf.Ok] using hs.buf_ok d
  | bshr d => exact next_inj h ▸ Update.refl.setBuf rfl fun hs => by simpa [Buf.Ok] using hs.buf_ok d
  | band d b => exact next_inj h ▸ Update.refl.setBuf rfl fun hs => by simpa [Buf.Ok] using hs.buf_ok d
  | bor d b => exact next_inj h ▸ Update.refl.setBuf rfl fun hs => by simpa [Buf.Ok] using hs.buf_ok d
  | beqp d b => exact next_inj h ▸ Update.refl.setEq rfl rfl
  | beq d b => exact next_inj h ▸ Update.refl.setEq rfl rfl
  | ctclr => exact next_inj h ▸ Update.refl.setCt rfl fun _ => ctEmpty_ok
  | ctwr b => exact update_ctwr h
  | ctrd d => exact update_ctrd h
  | walk => exact update_walk h
  | tclr => exact next_inj h ▸ Update.refl.setTree (.inl rfl) (.inl rfl) fun _ => ⟨by decide, .inl rfl⟩
  | trst => exact next_inj h ▸ Update.refl.setTree (.inl rfl) (.inl rfl) fun _ => ⟨by decide, .inr (by decide)⟩
  | tins b => exact update_tins h
  | nwr => exact update_nwr h
  | nrd => exact update_nrd h
  | troot => exact update_troot h
  | dec d b => exact update_dec h

end Sys2Proof.Machine
end

section
/-! PROOFS. One step of one agent, said once: which move it was and what the move left. -/
namespace Sys2Proof.Machine

variable {s t : State}

/-- What the engine's turn can do: nothing to an idle block, else it performs the latched word and BUSY falls (R27). -/
theorem engineStep_cases (h : engineStep s = .next t) :
    (s.busy = false ∧ t = s) ∨ (s.busy = true ∧ ∃ u, perform s = .next u ∧ t = u.setBusy false) := by
  unfold engineStep at h
  split at h
  · next hb =>
    cases hp : perform s with
    | next u => rw [hp] at h; exact .inr ⟨hb, u, rfl, next_inj h⟩
    | fault f => cases f
    | refused r => rw [hp] at h; cases h
  · next hb => exact .inl ⟨by simpa using hb, next_inj h⟩

/-- What the engine makes of the latched word: nothing of a blocked one, a raise of a word that is no command, else the
command (R89, R276). -/
theorem perform_cases (h : perform s = .next t) :
    t = s ∨ (s.lblk = false ∧ ∃ e, decode s.params.nbuf s.lcmd = .error e ∧
      t = s.raise (errCodeOf e) (errInfoOf s.lcmd e)) ∨
    (s.lblk = false ∧ ∃ i, decode s.params.nbuf s.lcmd = .ok i ∧ exec i s = .next t) := by
  cases hb : s.lblk with
  | true => rw [perform, if_pos hb] at h; exact .inl (next_inj h)
  | false =>
    cases hd : decode s.params.nbuf s.lcmd with
    | error e => rw [perform_of_error hb hd] at h; exact .inr (.inl ⟨rfl, e, rfl, next_inj h⟩)
    | ok i => rw [perform_of_ok hb hd] at h; exact .inr (.inr ⟨rfl, i, rfl, h⟩)

/-- What a host write can do: CMD, ARG0 and ARG1 take the value, any other write is ignored (R22). -/
theorem State.hostWrite_cases (s : State) (off : Nat) (v : Word) :
    s.hostWrite off v = s ∨ s.hostWrite off v = s.writeCmd v ∨ s.hostWrite off v = s.setArg0 v ∨
      s.hostWrite off v = s.setArg1 v := by
  unfold State.hostWrite
  split
  · exact .inr (.inl rfl)
  · exact .inr (.inr (.inl rfl))
  · exact .inr (.inr (.inr rfl))
  · exact .inl rfl

theorem State.writeCmd_cases (s : State) (w : Word) :
    (s.busy = true ∧ s.writeCmd w = s.raise .busyOverrun w.toNat) ∨ (s.busy = false ∧ s.writeCmd w = s.issue w) := by
  cases hb : s.busy <;> simp [State.writeCmd, hb]

/-- What a host read touches: the model's own fields alone (R70). -/
theorem State.hostRead_frame (s : State) (off : Nat) :
    ∃ v k, s.hostRead off = { s with rdata := v, draws := k } := by
  unfold State.hostRead
  split
  · exact ⟨0#64, s.draws, rfl⟩
  · next r _ =>
    split
    · exact ⟨s.regValue r, s.draws, rfl⟩
    · exact ⟨s.readReg r, s.draws + 1, rfl⟩

/-- Every step is one move: the engine's turn, a whole write, a whole read, or a reset (R20, R67). -/
theorem step_cases (h : step s = .next t) :
    (∃ ms, engineStep (s.setAgenda ms) = .next t) ∨
    (∃ ms off v, t = (s.setAgenda ms).hostWrite off v) ∨
    (∃ ms off, t = (s.setAgenda ms).hostRead off) ∨
    (∃ ms c, s.agenda = .reset c :: ms ∧ t = (s.setAgenda ms).resetBlock) := by
  unfold step agentStep at h
  split at h
  · next ha => exact .inl ⟨[], by rwa [State.setAgenda, ← ha]⟩
  · next ms _ => exact .inl ⟨ms, h⟩
  · next off bytes v ms _ =>
    split at h
    · exact .inr (.inl ⟨ms, off, v, next_inj h⟩)
    · cases h
  · next off bytes ms _ =>
    split at h
    · exact .inr (.inr (.inl ⟨ms, off, next_inj h⟩))
    · cases h
  · next c ms ha => exact .inr (.inr (.inr ⟨ms, c, ha, next_inj h⟩))

/-! A word that decodes names buffers of the block (R87). -/

theorem decode_ok_wellFormed {nbuf : Nat} {w : Word} {i : Instr} (h : decode nbuf w = .ok i) :
    wellFormed nbuf i = true := by
  unfold decode at h
  split at h
  · cases h
  next j hl =>
  obtain ⟨-, hd, hb⟩ := lookup_cases hl
  split at h
  · cases h
  split at h
  · cases h
  split at h
  · cases h
  split at h
  · cases h
  next hdr =>
  split at h
  · cases h
  next hbr =>
  cases h
  rw [usesD_format] at hdr
  rw [usesS_format] at hbr
  have hd' : bufOk nbuf i.dst? = true := by
    rcases hd with hd | hd <;> simp_all [bufOk]
  have hb' : bufOk nbuf i.src? = true := by
    rcases hb with hb | hb <;> simp_all [bufOk]
  rw [wellFormed, hd', hb']
  rfl

/-! The invariant along one move. -/

theorem errCodeOf_ne_none (e : DecodeError) : errCodeOf e ≠ .none := by cases e <;> decide

theorem perform_keeps (hs : s.Inv) (h : perform s = .next t) :
    t.StoreOk ∧ (t.errCode = .none → t.errInfo = 0#64) := by
  obtain ⟨hstore, hlatch⟩ := s.inv_iff.mp hs
  have hinfo : s.errCode = .none → s.errInfo = 0#64 := fun h0 => (hlatch h0).1
  rcases perform_cases h with rfl | ⟨_, e, _, rfl⟩ | ⟨_, i, hd, hx⟩
  · exact ⟨hstore, hinfo⟩
  · exact ⟨hstore.raise _ _, fun h0 => absurd h0 (s.raise_errCode_ne_none (errCodeOf_ne_none e) _)⟩
  · have hu := exec_update hx
    exact ⟨hu.storeOk (decode_ok_wellFormed hd) hstore, hu.errInfo_eq_zero hinfo⟩

theorem engineStep_keeps_inv (hs : s.Inv) (h : engineStep s = .next t) : t.Inv := by
  rcases engineStep_cases h with ⟨_, rfl⟩ | ⟨_, u, hp, rfl⟩
  · exact hs
  · obtain ⟨hstore, hinfo⟩ := perform_keeps hs hp
    exact (State.inv_iff _).mpr ⟨hstore, fun h0 => ⟨hinfo h0, by simp⟩⟩

/-- An issue blocks the word only while an error is latched (R26). -/
theorem State.issue_inv (hs : s.Inv) (w : Word) : (s.issue w).Inv := by
  obtain ⟨hstore, hlatch⟩ := s.inv_iff.mp hs
  refine (State.inv_iff _).mpr ⟨hstore, fun h0 => ⟨(hlatch h0).1, ?_⟩⟩
  have h0 : s.errCode = .none := h0
  simp [State.issue, State.blocks, h0]

theorem State.writeCmd_inv (hs : s.Inv) (w : Word) : (s.writeCmd w).Inv := by
  rcases s.writeCmd_cases w with ⟨_, h⟩ | ⟨_, h⟩
  · obtain ⟨hstore, -⟩ := s.inv_iff.mp hs
    rw [h]
    exact (State.inv_iff _).mpr ⟨hstore.raise _ _, fun h0 => absurd h0 (s.raise_errCode_ne_none (by decide) _)⟩
  · rw [h]; exact State.issue_inv hs w

theorem State.hostWrite_inv (hs : s.Inv) (off : Nat) (v : Word) : (s.hostWrite off v).Inv := by
  rcases s.hostWrite_cases off v with h | h | h | h <;> rw [h]
  · exact hs
  · exact State.writeCmd_inv hs v
  · exact hs
  · exact hs

theorem State.hostRead_inv (hs : s.Inv) (off : Nat) : (s.hostRead off).Inv := by
  obtain ⟨v, k, h⟩ := s.hostRead_frame off
  rw [h]
  exact hs

theorem State.resetWith_inv {p : Params} (hp : p.Legal) : (State.resetWith p).Inv := by
  refine (State.inv_iff _).mpr ⟨⟨hp, ⟨fun b => ?_, fun b _ => ?_, fun k => ?_, by simp [State.resetWith]⟩, .inl rfl⟩,
    fun _ => ⟨rfl, by simp [State.resetWith]⟩⟩
  · simpa [State.resetWith] using Buf.empty_ok p.bufWords
  · simp [State.resetWith]
  · simpa [State.resetWith] using Entry.invalid_ok

theorem configParams_legal : Config.params.Legal := by
  simp only [Params.Legal, Config.params, Config.bufWords]
  omega

theorem step_keeps_inv (hs : s.Inv) (h : step s = .next t) : t.Inv := by
  rcases step_cases h with ⟨ms, he⟩ | ⟨ms, off, v, rfl⟩ | ⟨ms, off, rfl⟩ | ⟨ms, c, _, rfl⟩
  · exact engineStep_keeps_inv (s := s.setAgenda ms) hs he
  · exact State.hostWrite_inv (s := s.setAgenda ms) hs off v
  · exact State.hostRead_inv (s := s.setAgenda ms) hs off
  · exact State.resetWith_inv hs.1

/-! PARAMS and a latched error along one move. -/

theorem perform_params (h : perform s = .next t) : t.params = s.params := by
  rcases perform_cases h with rfl | ⟨_, e, _, rfl⟩ | ⟨_, i, _, hx⟩
  · rfl
  · exact s.raise_params _ _
  · exact (exec_update hx).sameHostSide.1

theorem engineStep_params (h : engineStep s = .next t) : t.params = s.params := by
  rcases engineStep_cases h with ⟨_, rfl⟩ | ⟨_, u, hp, rfl⟩
  · rfl
  · have hu : u.params = s.params := perform_params hp
    exact hu

theorem State.hostWrite_params (s : State) (off : Nat) (v : Word) : (s.hostWrite off v).params = s.params := by
  rcases s.hostWrite_cases off v with h | h | h | h <;> rw [h]
  · rcases s.writeCmd_cases v with ⟨_, h⟩ | ⟨_, h⟩ <;> rw [h]
    · exact s.raise_params _ _
    · rfl
  · rfl
  · rfl

theorem step_params (h : step s = .next t) : t.params = s.params := by
  rcases step_cases h with ⟨ms, he⟩ | ⟨ms, off, v, rfl⟩ | ⟨ms, off, rfl⟩ | ⟨ms, c, _, rfl⟩
  · exact engineStep_params (s := s.setAgenda ms) he
  · exact State.hostWrite_params _ off v
  · obtain ⟨v, k, h⟩ := (s.setAgenda ms).hostRead_frame off
    rw [h]
    rfl
  · rfl

/-- The engine changes a latched error by a CLRERR that is not blocked, and by nothing else (R279). -/
theorem engineStep_latched (h : engineStep s = .next t) (hs : s.errCode ≠ .none) :
    (t.errCode = s.errCode ∧ t.errInfo = s.errInfo) ∨
    (s.busy = true ∧ s.lblk = false ∧ decode s.params.nbuf s.lcmd = .ok .clrerr ∧
      t.errCode = .none ∧ t.errInfo = 0#64) := by
  rcases engineStep_cases h with ⟨_, rfl⟩ | ⟨hb, u, hp, rfl⟩
  · exact .inl ⟨rfl, rfl⟩
  rcases perform_cases hp with rfl | ⟨_, e, _, rfl⟩ | ⟨hl, i, hd, hx⟩
  · exact .inl ⟨rfl, rfl⟩
  · rw [State.raise_of_latched hs]
    exact .inl ⟨rfl, rfl⟩
  · by_cases hi : i = .clrerr
    · subst hi
      cases next_inj hx
      exact .inr ⟨hb, hl, hd, rfl, rfl⟩
    · exact .inl ((exec_update hx).err_eq hi hs)

theorem State.hostWrite_latched (hs : s.errCode ≠ .none) (off : Nat) (v : Word) :
    (s.hostWrite off v).errCode = s.errCode ∧ (s.hostWrite off v).errInfo = s.errInfo := by
  rcases s.hostWrite_cases off v with h | h | h | h <;> rw [h]
  · exact ⟨rfl, rfl⟩
  · rcases s.writeCmd_cases v with ⟨_, h⟩ | ⟨_, h⟩ <;> rw [h]
    · rw [State.raise_of_latched hs]
      exact ⟨rfl, rfl⟩
    · exact ⟨rfl, rfl⟩
  · exact ⟨rfl, rfl⟩
  · exact ⟨rfl, rfl⟩

end Sys2Proof.Machine
end

section
/-! PROOFS. RESULT and EQ: where the commands that may write RESULT leave it, and that no command reads EQ. -/
namespace Sys2Proof.Machine

open Sys2Proof.Claims

/-- CTRD leaves RESULT when its symbol is out of range (R28, R182). -/
theorem execCtrd_result {d : BufIdx} {s t : State} (h : execCtrd d s = .next t) (ha : 255 < s.a0) :
    t.result = s.result := by
  rcases execCtrd_cases h with ⟨_, rfl⟩ | ⟨hle, _⟩ | ⟨hle, _⟩
  · exact s.raise_result _ _
  · omega
  · omega

/-- NRD leaves RESULT when its index is not allocated (R28, R217). -/
theorem execNrd_result {s t : State} (h : execNrd s = .next t) (ha : s.nodeCount ≤ s.a0) : t.result = s.result := by
  rcases execNrd_cases h with ⟨_, rfl⟩ | ⟨hlt, _⟩
  · exact s.raise_result _ _
  · omega

/-- DEC leaves RESULT at its two start checks and else writes it with SYMCOUNT (R28, R240). -/
theorem execDec_result {d b : BufIdx} {s t : State} (h : execDec d b s = .next t) :
    (d = b ∨ s.root = NodeIdx.null → t.result = s.result) ∧
    (d ≠ b → s.root ≠ NodeIdx.null → t.result = t.symCount) := by
  rcases execDec_cases h with ⟨hd, rfl⟩ | ⟨_, hr, rfl⟩ | ⟨hd, hr, k, e, _, h⟩
  · exact ⟨fun _ => s.raise_result _ _, fun hne => absurd hd hne⟩
  · exact ⟨fun _ => s.raise_result _ _, fun _ hne => absurd hr hne⟩
  refine ⟨fun hor => absurd hor (not_or_intro hd hr), fun _ _ => ?_⟩
  rcases h with ⟨c, n, _, rfl⟩ | ⟨_, _, rfl⟩ | ⟨_, _, rfl⟩
  · simp [State.decoded]
  · simp [State.decoded]
  · rfl

/-! EQ is not read: a meaning with another EQ gives the same outcome with that EQ. -/

/-- The state with another EQ. -/
def State.withEq (e : Bool) (s : State) : State := { s with eq := e }

/-- Two answers differ in EQ alone. -/
def EqApart (e : Bool) (o o' : Out) : Prop := o' = mapNext (State.withEq e) o

theorem EqApart.next (e : Bool) (s : State) : EqApart e (.next s) (.next (s.withEq e)) := rfl

theorem EqApart.ite {e : Bool} {c : Prop} [Decidable c] {x x' y y' : Out} (hx : EqApart e x x') (hy : EqApart e y y') :
    EqApart e (if c then x else y) (if c then x' else y') := by
  split
  · exact hx
  · exact hy

variable (e : Bool) (s : State)

theorem State.raise_withEq (c : ErrCode) (n : Nat) : (s.withEq e).raise c n = (s.raise c n).withEq e := by
  by_cases h : s.errCode = .none
  · rcases s.raise_cases c n with ⟨h', _⟩ | ⟨_, hn, hr⟩ | ⟨_, hn, hr⟩
    · exact absurd h h'
    · rw [hr, State.raise_of_fits (s := s.withEq e) h c hn]; rfl
    · rw [hr, State.raise, if_pos (show (s.withEq e).errCode = .none from h), if_neg (by omega)]; rfl
  · rw [State.raise_of_latched h, State.raise_of_latched (s := s.withEq e) h]

theorem State.fail_eqApart (c : ErrCode) (n : Nat) : EqApart e (s.fail c n) ((s.withEq e).fail c n) := by
  rw [State.fail, State.fail, State.raise_withEq]
  rfl

theorem State.appendTo_eqApart (d : BufIdx) (xs : List Bool) :
    EqApart e (s.appendTo d xs) ((s.withEq e).appendTo d xs) :=
  .ite (s.fail_eqApart e _ _) (.next e _)

theorem State.putAt_eqApart (d : BufIdx) (x : Bool) : EqApart e (s.putAt d x) ((s.withEq e).putAt d x) :=
  .ite (s.fail_eqApart e _ _) (.next e _)

variable {e s}

theorem State.withSymbol_eqApart {k k' : Byte → Out} (hk : ∀ y, EqApart e (k y) (k' y)) :
    EqApart e (s.withSymbol k) ((s.withEq e).withSymbol k') :=
  .ite (s.fail_eqApart e _ _) (hk _)

theorem State.withPath_eqApart {b : BufIdx} {k k' : List Bool → Out} (hk : ∀ xs, EqApart e (k xs) (k' xs)) :
    EqApart e (s.withPath b k) ((s.withEq e).withPath b k') :=
  .ite (s.fail_eqApart e _ _) (hk _)

theorem State.withNode_eqApart {k k' : NodeIdx → Out} (hk : ∀ n, EqApart e (k n) (k' n)) :
    EqApart e (s.withNode k) ((s.withEq e).withNode k') :=
  .ite (s.fail_eqApart e _ _) (hk _)

variable (e s)

theorem execWalk_eqApart : EqApart e (execWalk s) (execWalk (s.withEq e)) := by
  refine .ite ((s.setCt ctEmpty).fail_eqApart e _ _) ?_
  change EqApart e _ (match walkTree s.nodes s.root with
    | .ok w => .next ((s.setCt w.ct).withEq e)
    | .error x => ((s.setCt x.ct).withEq e).fail x.code x.info)
  cases walkTree s.nodes s.root with
  | ok w => exact .next e _
  | error x => exact (s.setCt x.ct).fail_eqApart e _ _

theorem execTins_eqApart (b : BufIdx) : EqApart e (execTins b s) (execTins b (s.withEq e)) := by
  refine State.withSymbol_eqApart fun y => State.withPath_eqApart fun xs => ?_
  refine .ite (s.fail_eqApart e _ _) (.ite (s.fail_eqApart e _ _) ?_)
  change EqApart e _ (match tinsFollow s.nodes s.root 0 xs with
    | .error (c, n) => (s.withEq e).fail c n
    | .ok (n, rest) => if s.nodeCount + rest.length > nodeCap then
        (s.withEq e).fail .capacity (s.nodeCount + rest.length)
      else .next ((s.setNodes (tinsCreate y s.nodes n rest)).withEq e))
  rcases tinsFollow s.nodes s.root 0 xs with ⟨c, n⟩ | ⟨n, rest⟩
  · exact s.fail_eqApart e _ _
  · exact .ite (s.fail_eqApart e _ _) (.next e _)

theorem execDec_eqApart (d b : BufIdx) : EqApart e (execDec d b s) (execDec d b (s.withEq e)) := by
  refine .ite (s.fail_eqApart e _ _) (.ite (s.fail_eqApart e _ _) ?_)
  change EqApart e _ (match decLoop s.params.bufWords s.nodes s.root 0 (s.buf b).bits ⟨s.buf d, 0, s.root, 0⟩ with
    | (k, some (c, n)) => ((s.decoded d k).withEq e).fail c n
    | (k, none) => if k.start ≠ (s.buf b).len then ((s.decoded d k).withEq e).fail .decodeTrailing k.start
      else .next ((s.decoded d k).withEq e))
  rcases decLoop s.params.bufWords s.nodes s.root 0 (s.buf b).bits ⟨s.buf d, 0, s.root, 0⟩ with ⟨k, _ | ⟨c, n⟩⟩
  · exact .ite ((s.decoded d k).fail_eqApart e _ _) (.next e _)
  · exact (s.decoded d k).fail_eqApart e _ _

/-- A command that does not write EQ does not read it (R29). -/
theorem exec_eqApart {i : Instr} (hi : i.writesEq = false) : EqApart e (exec i s) (exec i (s.withEq e)) := by
  cases i with
  | beqp | beq => cases hi
  | nop | bclr | brdw | bget | bshl | bshr | band | bor | ctclr | tclr | trst | clrerr => exact .next e _
  | bsetlen | bwrw => exact .ite (s.fail_eqApart e _ _) (.next e _)
  | bset | bunset => exact s.putAt_eqApart e _ _
  | bapp => exact .ite (s.fail_eqApart e _ _) (s.appendTo_eqApart e _ _)
  | bappb => exact s.appendTo_eqApart e _ _
  | benc =>
    exact State.withSymbol_eqApart fun _ => .ite (s.appendTo_eqApart e _ _) (s.fail_eqApart e _ _)
  | ctwr => exact State.withSymbol_eqApart fun _ => State.withPath_eqApart fun _ => .next e _
  | ctrd => exact State.withSymbol_eqApart fun _ => .ite (.next e _) (.next e _)
  | walk => exact execWalk_eqApart e s
  | tins b => exact execTins_eqApart e s b
  | nwr => exact .ite (s.fail_eqApart e _ _) (.ite (s.fail_eqApart e _ _) (.next e _))
  | nrd | troot => exact State.withNode_eqApart fun _ => .next e _
  | dec d b => exact execDec_eqApart e s d b

theorem finish_eq_mapNext (o : Out) : finish o = mapNext (fun t => { t with busy := false }) o := by
  cases o <;> rfl

end Sys2Proof.Machine
end

section
/-! PROOFS. The register window: the map of offsets, and that the table of R22 lays out the registers' values. -/
namespace Sys2Proof.Machine

open Sys2Proof.Claims

/-! The map of R22. -/

theorem regAt_some {nbuf off : Nat} {r : Reg} (h : regAt nbuf off = some r) : r ∈ Reg.all nbuf ∧ r.offset = off :=
  ⟨List.mem_of_find?_eq_some h, by simpa using List.find?_some h⟩

theorem regAt_none {nbuf off : Nat} (h : regAt nbuf off = none) {r : Reg} (hr : r ∈ Reg.all nbuf) :
    r.offset ≠ off := by
  simpa using List.find?_eq_none.mp h r hr

/-- The buffer of a register, if it is one of a buffer. -/
def Reg.buf? : Reg → Option BufIdx
  | .blen b | .ecnt b => some b
  | .cmd | .arg0 | .arg1 | .result | .status | .errCode | .errInfo | .params | .root | .nodeCount | .symCount
  | .bitPos => none

/-- The map lists every register but those of a buffer the block has not (R22, R45). -/
theorem mem_regAll {nbuf : Nat} (hn : nbuf ≤ 16) (r : Reg) : r ∈ Reg.all nbuf ↔ bufOk nbuf r.buf? = true := by
  have buffer : ∀ b : BufIdx, (∃ a < nbuf, b = BitVec.ofNat 4 a) ↔ b.toNat < nbuf := by
    intro b
    constructor
    · rintro ⟨a, ha, rfl⟩
      rw [BitVec.toNat_ofNat]
      omega
    · exact fun hb => ⟨b.toNat, hb, by simp⟩
  cases r <;> simp [Reg.all, plainRegs, Reg.buf?, bufOk, ← buffer]

/-- STATUS as the table writes it, by the three bits (R23). -/
theorem State.status_eq (s : State) :
    s.status = BitVec.ofNat 64
      ((if s.busy then 1 else 0) + (if s.errCode = .none then 0 else 2) + (if s.eq then 4 else 0)) := by
  have err : s.err = !decide (s.errCode = .none) := rfl
  rw [State.status, err]
  cases s.busy <;> cases s.eq <;> by_cases h : s.errCode = .none <;> simp [h]

/-- PARAMS as the table writes it (R25). -/
theorem paramsWord_eq {p : Params} (h : p.Legal) : p.word = BitVec.ofNat 64 (p.bufWords * 2 ^ 32 + p.nbuf) := by
  obtain ⟨-, h16, -, hmax⟩ := h
  have hb : p.bufWords % 2 ^ 32 = p.bufWords := Nat.mod_eq_of_lt (by omega)
  have hn : p.nbuf % 2 ^ 8 = p.nbuf := Nat.mod_eq_of_lt (by omega)
  apply BitVec.eq_of_toNat_eq
  rw [Params.word, BitVec.toNat_setWidth, BitVec.toNat_append, BitVec.toNat_append]
  simp only [BitVec.toNat_ofNat, hb, hn, Nat.zero_mod, Nat.zero_shiftLeft, Nat.zero_or]
  rw [← Nat.shiftLeft_add_eq_or_of_lt (by omega), Nat.shiftLeft_eq]

/-- The table's rows of the buffers (R45). -/
theorem windowValue_buffer (s : State) {off : Nat} (h : 0x100 ≤ off ∧ off < 0x100 + 0x10 * s.params.nbuf) :
    windowValue s off =
      if off % 16 = 0 then BitVec.ofNat 64 (s.buf (BitVec.ofNat 4 ((off - 0x100) / 16))).len
      else BitVec.ofNat 64 (s.buf (BitVec.ofNat 4 ((off - 0x100) / 16))).ec := by
  unfold windowValue
  iterate 11 rw [if_neg (by omega)]
  rw [if_pos h]
  rfl

/-- The table's value at the offset of a register is the register's value (R22). -/
theorem windowValue_offset {s : State} (hp : s.params.Legal) {r : Reg} (hr : r ∈ Reg.all s.params.nbuf) :
    windowValue s r.offset = s.regValue r := by
  rw [mem_regAll hp.2.1] at hr
  cases r with
  | cmd => simp [windowValue, Reg.offset, State.regValue]
  | arg0 | arg1 | result | errInfo | nodeCount | symCount | bitPos => rfl
  | status => exact s.status_eq.symm
  | errCode | root => exact BitVec.ofNat_toNat ..
  | params => exact (paramsWord_eq hp).symm
  | blen b =>
    have hb : b.toNat < s.params.nbuf := by simpa [Reg.buf?, bufOk] using hr
    rw [Reg.offset, windowValue_buffer s (by omega), if_pos (by omega)]
    simp [State.regValue]
  | ecnt b =>
    have hb : b.toNat < s.params.nbuf := by simpa [Reg.buf?, bufOk] using hr
    have hq : (0x108 + 0x10 * b.toNat - 0x100) / 16 = b.toNat := by omega
    rw [Reg.offset, windowValue_buffer s (by omega), if_neg (by omega), hq]
    simp [State.regValue]

/-- The table gives 0 at an offset that the map does not list (R22). -/
theorem windowValue_unlisted {s : State} (hp : s.params.Legal) {off : Nat} (h8 : off % 8 = 0)
    (h : regAt s.params.nbuf off = none) : windowValue s off = 0#64 := by
  have unlisted : ∀ r : Reg, bufOk s.params.nbuf r.buf? = true → off ≠ r.offset :=
    fun r hr => (regAt_none h ((mem_regAll hp.2.1 r).mpr hr)).symm
  have noBuffer : ¬ (0x100 ≤ off ∧ off < 0x100 + 0x10 * s.params.nbuf) := by
    rintro ⟨hlo, hhi⟩
    have h16 := hp.2.1
    have hb : (BitVec.ofNat 4 ((off - 0x100) / 16)).toNat = (off - 0x100) / 16 := by rw [BitVec.toNat_ofNat]; omega
    have hok : bufOk s.params.nbuf (some (BitVec.ofNat 4 ((off - 0x100) / 16))) = true := by
      rw [bufOk, Option.all_some, hb, decide_eq_true_eq]; omega
    have hlen := unlisted (.blen _) hok
    have hec := unlisted (.ecnt _) hok
    simp only [Reg.offset, hb] at hlen hec
    omega
  have plain : ∀ r ∈ plainRegs, off ≠ r.offset := fun r hr => (regAt_none h (List.mem_append_left _ hr)).symm
  simp only [plainRegs, List.forall_mem_cons, Reg.offset] at plain
  simp [windowValue, plain, noBuffer]

/-! Host accesses. -/

theorem step_write {s : State} {ms : List Move} {off : Nat} {v : Word} (ha : s.agenda = .write off 8 v :: ms)
    (h8 : off % 8 = 0) : step s = .next ((s.setAgenda ms).hostWrite off v) := by
  simp [step, agentStep, ha, wholeAccess, h8]

theorem step_read {s : State} {ms : List Move} {off : Nat} (ha : s.agenda = .read off 8 :: ms) (h8 : off % 8 = 0) :
    step s = .next ((s.setAgenda ms).hostRead off) := by
  simp [step, agentStep, ha, wholeAccess, h8]

@[simp] theorem State.hostWrite_cmd (s : State) (v : Word) : s.hostWrite 0x000 v = s.writeCmd v := rfl

@[simp] theorem State.hostWrite_arg0 (s : State) (v : Word) : s.hostWrite 0x008 v = s.setArg0 v := rfl

@[simp] theorem State.hostWrite_arg1 (s : State) (v : Word) : s.hostWrite 0x010 v = s.setArg1 v := rfl

/-- A write to any other offset is ignored (R22). -/
theorem State.hostWrite_ignored (s : State) {off : Nat} (v : Word) (h0 : off ≠ 0x000) (h8 : off ≠ 0x008)
    (h10 : off ≠ 0x010) : s.hostWrite off v = s := by
  unfold State.hostWrite
  split
  · next hr => exact absurd (regAt_some hr).2.symm h0
  · next hr => exact absurd (regAt_some hr).2.symm h8
  · next hr => exact absurd (regAt_some hr).2.symm h10
  · rfl

theorem State.blocks_eq (s : State) (w : Word) :
    s.blocks w = decide (s.errCode ≠ .none ∧ w ≠ 0x0#64 ∧ w ≠ 0x7F#64) := by
  simp [State.blocks, bne, beq_eq_decide, Bool.and_assoc]

theorem State.readReg_of_closed {s : State} {r : Reg} (h : s.openBits r = 0#64) : s.readReg r = s.regValue r := by
  rw [State.readReg, h, BitVec.not_zero, BitVec.and_allOnes, BitVec.and_zero, BitVec.or_zero]

theorem State.openBits_of_idle {s : State} (hb : s.busy = false) (r : Reg) : s.openBits r = 0#64 := by
  simp [State.openBits, hb]

theorem State.openBits_of_blocked {s : State} (hl : s.lblk = true) (r : Reg) : s.openBits r = 0#64 := by
  simp [State.openBits, hl]

theorem State.openBits_of_ok {s : State} {i : Instr} (hb : s.busy = true) (hl : s.lblk = false)
    (hd : decode s.params.nbuf s.lcmd = .ok i) (r : Reg) : s.openBits r = s.writeMask i r := by
  simp [State.openBits, hb, hl, hd]

theorem State.openBits_of_error {s : State} {e : DecodeError} (hb : s.busy = true) (hl : s.lblk = false)
    (hd : decode s.params.nbuf s.lcmd = .error e) (r : Reg) : s.openBits r = s.badWordMask r := by
  simp [State.openBits, hb, hl, hd]

theorem State.hostRead_unlisted {s : State} {off : Nat} (h : regAt s.params.nbuf off = none) :
    s.hostRead off = s.setRdata 0#64 := by
  simp [State.hostRead, h]

theorem State.hostRead_rdata {s : State} {off : Nat} {r : Reg} (h : regAt s.params.nbuf off = some r) :
    (s.hostRead off).rdata = s.readReg r := by
  simp only [State.hostRead, h]
  split
  · next ho => rw [State.readReg_of_closed ho]; rfl
  · rfl

/-- A register with no open bit reads as the table says (R22, R27). -/
theorem hostRead_of_closed {s : State} (hp : s.params.Legal) {off : Nat} (h8 : off % 8 = 0)
    (ho : ∀ r, s.openBits r = 0#64) : s.hostRead off = s.setRdata (windowValue s off) := by
  cases hr : regAt s.params.nbuf off with
  | none => rw [State.hostRead_unlisted hr, windowValue_unlisted hp h8 hr]
  | some r =>
    obtain ⟨hmem, rfl⟩ := regAt_some hr
    rw [windowValue_offset hp hmem]
    simp [State.hostRead, hr, ho r]

end Sys2Proof.Machine
end

section
/-! PROOFS. Reads while BUSY = 1: the bits that the listed registers leave open are those the model leaves open. -/
namespace Sys2Proof.Machine

open Sys2Proof.Claims

/-! No two registers share an offset. -/

/-- The register at an offset of the map. -/
def Reg.ofOffset (off : Nat) : Reg :=
  if off < 0x100 then plainRegs.getD (off / 8) .cmd
  else if off % 16 = 0 then .blen (BitVec.ofNat 4 ((off - 0x100) / 16))
  else .ecnt (BitVec.ofNat 4 ((off - 0x100) / 16))

theorem Reg.ofOffset_offset (r : Reg) : Reg.ofOffset r.offset = r := by
  cases r with
  | blen b => rw [Reg.offset, Reg.ofOffset, if_neg (by omega), if_pos (by omega)]; simp
  | ecnt b =>
    have hq : (0x108 + 0x10 * b.toNat - 0x100) / 16 = b.toNat := by omega
    rw [Reg.offset, Reg.ofOffset, if_neg (by omega), if_neg (by omega), hq]
    simp
  | _ => rfl

theorem Reg.offset_injective : Function.Injective Reg.offset :=
  Function.LeftInverse.injective Reg.ofOffset_offset

/-! The open bits of a list of keys with masks. -/

/-- The bits that a list of keys with masks names at a key. -/
def bitsAt {κ : Type} [DecidableEq κ] (l : List (κ × Word)) (k : κ) : Word :=
  l.foldr (fun p m => (if p.1 = k then p.2 else 0#64) ||| m) 0#64

section
variable {κ : Type} [DecidableEq κ]

@[simp] theorem bitsAt_nil (k : κ) : bitsAt [] k = 0#64 := rfl

@[simp] theorem bitsAt_cons (p : κ × Word) (l : List (κ × Word)) (k : κ) :
    bitsAt (p :: l) k = (if p.1 = k then p.2 else 0#64) ||| bitsAt l k := rfl

@[simp] theorem bitsAt_append (l l' : List (κ × Word)) (k : κ) :
    bitsAt (l ++ l') k = bitsAt l k ||| bitsAt l' k := by
  induction l with
  | nil => simp
  | cons p l ih => simp [ih, BitVec.or_assoc]

@[simp] theorem bitsAt_ite {c : Prop} [Decidable c] (l l' : List (κ × Word)) (k : κ) :
    bitsAt (if c then l else l') k = if c then bitsAt l k else bitsAt l' k := by
  split <;> rfl

theorem bitsAt_eq_zero {l : List (κ × Word)} {k : κ} (h : ∀ p ∈ l, p.1 ≠ k) : bitsAt l k = 0#64 := by
  induction l with
  | nil => rfl
  | cons p l ih =>
    obtain ⟨hp, hl⟩ := List.forall_mem_cons.mp h
    simp [hp, ih hl]

end

/-- Registers with masks, as offsets with masks. -/
def atOffsets (l : List (Reg × Word)) : List (Nat × Word) := l.map fun p => (p.1.offset, p.2)

theorem bitsAt_atOffsets (l : List (Reg × Word)) (r : Reg) : bitsAt (atOffsets l) r.offset = bitsAt l r := by
  induction l with
  | nil => rfl
  | cons p l ih =>
    rw [atOffsets, List.map_cons, bitsAt_cons, bitsAt_cons, ← ih]
    simp only [Reg.offset_injective.eq_iff]
    rfl

theorem readsWithOpen_iff (s : State) (l : List (Nat × Word)) (off : Nat) (v : Word) :
    ReadsWithOpen s l off v ↔
      v = (windowValue s off &&& ~~~bitsAt l off) ||| (Config.freeRead s.draws &&& bitsAt l off) := by
  have fold : ∀ m, (l.filter fun r => r.1 == off).foldl (fun m r => m ||| r.2) m = m ||| bitsAt l off := by
    induction l with
    | nil => simp
    | cons p l ih =>
      intro m
      by_cases hp : p.1 = off <;> simp [hp, ih, BitVec.or_assoc]
  rw [ReadsWithOpen, fold, BitVec.zero_or]

/-! What the latched word may write, as registers. -/

/-- The registers of the error latch, with the bits that are not reserved (R23, R24). -/
def errRegs : List (Reg × Word) := [(.status, 0x2#64), (.errCode, 0xFF#64), (.errInfo, BitVec.allOnes 64)]

/-- LEN and EC of the buffer a command writes. -/
def bufRegs : Option (BufIdx × Bool × Bool) → List (Reg × Word)
  | none => []
  | some (d, ec, len) =>
    (if len then [(.blen d, BitVec.allOnes 64)] else []) ++ (if ec then [(.ecnt d, BitVec.allOnes 64)] else [])

/-- The registers in the footprint of a command, with the bits it may write. -/
def writtenRegs (s : State) (i : Instr) : List (Reg × Word) :=
  (if i.writesResult then [(.result, BitVec.allOnes 64)] else []) ++
  (if i.writesEq then [(.status, 0x4#64)] else []) ++
  (if i.writesRoot then [(.root, 0x1FF#64)] else []) ++
  (if i.writesNodes then [(.nodeCount, 0x3FF#64)] else []) ++
  (if i.writesDecode then [(.symCount, BitVec.allOnes 64), (.bitPos, BitVec.allOnes 64)] else []) ++
  bufRegs i.writesBuf ++
  (if s.writesErr i then errRegs else [])

theorem raises_eq (s : State) : raises s = atOffsets (if s.errCode = .none then errRegs else []) := by
  unfold raises
  split <;> rfl

theorem State.writesErr_of_errors {s : State} {i : Instr} (hi : (i == .clrerr) = false)
    (he : i.errors.isEmpty = false) : s.writesErr i = decide (s.errCode = .none) := by
  rw [State.writesErr, hi, he, Bool.false_or, Bool.not_false, Bool.and_true, beq_eq_decide]

theorem State.writesErr_of_no_errors {s : State} {i : Instr} (hi : (i == .clrerr) = false)
    (he : i.errors.isEmpty = true) : s.writesErr i = false := by
  rw [State.writesErr, hi, he, Bool.false_or, Bool.not_true, Bool.and_false]

/-- The statement's rows are the model's footprint. -/
theorem mayWrite_eq (s : State) (i : Instr) : mayWrite s i = atOffsets (writtenRegs s i) := by
  cases i with
  | clrerr => rfl
  | nop | bclr | brdw | bget | bshl | bshr | band | bor | beqp | beq | ctclr | tclr | trst =>
    rw [writtenRegs, State.writesErr_of_no_errors rfl rfl]
    rfl
  | _ =>
    rw [writtenRegs, State.writesErr_of_errors rfl rfl]
    simp only [mayWrite, raises_eq, decide_eq_true_eq]
    rfl

theorem bitsAt_bufRegs_blen (o : Option (BufIdx × Bool × Bool)) (b : BufIdx) :
    bitsAt (bufRegs o) (.blen b) = if o.any fun t => t.1 == b && t.2.2 then BitVec.allOnes 64 else 0#64 := by
  rcases o with _ | ⟨d, ec, len⟩
  · rfl
  · cases len <;> simp [bufRegs]

theorem bitsAt_bufRegs_ecnt (o : Option (BufIdx × Bool × Bool)) (b : BufIdx) :
    bitsAt (bufRegs o) (.ecnt b) = if o.any fun t => t.1 == b && t.2.1 then BitVec.allOnes 64 else 0#64 := by
  rcases o with _ | ⟨d, ec, len⟩
  · rfl
  · cases ec <;> simp [bufRegs]

theorem bitsAt_bufRegs_plain (o : Option (BufIdx × Bool × Bool)) {r : Reg} (hl : ∀ b, .blen b ≠ r)
    (he : ∀ b, .ecnt b ≠ r) : bitsAt (bufRegs o) r = 0#64 := by
  rcases o with _ | ⟨d, ec, len⟩
  · rfl
  · simp [bufRegs, hl, he]

/-- The footprint's registers leave open the bits that the model leaves open (R27). -/
theorem bitsAt_writtenRegs (s : State) (i : Instr) (r : Reg) : bitsAt (writtenRegs s i) r = s.writeMask i r := by
  cases r with
  | blen b => simp [writtenRegs, State.writeMask, bitsAt_bufRegs_blen, errRegs]
  | ecnt b => simp [writtenRegs, State.writeMask, bitsAt_bufRegs_ecnt, errRegs]
  | status =>
    simp only [State.writeMask, BitVec.or_comm (if s.writesErr i then 0x2#64 else 0#64)]
    simp [writtenRegs, bitsAt_bufRegs_plain, errRegs]
  | _ => simp [writtenRegs, State.writeMask, bitsAt_bufRegs_plain, errRegs]

theorem bitsAt_errRegs (s : State) (r : Reg) :
    bitsAt (if s.errCode = .none then errRegs else []) r = s.badWordMask r := by
  cases r <;> simp [errRegs, State.badWordMask]

/-! Every register of a running command's footprint is in the map. -/

theorem dst_of_writesBuf {i : Instr} {d : BufIdx} {ec len : Bool} (h : i.writesBuf = some (d, ec, len)) :
    i.dst? = some d := by
  cases i <;> simp_all [Instr.writesBuf, Instr.dst?]

theorem writtenRegs_listed {s : State} {i : Instr} (hi : wellFormed s.params.nbuf i = true) :
    ∀ p ∈ writtenRegs s i, bufOk s.params.nbuf p.1.buf? = true := by
  have buffers : ∀ p ∈ bufRegs i.writesBuf, bufOk s.params.nbuf p.1.buf? = true := by
    rcases hb : i.writesBuf with _ | ⟨d, ec, len⟩
    · simp [bufRegs]
    · have hd := bufOk_dst hi (dst_of_writesBuf hb)
      cases ec <;> cases len <;> simp [bufRegs, Reg.buf?, hd]
  have plain : ∀ (c : Bool) (l : List (Reg × Word)), (∀ p ∈ l, p.1.buf? = none) →
      ∀ p ∈ (if c then l else []), bufOk s.params.nbuf p.1.buf? = true := by
    intro c l hl p hp
    cases c with
    | true => rw [hl p hp]; rfl
    | false => cases hp
  simp only [writtenRegs, List.forall_mem_append]
  refine ⟨⟨⟨⟨⟨⟨?_, ?_⟩, ?_⟩, ?_⟩, ?_⟩, buffers⟩, ?_⟩ <;> exact plain _ _ (by simp [errRegs, Reg.buf?])

theorem bitsAt_unlisted {nbuf off : Nat} (hn : nbuf ≤ 16) (h : regAt nbuf off = none) {l : List (Reg × Word)}
    (hl : ∀ p ∈ l, bufOk nbuf p.1.buf? = true) : bitsAt (atOffsets l) off = 0#64 := by
  refine bitsAt_eq_zero fun p hp => ?_
  obtain ⟨q, hq, rfl⟩ := List.mem_map.mp hp
  exact regAt_none h ((mem_regAll hn q.1).mpr (hl q hq))

/-- A read returns the table's value but for the open bits, when a list names exactly these (R27, R306). -/
theorem hostRead_readsWithOpen {s : State} (hp : s.params.Legal) {off : Nat} (h8 : off % 8 = 0)
    {l : List (Reg × Word)} (hl : ∀ p ∈ l, bufOk s.params.nbuf p.1.buf? = true)
    (ho : ∀ r, s.openBits r = bitsAt l r) : ReadsWithOpen s (atOffsets l) off (s.hostRead off).rdata := by
  rw [readsWithOpen_iff]
  cases hr : regAt s.params.nbuf off with
  | none =>
    rw [State.hostRead_unlisted hr, bitsAt_unlisted hp.2.1 hr hl, windowValue_unlisted hp h8 hr]
    simp
  | some r =>
    obtain ⟨hmem, rfl⟩ := regAt_some hr
    rw [State.hostRead_rdata hr, State.readReg, ho, bitsAt_atOffsets, windowValue_offset hp hmem]

/-- BUSY reads exactly (R27). -/
theorem hostRead_status_busy (s : State) : (s.hostRead Reg.status.offset).rdata.getLsbD 0 = s.busy := by
  rw [State.hostRead_rdata (r := .status) rfl, State.readReg_status_busy]

end Sys2Proof.Machine
end

section
/-! PROOFS. The packed node, bit by bit (10_state.md R41). -/
namespace Sys2Proof.Machine

/-- The packed word bit by bit: SYM, KIND, LEFT and RIGHT at their positions, every other bit 0 (R41). -/
theorem Node.getLsbD_pack (n : Node) (k : Nat) : n.pack.getLsbD k =
    (n.sym.getLsbD k || decide (k = 8 ∧ n.kind = .data) || (decide (16 ≤ k) && n.left.getLsbD (k - 16)) ||
      (decide (32 ≤ k) && n.right.getLsbD (k - 32))) := by
  have kind : (n.kind.toBit.setWidth 64 <<< 8).getLsbD k = decide (k = 8 ∧ n.kind = .data) := by
    cases n.kind with
    | internal => simp [NodeKind.toBit]
    | data =>
      have pow : NodeKind.data.toBit.setWidth 64 <<< 8 = BitVec.twoPow 64 8 := by decide
      rw [pow, BitVec.getLsbD_twoPow]
      grind
  by_cases hk : k < 64
  · simp only [Node.pack, BitVec.getLsbD_or, kind, BitVec.getLsbD_shiftLeft, BitVec.getLsbD_setWidth]
    grind
  · have hl := BitVec.getLsbD_of_ge n.left (k - 16) (by omega)
    have hr := BitVec.getLsbD_of_ge n.right (k - 32) (by omega)
    rw [BitVec.getLsbD_of_ge _ _ (by omega), BitVec.getLsbD_of_ge _ _ (by omega), hl, hr]
    simp
    omega

theorem Node.sym_pack (n : Node) : n.pack.extractLsb' 0 8 = n.sym := by
  apply BitVec.eq_of_getLsbD_eq
  intro k hk
  rw [BitVec.getLsbD_extractLsb', Node.getLsbD_pack]
  grind

theorem Node.left_pack (n : Node) : n.pack.extractLsb' 16 9 = n.left := by
  apply BitVec.eq_of_getLsbD_eq
  intro k hk
  rw [BitVec.getLsbD_extractLsb', Node.getLsbD_pack, BitVec.getLsbD_of_ge n.sym _ (by omega)]
  grind

theorem Node.right_pack (n : Node) : n.pack.extractLsb' 32 9 = n.right := by
  apply BitVec.eq_of_getLsbD_eq
  intro k hk
  rw [BitVec.getLsbD_extractLsb', Node.getLsbD_pack, BitVec.getLsbD_of_ge n.sym _ (by omega),
    BitVec.getLsbD_of_ge n.left _ (by omega)]
  grind

theorem Node.kind_pack (n : Node) : n.pack.getLsbD 8 = true ↔ n.kind = .data := by
  rw [Node.getLsbD_pack, BitVec.getLsbD_of_ge n.sym 8 (le_refl 8)]
  simp

/-- The bits between the fields are 0. -/
theorem Node.reserved_pack (n : Node) {a w : Nat}
    (h : ∀ k < w, 9 ≤ a + k ∧ (a + k < 16 ∨ 25 ≤ a + k) ∧ (a + k < 32 ∨ 41 ≤ a + k)) :
    n.pack.extractLsb' a w = 0#w := by
  apply BitVec.eq_of_getLsbD_eq
  intro k hk
  have := h k hk
  rw [BitVec.getLsbD_extractLsb', Node.getLsbD_pack, BitVec.getLsbD_of_ge n.sym _ (by omega)]
  grind

theorem Node.unpack_pack (n : Node) : Node.unpack n.pack = n := by
  have kind : NodeKind.ofBit (n.pack.getLsbD 8) = n.kind := by
    unfold NodeKind.ofBit
    split
    · next hb => exact (n.kind_pack.mp hb).symm
    · next hb =>
      cases hk : n.kind with
      | internal => rfl
      | data => exact absurd (n.kind_pack.mpr hk) hb
  rw [Node.unpack, kind, Node.sym_pack, Node.left_pack, Node.right_pack]

theorem Node.pack_unpack {v : Word} (h1 : v.extractLsb' 9 7 = 0#7) (h2 : v.extractLsb' 25 7 = 0#7)
    (h3 : v.extractLsb' 41 23 = 0#23) : (Node.unpack v).pack = v := by
  apply BitVec.eq_of_getLsbD_eq
  intro k hk
  have zero : ∀ {a w : Nat}, v.extractLsb' a w = 0#w → a ≤ k → k < a + w → v.getLsbD k = false := by
    intro a w h ha hw
    have hbit := congrArg (fun x => BitVec.getLsbD x (k - a)) h
    simpa [BitVec.getLsbD_extractLsb', ha, show k - a < w by omega] using hbit
  have z1 := zero h1
  have z2 := zero h2
  have z3 := zero h3
  rw [Node.getLsbD_pack]
  simp only [Node.unpack, BitVec.getLsbD_extractLsb', NodeKind.ofBit]
  grind

end Sys2Proof.Machine
end

section
/-! PROOFS. The obligations about the state (10_state.md). -/
namespace Sys2Proof.Proofs

open Sys2Proof Sys2Proof.Machine Sys2Proof.Claims

/-- Settles O31: every command is a chain of updates that keep the bounds of what they write, and the host's moves and
a reset keep them too. -/
theorem stepKeepsInvariant : Obligations.StepKeepsInvariant := fun _ _ hs h => step_keeps_inv hs h

/-- Settles O30: the memories are empty, ROOT is NULL and nothing is latched. -/
theorem resetStateMeetsInvariant : Obligations.ResetStateMeetsInvariant :=
  ⟨State.resetWith_inv configParams_legal, fun _ hp => State.resetWith_inv hp⟩

/-- Settles O18: the agents' moves each leave the parameters, which the register shows. -/
theorem paramsNeverChange : Obligations.ParamsNeverChange := by
  intro s t h
  have hp := step_params h
  exact ⟨hp, by simp [windowValue, hp]⟩

/-- Settles O19: by the move that was made. -/
theorem firstErrorWins : Obligations.FirstErrorWins := by
  intro s t h hs
  rcases step_cases h with ⟨ms, he⟩ | ⟨ms, off, v, rfl⟩ | ⟨ms, off, rfl⟩ | ⟨ms, c, ha, _⟩
  · rcases engineStep_latched (s := s.setAgenda ms) he hs with hkept | hclr
    · exact .inl hkept
    · exact .inr (.inr hclr)
  · exact .inl (State.hostWrite_latched (s := s.setAgenda ms) hs off v)
  · obtain ⟨v, k, h⟩ := (s.setAgenda ms).hostRead_frame off
    rw [h]
    exact .inl ⟨rfl, rfl⟩
  · exact .inr (.inl ⟨c, ms, ha⟩)

/-- Settles O27: no update of a command writes the host's side. -/
theorem hostSideUntouchedByCommands : Obligations.HostSideUntouchedByCommands :=
  fun _ _ _ h => (exec_update h).sameHostSide

/-- Settles O25: by the footprint of each command. -/
theorem treeWrittenOnlyByTreeCommands : Obligations.TreeWrittenOnlyByTreeCommands := by
  intro i s t h
  have hu := exec_update h
  cases i with
  | tclr | trst => trivial
  | tins | nwr => exact hu.root_eq rfl
  | troot => exact hu.nodes_eq rfl
  | _ => exact ⟨hu.root_eq rfl, hu.nodes_eq rfl⟩

/-- Settles O26: by the footprint of each command. -/
theorem countersAndTableWrittenOnlyByTheirCommands : Obligations.CountersAndTableWrittenOnlyByTheirCommands := by
  intro i s t h
  have hu := exec_update h
  cases i with
  | dec => exact hu.ct_eq rfl
  | ctclr | ctwr | walk => exact hu.decode_eq rfl
  | _ => exact ⟨hu.ct_eq rfl, hu.decode_eq rfl⟩

/-- Settles O23: by the footprint of each command, and by the answers of CTRD, NRD and DEC. -/
theorem resultWrittenOnlyByItsCommands : Obligations.ResultWrittenOnlyByItsCommands := by
  intro i s t h
  have hu := exec_update h
  cases i with
  | brdw | bget | beqp | beq => trivial
  | ctrd => exact execCtrd_result h
  | nrd => exact execNrd_result h
  | dec => exact execDec_result h
  | _ => exact hu.result_eq rfl

/-- Settles O24: no meaning reads EQ, and BEQP and BEQ overwrite it. -/
theorem eqWrittenOnlyByComparisons : Obligations.EqWrittenOnlyByComparisons := by
  intro i s e
  cases i with
  | beqp | beq => rfl
  | _ => exact ⟨exec_eqApart e s rfl, fun _ h => (exec_update h).eqFlag_eq rfl⟩

/-- Settles O7: the engine's turn performs the latched word, which here is the command, and BUSY falls. -/
theorem stepRunsDecodedCommand : Obligations.StepRunsDecodedCommand := by
  intro s ms i ⟨hb, ha⟩ hl hd
  rw [step_engine hb ha, perform_of_ok (s := s.setAgenda ms) hl hd, finish_eq_mapNext]
  rfl

/-- Settles O9: the write is an issue. -/
theorem cmdWriteIssues : Obligations.CmdWriteIssues := by
  intro s ms w hb ha
  rw [step_write ha rfl, State.hostWrite_cmd, State.writeCmd, if_neg (by simp [hb]), State.issue, State.blocks_eq]
  rfl

/-- Settles O11: the three registers that take a write are CMD, ARG0 and ARG1. -/
theorem windowWrites : Obligations.WindowWrites := by
  intro s ms off v h8 h0 ha
  rw [step_write ha h8]
  split
  · next h => rw [h, State.hostWrite_arg0]; rfl
  split
  · next h => rw [h, State.hostWrite_arg1]; rfl
  · next h8' h10 => rw [State.hostWrite_ignored _ v h0 h8' h10]; rfl

/-- Settles O12: an idle block has no open bits. -/
theorem idleReadReturnsWindowValue : Obligations.IdleReadReturnsWindowValue := by
  intro s ms off hp hb h8 ha
  rw [step_read ha h8, hostRead_of_closed (s := s.setAgenda ms) hp h8 (State.openBits_of_idle hb)]
  rfl

/-- Settles O13: the rows of `mayWrite` are the footprint, whose bits are the ones a read leaves open. -/
theorem busyReadsOfUnwrittenRegistersAreExact : Obligations.BusyReadsOfUnwrittenRegistersAreExact := by
  intro s ms off hp hb h8 ha
  refine ⟨(s.setAgenda ms).hostRead off, step_read ha h8, ?_, fun hl => ?_, fun i hl hd => ?_, fun e hl hd => ?_⟩
  · rintro rfl
    exact (hostRead_status_busy _).trans hb
  · rw [hostRead_of_closed (s := s.setAgenda ms) hp h8 (State.openBits_of_blocked hl)]
    rfl
  · rw [mayWrite_eq]
    exact hostRead_readsWithOpen (s := s.setAgenda ms) hp h8 (writtenRegs_listed (decode_ok_wellFormed hd))
      fun r => (State.openBits_of_ok hb hl hd r).trans (bitsAt_writtenRegs _ i r).symm
  · rw [raises_eq]
    refine hostRead_readsWithOpen (s := s.setAgenda ms) hp h8 ?_ fun r =>
      (State.openBits_of_error hb hl hd r).trans (bitsAt_errRegs _ r).symm
    split <;> simp [errRegs, Reg.buf?, bufOk]

/-- Settles O53: each field and each gap between them read off the packed word's bits. -/
theorem packedNodeLayout : Obligations.PackedNodeLayout := by
  refine ⟨fun n => ⟨n.sym_pack, n.kind_pack, ?_, n.left_pack, ?_, n.right_pack, ?_, n.unpack_pack⟩,
    fun v h1 h2 h3 => Node.pack_unpack h1 h2 h3⟩
  all_goals exact n.reserved_pack (by omega)

end Sys2Proof.Proofs
end

section
/-! PROOFS. The buffer as one number, as bytes (20_memory.md R63, R64), and the refused accesses (R67). -/
namespace Sys2Proof.Machine

/-! V(b), one more element at its end at a time. -/

theorem Buf.value_concat (es : List Word) (e : Word) (n : Nat) :
    (Buf.mk (es ++ [e]) n).value = 2 ^ 64 * (Buf.mk es n).value + e.toNat := by
  simp [Buf.value, Nat.mul_comm]

theorem Buf.bit_concat_of_lt (es : List Word) (e : Word) (n : Nat) {i : Nat} (h : i < 64 * es.length) :
    (Buf.mk (es ++ [e]) n).bit i = (Buf.mk es n).bit i := by
  rw [Buf.bit_eq, Buf.bit_eq, Buf.memRead_eq, Buf.memRead_eq, List.getD_append _ _ _ _ (by omega)]

theorem Buf.bit_concat_last (es : List Word) (e : Word) (n : Nat) {j : Nat} (h : j < 64) :
    (Buf.mk (es ++ [e]) n).bit (64 * es.length + j) = e.getLsbD (63 - j) := by
  have hq : (64 * es.length + j) / 64 = es.length := by omega
  have hr : (64 * es.length + j) % 64 = j := by omega
  rw [Buf.bit_eq, Buf.memRead_eq, hq, hr, List.getD_append_right _ _ _ _ (le_refl _), Nat.sub_self,
    List.getD_cons_zero]

/-- Stream position i is bit 64 * EC - 1 - i of V(b) (R63): the last element is the low 64 bits. -/
theorem Buf.testBit_value (b : Buf) {i : Nat} (hi : i < 64 * b.ec) :
    b.value.testBit (64 * b.ec - 1 - i) = b.bit i := by
  obtain ⟨es, n⟩ := b
  induction es using List.reverseRecOn with
  | nil => exact absurd hi (Nat.not_lt_zero i)
  | append_singleton es e ih =>
    have hec : (Buf.mk (es ++ [e]) n).ec = es.length + 1 := List.length_append
    rw [hec] at hi ⊢
    rw [Buf.value_concat, Nat.testBit_two_pow_mul_add _ e.isLt]
    by_cases h : i < 64 * es.length
    · have hk : 64 * (es.length + 1) - 1 - i - 64 = 64 * es.length - 1 - i := by omega
      rw [if_neg (by omega), hk, Buf.bit_concat_of_lt es e n h]
      exact ih h
    · obtain ⟨j, rfl⟩ := Nat.exists_eq_add_of_le (Nat.le_of_not_lt h)
      have hk : 64 * (es.length + 1) - 1 - (64 * es.length + j) = 63 - j := by omega
      rw [if_pos (by omega), hk, Buf.bit_concat_last es e n (by omega)]
      rfl

/-- Stream position 8m + j is bit 7 - j of serialized byte m (R64). -/
theorem Buf.getLsbD_serialByte (b : Buf) (m : Nat) {j : Nat} (hj : j < 8) :
    (b.serialByte m).getLsbD (7 - j) = b.bit (8 * m + j) := by
  have hq : (8 * m + j) / 64 = m / 8 := by omega
  have hr : 56 - 8 * (m % 8) + (7 - j) = 63 - (8 * m + j) % 64 := by omega
  rw [Buf.serialByte, BitVec.getLsbD_extractLsb', Buf.bit_eq, hq, hr, decide_eq_true (by omega), Bool.true_and]

/-! Accesses that are not whole. -/

theorem wholeAccess_iff (off bytes : Nat) : wholeAccess off bytes = true ↔ bytes = 8 ∧ off % 8 = 0 := by
  simp [wholeAccess]

theorem step_read_narrow {s : State} {ms : List Move} {off bytes : Nat} (ha : s.agenda = .read off bytes :: ms)
    (h : ¬ (bytes = 8 ∧ off % 8 = 0)) : step s = .refused .narrowAccess := by
  rw [← wholeAccess_iff] at h
  simp [step, agentStep, ha, h]

theorem step_write_narrow {s : State} {ms : List Move} {off bytes : Nat} {v : Word}
    (ha : s.agenda = .write off bytes v :: ms) (h : ¬ (bytes = 8 ∧ off % 8 = 0)) :
    step s = .refused .narrowAccess := by
  rw [← wholeAccess_iff] at h
  simp [step, agentStep, ha, h]

end Sys2Proof.Machine
end

section
/-! PROOFS. The obligations about memory and the host's accesses (20_memory.md). -/
namespace Sys2Proof.Proofs

open Sys2Proof Sys2Proof.Machine

/-- Settles O60: V(b) by induction on the elements from the last, the bytes by the position within an element. -/
theorem streamOrderOfValueAndBytes : Obligations.StreamOrderOfValueAndBytes :=
  fun b => ⟨fun _ hi => b.testBit_value hi, fun m _ hj => b.getLsbD_serialByte m hj⟩

/-- Settles O14: a read that is carried out is a whole one, and it touches the model's own fields alone. -/
theorem readsHaveNoSideEffects : Obligations.ReadsHaveNoSideEffects := by
  intro s t off bytes ms ha h
  by_cases hw : bytes = 8 ∧ off % 8 = 0
  · obtain ⟨rfl, h8⟩ := hw
    obtain ⟨v, k, hread⟩ := (s.setAgenda ms).hostRead_frame off
    rw [step_read ha h8, hread] at h
    cases h
    rfl
  · rw [step_read_narrow ha hw] at h
    cases h

/-- Settles O15: reads and writes ask the same of the access. -/
theorem narrowAccessRefused : Obligations.NarrowAccessRefused := by
  intro s ms off bytes v hw ha
  rcases ha with ha | ha
  · exact step_read_narrow ha hw
  · exact step_write_narrow ha hw

end Sys2Proof.Proofs
end

section
/-! PROOFS. The decoder said once: what it answers by the word's OPC and fields, and which word a command has. -/
namespace Sys2Proof

open Sys2Proof.Claims (maskOf IllegalOpc)

/-! Commands with one OPC have the same buffer operands. -/

theorem dst_eq_none_iff_of_opcode {i j : Instr} (h : i.opcode = j.opcode) : i.dst? = none ↔ j.dst? = none := by
  rw [← Option.not_isSome_iff_eq_none, ← Option.not_isSome_iff_eq_none, ← usesD_format, ← usesD_format,
    format_of_opcode h]

theorem src_eq_none_iff_of_opcode {i j : Instr} (h : i.opcode = j.opcode) : i.src? = none ↔ j.src? = none := by
  rw [← Option.not_isSome_iff_eq_none, ← Option.not_isSome_iff_eq_none, ← usesS_format, ← usesS_format,
    format_of_opcode h]

theorem bufOk_iff_getD {nbuf : Nat} {b : Option BufIdx} :
    bufOk nbuf b = true ↔ ¬ (b ≠ none ∧ nbuf ≤ (b.getD 0#4).toNat) := by
  cases b <;> simp [bufOk]

/-! What the decoder answers. -/

/-- The first check of R89 that a word of command `i` fails, its OPC being right. -/
def fieldError? (nbuf : Nat) (i : Instr) (w : Word) : Option DecodeError :=
  if (reservedField w).toNat ≠ 0 then some .reservedBits
  else if (i.dst? = none ∧ (dField w).toNat ≠ 0) ∨ (i.src? = none ∧ (sField w).toNat ≠ 0) then some .unusedField
  else if i.dst? ≠ none ∧ nbuf ≤ (dField w).toNat then some .dRange
  else if i.src? ≠ none ∧ nbuf ≤ (sField w).toNat then some .sRange
  else none

theorem fieldError?_congr {i j : Instr} (h : i.opcode = j.opcode) (nbuf : Nat) (w : Word) :
    fieldError? nbuf i w = fieldError? nbuf j w := by
  simp only [fieldError?, ne_eq, dst_eq_none_iff_of_opcode h, src_eq_none_iff_of_opcode h]

theorem fieldError?_eq_none_iff {nbuf : Nat} {i : Instr} {w : Word} : fieldError? nbuf i w = none ↔
    reservedField w = 0#48 ∧ (i.dst? = none → dField w = 0#4) ∧ (i.src? = none → sField w = 0#4) ∧
      ¬ (i.dst? ≠ none ∧ nbuf ≤ (dField w).toNat) ∧ ¬ (i.src? ≠ none ∧ nbuf ≤ (sField w).toNat) := by
  simp only [fieldError?, ← BitVec.toNat_inj]
  grind

/-- A word whose OPC the map names is that command unless it fails a check. -/
theorem decode_of_lookup {w : Word} {i : Instr} (h : lookup (opcField w) (dField w) (sField w) = some i) (nbuf : Nat) :
    decode nbuf w = (fieldError? nbuf i w).elim (.ok i) .error := by
  have zero : ∀ {n : Nat} (x : BitVec n), x.toNat = 0 ↔ x = 0#n := fun x => by rw [← BitVec.toNat_inj]; rfl
  simp only [decode, fieldError?, h, usesD_format, usesS_format, Option.isSome_iff_ne_none, ne_eq, not_not, zero,
    ite_or, ge_iff_le]
  split_ifs <;> rfl

theorem decode_of_lookup_none {w : Word} (h : lookup (opcField w) (dField w) (sField w) = none) (nbuf : Nat) :
    decode nbuf w = .error .illegalOpcode := by
  simp only [decode, h]

/-- The map names a command of each of its OPC values, with the word's buffer fields. -/
theorem exists_lookup_of_opcode {w : Word} {i : Instr} (h : opcField w = i.opcode) :
    ∃ j : Instr, j.opcode = i.opcode ∧ lookup (opcField w) (dField w) (sField w) = some j := by
  obtain ⟨j, hj⟩ := lookup_opcode i (dField w) (sField w)
  exact ⟨j, (lookup_cases hj).1, h ▸ hj⟩

theorem decode_of_fieldError {nbuf : Nat} {w : Word} {i : Instr} {e : DecodeError} (h : opcField w = i.opcode)
    (he : fieldError? nbuf i w = some e) : decode nbuf w = .error e := by
  obtain ⟨j, hop, hj⟩ := exists_lookup_of_opcode h
  rw [decode_of_lookup hj, fieldError?_congr hop, he]
  rfl

theorem decode_of_no_fieldError {nbuf : Nat} {w : Word} {i : Instr} (h : opcField w = i.opcode)
    (he : fieldError? nbuf i w = none) : ∃ j : Instr, j.opcode = i.opcode ∧ decode nbuf w = .ok j := by
  obtain ⟨j, hop, hj⟩ := exists_lookup_of_opcode h
  rw [decode_of_lookup hj, fieldError?_congr hop, he]
  exact ⟨j, hop, rfl⟩

theorem decode_ok_cases {nbuf : Nat} {w : Word} {i : Instr} (h : decode nbuf w = .ok i) :
    lookup (opcField w) (dField w) (sField w) = some i ∧ fieldError? nbuf i w = none := by
  cases hl : lookup (opcField w) (dField w) (sField w) with
  | none => rw [decode_of_lookup_none hl] at h; cases h
  | some j =>
    rw [decode_of_lookup hl] at h
    cases he : fieldError? nbuf j w with
    | some e => rw [he] at h; cases h
    | none => rw [he] at h; cases h; exact ⟨rfl, he⟩

theorem opcField_of_decode {nbuf : Nat} {w : Word} {i : Instr} (h : decode nbuf w = .ok i) : opcField w = i.opcode :=
  (lookup_cases (decode_ok_cases h).1).1.symm

/-- A word that decodes holds its command's operands, and 0 in every other field. -/
theorem encode_of_decode {nbuf : Nat} {w : Word} {i : Instr} (h : decode nbuf w = .ok i) : encode i = w := by
  obtain ⟨hl, he⟩ := decode_ok_cases h
  obtain ⟨hop, hd, hs⟩ := lookup_cases hl
  obtain ⟨hres, hd0, hs0, -⟩ := fieldError?_eq_none_iff.mp he
  have hd' : i.dst?.getD 0#4 = dField w := by
    rcases hd with hd | hd
    · rw [hd, hd0 hd]; rfl
    · rw [hd]; rfl
  have hs' : i.src?.getD 0#4 = sField w := by
    rcases hs with hs | hs
    · rw [hs, hs0 hs]; rfl
    · rw [hs]; rfl
  rw [word_eq_fields w, hres, ← hop, ← hd', ← hs']
  simp [encode]

theorem decode_encode {nbuf : Nat} {i : Instr} (h : wellFormed nbuf i = true) : decode nbuf (encode i) = .ok i := by
  rw [wellFormed, Bool.and_eq_true] at h
  obtain ⟨hd, hs⟩ := h
  have he : fieldError? nbuf i (encode i) = none := by
    rw [fieldError?_eq_none_iff, reservedField_encode, dField_encode, sField_encode]
    exact ⟨rfl, fun h => by rw [h]; rfl, fun h => by rw [h]; rfl, bufOk_iff_getD.mp hd, bufOk_iff_getD.mp hs⟩
  rw [decode_of_lookup (i := i) (by simp [lookup_self]), he]
  rfl

/-! The illegal OPC values (R86). -/

theorem opcode_not_illegal (i : Instr) : ¬ IllegalOpc i.opcode.toNat := by
  unfold IllegalOpc
  cases i <;> simp [Instr.opcode]

/-- Between the illegal ranges every value is the OPC of a command. -/
theorem exists_opcode_of_not_illegal {n : Nat} (hn : n < 256) (h : ¬ IllegalOpc n) :
    ∃ i ∈ commandsWith 0 0, i.opcode.toNat = n := by
  have hr : (0 ≤ n ∧ n ≤ 0x07) ∨ (0x10 ≤ n ∧ n ≤ 0x12) ∨ (0x20 ≤ n ∧ n ≤ 0x25) ∨ (0x30 ≤ n ∧ n ≤ 0x33) ∨
      (0x40 ≤ n ∧ n ≤ 0x45) ∨ (0x50 ≤ n ∧ n ≤ 0x50) ∨ (0x7F ≤ n ∧ n ≤ 0x7F) := by
    unfold IllegalOpc at h
    omega
  rcases hr with ⟨hlo, hhi⟩ | ⟨hlo, hhi⟩ | ⟨hlo, hhi⟩ | ⟨hlo, hhi⟩ | ⟨hlo, hhi⟩ | ⟨hlo, hhi⟩ | ⟨hlo, hhi⟩ <;>
    interval_cases n <;> decide

theorem decode_of_illegal {w : Word} (h : IllegalOpc (opcField w).toNat) (nbuf : Nat) :
    decode nbuf w = .error .illegalOpcode := by
  cases hl : lookup (opcField w) (dField w) (sField w) with
  | none => exact decode_of_lookup_none hl nbuf
  | some i =>
    rw [← (lookup_cases hl).1] at h
    exact absurd h (opcode_not_illegal i)

/-- A word with a command's OPC has some other fault, if any. -/
theorem fieldError?_ne_illegal (nbuf : Nat) (i : Instr) (w : Word) : fieldError? nbuf i w ≠ some .illegalOpcode := by
  unfold fieldError?
  split_ifs <;> nofun

theorem decode_ne_illegal {w : Word} {i : Instr} (h : opcField w = i.opcode) (nbuf : Nat) :
    decode nbuf w ≠ .error .illegalOpcode := by
  cases he : fieldError? nbuf i w with
  | none =>
    obtain ⟨j, -, hj⟩ := decode_of_no_fieldError h he
    rw [hj]
    exact nofun
  | some e =>
    rw [decode_of_fieldError h he]
    rintro ⟨⟩
    exact fieldError?_ne_illegal nbuf i w he

/-! The masks of R82. -/

/-- A mask leaves out the bits of the buffer fields that its command has. -/
theorem getLsbD_maskOf (i : Instr) {k : Nat} (hk : k < 32) :
    (maskOf i).getLsbD k = decide ((8 ≤ k ∧ k < 12 → i.dst? = none) ∧ (12 ≤ k ∧ k < 16 → i.src? = none)) := by
  unfold maskOf
  cases i.dst? <;> cases i.src? <;> simp <;> interval_cases k <;> rfl

/-- What the mask and CMD[63:32] = 0 ask of the fields. -/
theorem mask_match_iff (w : Word) (i : Instr) :
    (w.extractLsb' 32 32 = 0#32 ∧ w.setWidth 32 &&& maskOf i = i.opcode.setWidth 32) ↔
      opcField w = i.opcode ∧ reservedField w = 0#48 ∧ (i.dst? = none → dField w = 0#4) ∧
        (i.src? = none → sField w = 0#4) := by
  simp +contextual only [opcField, reservedField, dField, sField, BitVec.eq_of_getLsbD_eq_iff, BitVec.getLsbD_and,
    BitVec.getLsbD_extractLsb', BitVec.getLsbD_setWidth, BitVec.getLsbD_zero, getLsbD_maskOf]
  constructor
  · rintro ⟨high, low⟩
    refine ⟨fun k hk => ?_, fun k hk => ?_, fun hd k hk => ?_, fun hs k hk => ?_⟩
    · grind [low k (by omega)]
    · rcases lt_or_ge k 16 with h | h
      · grind [low (16 + k) (by omega)]
      · grind [high (k - 16) (by omega)]
    · grind [low (8 + k) (by omega)]
    · grind [low (12 + k) (by omega)]
  · rintro ⟨hop, hres, hd, hs⟩
    refine ⟨fun k hk => by grind [hres (16 + k) (by omega)], fun k hk => ?_⟩
    rcases (by omega : k < 8 ∨ (8 ≤ k ∧ k < 12) ∨ (12 ≤ k ∧ k < 16) ∨ 16 ≤ k) with h | h | h | h
    · grind [hop k h]
    · obtain ⟨j, rfl⟩ := Nat.exists_eq_add_of_le h.1
      grind
    · obtain ⟨j, rfl⟩ := Nat.exists_eq_add_of_le h.1
      grind
    · grind [hres (k - 16) (by omega)]

/-- With 16 buffers a word of this OPC is a command when the fields its format does not use are 0. -/
theorem decode_sixteen_iff (w : Word) (i : Instr) : (∃ j : Instr, decode 16 w = .ok j ∧ j.opcode = i.opcode) ↔
    opcField w = i.opcode ∧ reservedField w = 0#48 ∧ (i.dst? = none → dField w = 0#4) ∧
      (i.src? = none → sField w = 0#4) := by
  constructor
  · rintro ⟨j, hj, hop⟩
    obtain ⟨hres, hd, hs, -⟩ := fieldError?_eq_none_iff.mp (fieldError?_congr hop 16 w ▸ (decode_ok_cases hj).2)
    exact ⟨(opcField_of_decode hj).trans hop, hres, hd, hs⟩
  · rintro ⟨hop, hres, hd, hs⟩
    obtain ⟨j, hj, hdec⟩ := decode_of_no_fieldError (nbuf := 16) hop (fieldError?_eq_none_iff.mpr
      ⟨hres, hd, hs, fun h => absurd (dField w).isLt (by omega), fun h => absurd (sField w).isLt (by omega)⟩)
    exact ⟨j, hdec, hj⟩

end Sys2Proof
end

section
/-! PROOFS. The engine's turn on a word that is no command. -/
namespace Sys2Proof.Machine

open Sys2Proof.Claims (EngineTurn)

/-- The latched word and the sub-codes each fit in ERR_INFO (R272). -/
theorem errInfoOf_lt (w : Word) (e : DecodeError) : errInfoOf w e < 2 ^ 64 := by
  cases e with
  | illegalOpcode => exact w.isLt
  | _ => simp [errInfoOf]

/-- The state after the engine's turn on a word that is no command: the error is latched unless one is already, and
BUSY falls (R27, R89, R275). -/
theorem step_of_decode_error {s : State} {ms : List Move} {e : DecodeError} (ht : EngineTurn s ms)
    (hl : s.lblk = false) (hd : decode s.params.nbuf s.lcmd = .error e) :
    step s = .next { s with
      agenda := ms, busy := false
      errCode := if s.errCode = .none then errCodeOf e else s.errCode
      errInfo := if s.errCode = .none then BitVec.ofNat 64 (errInfoOf s.lcmd e) else s.errInfo } := by
  obtain ⟨hb, ha⟩ := ht
  rw [step_engine hb ha, perform_of_error (s := s.setAgenda ms) hl hd, State.fail]
  by_cases h : s.errCode = .none
  · rw [State.raise_of_fits (s := s.setAgenda ms) h _ (errInfoOf_lt _ e), if_pos h, if_pos h]
    rfl
  · rw [State.raise_of_latched (s := s.setAgenda ms) h, if_neg h, if_neg h]
    rfl

end Sys2Proof.Machine
end

section
/-! PROOFS. What a command leaves of the buffers, and of a state with other arguments. -/
namespace Sys2Proof.Machine

open Sys2Proof.Claims (mapNext)

variable {s t : State} {d b : BufIdx}

/-! Buffers. -/

@[simp] theorem State.raise_buf (s : State) (c : ErrCode) (n : Nat) (b : BufIdx) : (s.raise c n).buf b = s.buf b := by
  obtain ⟨e, v, k, he⟩ := s.raise_frame c n
  rw [he]
  rfl

/-- A command writes the buffer in its D field alone (R84). -/
theorem Update.buf_eq {i : Instr} (h : Update i s t) (hb : i.dst? ≠ some b) : t.buf b = s.buf b := by
  induction h with
  | refl => rfl
  | @setBuf u d x _ hd _ ih =>
    have hne : b ≠ d := fun h => hb (h ▸ hd)
    rw [State.buf_setBuf_ne u hne, ih]
  | setResult _ _ ih | setEq _ _ _ ih | setCt _ _ _ ih | setTree _ _ _ _ ih | setDecode _ _ ih | latch _ _ ih => exact ih

/-- What a write of D leaves of D, it leaves of every buffer. -/
theorem State.buf_setBuf_keeps {α : Type} (f : Buf → α) {x : Buf} (h : f x = f (s.buf d)) (b : BufIdx) :
    f ((s.setBuf d x).buf b) = f (s.buf b) := by
  by_cases hb : b = d
  · subst hb; rw [State.buf_setBuf_self, h]
  · rw [State.buf_setBuf_ne s hb]

theorem State.putAt_len {x : Bool} (h : s.putAt d x = .next t) (b : BufIdx) : (t.buf b).len = (s.buf b).len := by
  rcases State.putAt_cases h with ⟨_, rfl⟩ | ⟨_, rfl⟩
  · rw [State.raise_buf]
  · exact State.buf_setBuf_keeps Buf.len (by simp) b

theorem execBwrw_len (h : execBwrw d s = .next t) (b : BufIdx) : (t.buf b).len = (s.buf b).len := by
  rcases execBwrw_cases h with ⟨_, rfl⟩ | ⟨_, rfl⟩
  · rw [State.raise_buf]
  · exact State.buf_setBuf_keeps Buf.len (by simp) b

/-- The shifts, BAND and BOR write D with its LEN and EC (R150 to R153). -/
theorem setBuf_len_ec {x : Buf} (h : (.next (s.setBuf d x) : Out) = .next t) (hlen : x.len = (s.buf d).len)
    (hec : x.ec = (s.buf d).ec) (b : BufIdx) : (t.buf b).len = (s.buf b).len ∧ (t.buf b).ec = (s.buf b).ec := by
  cases h
  exact ⟨State.buf_setBuf_keeps Buf.len hlen b, State.buf_setBuf_keeps Buf.ec hec b⟩

end Sys2Proof.Machine
end

section
/-! PROOFS. An argument that a command does not take is not read (R83). -/
namespace Sys2Proof

/-- The commands that take A0, by the table of R84. -/
def Instr.usesA0 : Instr → Bool
  | .bsetlen _ | .bwrw _ | .brdw _ | .bget _ | .bset _ | .bunset _ | .bapp _ | .benc _ | .bshl _ | .bshr _ => true
  | .ctwr _ | .ctrd _ | .tins _ | .nwr | .nrd | .troot => true
  | .nop | .bclr _ | .bappb _ _ | .band _ _ | .bor _ _ | .beqp _ _ | .beq _ _ => false
  | .ctclr | .walk | .tclr | .trst | .dec _ _ | .clrerr => false

/-- The commands that take A1, by the table of R84. -/
def Instr.usesA1 : Instr → Bool
  | .bwrw _ | .bapp _ | .nwr => true
  | .nop | .bclr _ | .bsetlen _ | .brdw _ | .bget _ | .bset _ | .bunset _ | .bappb _ _ | .benc _ | .bshl _ => false
  | .bshr _ | .band _ _ | .bor _ _ | .beqp _ _ | .beq _ _ | .ctclr | .ctwr _ | .ctrd _ | .walk | .tclr => false
  | .trst | .tins _ | .nrd | .troot | .dec _ _ | .clrerr => false

end Sys2Proof

namespace Sys2Proof.Machine

open Sys2Proof.Claims (mapNext)

/-- The state with its latched arguments changed; `id` keeps one. -/
def State.mapArgs (g0 g1 : Word → Word) (s : State) : State := { s with la0 := g0 s.la0, la1 := g1 s.la1 }

/-- Two answers differ in the latched arguments alone. -/
def ArgsApart (g0 g1 : Word → Word) (o o' : Out) : Prop := o' = mapNext (State.mapArgs g0 g1) o

variable {g0 g1 : Word → Word} {s : State}

theorem ArgsApart.next : ArgsApart g0 g1 (.next s) (.next (s.mapArgs g0 g1)) := rfl

theorem ArgsApart.ite {c : Prop} [Decidable c] {x x' y y' : Out} (hx : ArgsApart g0 g1 x x')
    (hy : ArgsApart g0 g1 y y') : ArgsApart g0 g1 (if c then x else y) (if c then x' else y') := by
  split
  · exact hx
  · exact hy

theorem State.raise_mapArgs (c : ErrCode) (n : Nat) :
    (s.mapArgs g0 g1).raise c n = (s.raise c n).mapArgs g0 g1 := by
  unfold State.raise
  rw [apply_ite (State.mapArgs g0 g1), apply_ite (State.mapArgs g0 g1)]
  rfl

theorem State.fail_argsApart (c : ErrCode) (n : Nat) : ArgsApart g0 g1 (s.fail c n) ((s.mapArgs g0 g1).fail c n) := by
  rw [State.fail, State.fail, State.raise_mapArgs]
  exact .next

theorem State.appendTo_argsApart (d : BufIdx) (xs : List Bool) :
    ArgsApart g0 g1 (s.appendTo d xs) ((s.mapArgs g0 g1).appendTo d xs) :=
  .ite (s.fail_argsApart _ _) .next

theorem State.putAt_argsApart (d : BufIdx) (x : Bool) : ArgsApart id g1 (s.putAt d x) ((s.mapArgs id g1).putAt d x) :=
  .ite (s.fail_argsApart _ _) .next

theorem State.withSymbol_argsApart {k k' : Byte → Out} (hk : ∀ y, ArgsApart id g1 (k y) (k' y)) :
    ArgsApart id g1 (s.withSymbol k) ((s.mapArgs id g1).withSymbol k') :=
  .ite (s.fail_argsApart _ _) (hk _)

theorem State.withPath_argsApart {b : BufIdx} {k k' : List Bool → Out} (hk : ∀ xs, ArgsApart g0 g1 (k xs) (k' xs)) :
    ArgsApart g0 g1 (s.withPath b k) ((s.mapArgs g0 g1).withPath b k') :=
  .ite (s.fail_argsApart _ _) (hk _)

theorem State.withNode_argsApart {k k' : NodeIdx → Out} (hk : ∀ n, ArgsApart id g1 (k n) (k' n)) :
    ArgsApart id g1 (s.withNode k) ((s.mapArgs id g1).withNode k') :=
  .ite (s.fail_argsApart _ _) (hk _)

/-! The commands that walk the node memory read only it, ROOT and the buffers. -/

@[simp] theorem State.mapArgs_nodes : (s.mapArgs g0 g1).nodes = s.nodes := rfl
@[simp] theorem State.mapArgs_root : (s.mapArgs g0 g1).root = s.root := rfl
@[simp] theorem State.mapArgs_params : (s.mapArgs g0 g1).params = s.params := rfl
@[simp] theorem State.mapArgs_buf (b : BufIdx) : (s.mapArgs g0 g1).buf b = s.buf b := rfl

theorem execWalk_argsApart : ArgsApart g0 g1 (execWalk s) (execWalk (s.mapArgs g0 g1)) := by
  refine .ite ((s.setCt ctEmpty).fail_argsApart _ _) ?_
  simp only [State.mapArgs_nodes, State.mapArgs_root]
  cases walkTree s.nodes s.root with
  | ok w => exact .next
  | error e => exact (s.setCt e.ct).fail_argsApart _ _

theorem execTins_argsApart (b : BufIdx) : ArgsApart id g1 (execTins b s) (execTins b (s.mapArgs id g1)) := by
  refine State.withSymbol_argsApart fun y => State.withPath_argsApart fun xs => ?_
  refine .ite (s.fail_argsApart _ _) (.ite (s.fail_argsApart _ _) ?_)
  simp only [State.mapArgs_nodes, State.mapArgs_root]
  cases tinsFollow s.nodes s.root 0 xs with
  | error e => exact s.fail_argsApart _ _
  | ok r => exact .ite (s.fail_argsApart _ _) .next

theorem execDec_argsApart (d b : BufIdx) : ArgsApart g0 g1 (execDec d b s) (execDec d b (s.mapArgs g0 g1)) := by
  refine .ite (s.fail_argsApart _ _) (.ite (s.fail_argsApart _ _) ?_)
  simp only [State.mapArgs_nodes, State.mapArgs_root, State.mapArgs_params, State.mapArgs_buf]
  rcases decLoop s.params.bufWords s.nodes s.root 0 (s.buf b).bits ⟨s.buf d, 0, s.root, 0⟩ with ⟨k, _ | e⟩
  · exact .ite ((s.decoded d k).fail_argsApart _ _) .next
  · exact (s.decoded d k).fail_argsApart _ _

/-- A command does the same whatever the arguments that it does not take (R83). -/
theorem exec_argsApart {i : Instr} (h0 : i.usesA0 = true → g0 = id) (h1 : i.usesA1 = true → g1 = id) :
    ArgsApart g0 g1 (exec i s) (exec i (s.mapArgs g0 g1)) := by
  cases i with
  | nop | bclr | band | bor | beqp | beq | ctclr | tclr | trst | clrerr => exact .next
  | bappb => exact s.appendTo_argsApart _ _
  | walk => exact execWalk_argsApart
  | dec d b => exact execDec_argsApart d b
  | brdw | bget | bshl | bshr => cases h0 rfl; exact .next
  | bsetlen => cases h0 rfl; exact .ite (s.fail_argsApart _ _) .next
  | bset | bunset => cases h0 rfl; exact s.putAt_argsApart _ _
  | benc =>
    cases h0 rfl
    exact State.withSymbol_argsApart fun _ => .ite (s.appendTo_argsApart _ _) (s.fail_argsApart _ _)
  | ctwr =>
    cases h0 rfl
    exact State.withSymbol_argsApart fun _ => State.withPath_argsApart fun _ => .next
  | ctrd => cases h0 rfl; exact State.withSymbol_argsApart fun _ => .ite .next .next
  | tins b => cases h0 rfl; exact execTins_argsApart b
  | nrd | troot => cases h0 rfl; exact State.withNode_argsApart fun _ => .next
  | bwrw => cases h0 rfl; cases h1 rfl; exact .ite (s.fail_argsApart _ _) .next
  | bapp => cases h0 rfl; cases h1 rfl; exact .ite (s.fail_argsApart _ _) (s.appendTo_argsApart _ _)
  | nwr =>
    cases h0 rfl
    cases h1 rfl
    exact .ite (s.fail_argsApart _ _) (.ite (s.fail_argsApart _ _) .next)

theorem exec_otherA0 {i : Instr} (h : i.usesA0 = false) (s : State) (v : Word) :
    exec i { s with la0 := v } = mapNext (fun t => { t with la0 := v }) (exec i s) :=
  exec_argsApart (g0 := fun _ => v) (g1 := id) (fun h' => by rw [h] at h'; cases h') fun _ => rfl

theorem exec_otherA1 {i : Instr} (h : i.usesA1 = false) (s : State) (v : Word) :
    exec i { s with la1 := v } = mapNext (fun t => { t with la1 := v }) (exec i s) :=
  exec_argsApart (g0 := id) (g1 := fun _ => v) (fun _ => rfl) fun h' => by rw [h] at h'; cases h'

end Sys2Proof.Machine
end

section
/-! PROOFS. The obligations about the encoding (30_encoding.md). -/
namespace Sys2Proof.Proofs

open Sys2Proof Sys2Proof.Machine Sys2Proof.Claims

/-- Settles O1: the fields of the encoding are the command's, and each passes its check. -/
theorem decodeOfEncode : Obligations.DecodeOfEncode := fun _ _ h => decode_encode h

/-- Settles O2: a decoded word is determined by its fields, which are the command's. -/
theorem decodedWordIsItsEncoding : Obligations.DecodedWordIsItsEncoding :=
  fun _ _ _ h => ⟨decode_ok_wellFormed h, encode_of_decode h⟩

/-- Settles O3: both sides say the OPC and that every other field but the buffer operands is 0. -/
theorem wordMatchesCommandByMask : Obligations.WordMatchesCommandByMask :=
  fun w i => (mask_match_iff w i).trans (decode_sixteen_iff w i).symm

/-- Settles O4: the opcode map has no command in the listed ranges and one at every value between them. -/
theorem illegalOpcodeLatched : Obligations.IllegalOpcodeLatched := by
  intro s
  rw [← toNat_opcField]
  refine ⟨fun ms ht hl hill => ?_, fun hleg => ?_⟩
  · rw [step_of_decode_error ht hl (decode_of_illegal hill _)]
    simp [errCodeOf, errInfoOf]
  · obtain ⟨i, -, hi⟩ := exists_opcode_of_not_illegal (opcField s.lcmd).isLt hleg
    exact ⟨i, hi, decode_ne_illegal (BitVec.eq_of_toNat_eq hi.symm) _⟩

/-- Settles O5: the cases are those of the decoder's field checks, in their order. -/
theorem badFieldLatched : Obligations.BadFieldLatched := by
  intro s ms i ht hl hop
  rw [← toNat_opcField] at hop
  have hop : opcField s.lcmd = i.opcode := BitVec.eq_of_toNat_eq hop
  simp only [← toNat_dField, ← toNat_sField, ← toNat_reservedField]
  have latched {e : DecodeError} (he : fieldError? s.params.nbuf i s.lcmd = some e) :=
    step_of_decode_error ht hl (decode_of_fieldError hop he)
  refine ⟨fun h1 => ?_, fun ⟨h1, h2⟩ => ?_, fun ⟨h1, h2, h3⟩ => ?_, fun ⟨h1, h2, h3, h4⟩ => ?_,
    fun ⟨h1, h2, h3, h4⟩ => ?_⟩
  · exact latched (e := .reservedBits) (by rw [fieldError?, if_pos h1])
  · exact latched (e := .unusedField) (by rw [fieldError?, if_neg h1, if_pos h2])
  · exact latched (e := .dRange) (by rw [fieldError?, if_neg h1, if_neg h2, if_pos h3])
  · exact latched (e := .sRange) (by rw [fieldError?, if_neg h1, if_neg h2, if_neg h3, if_pos h4])
  · obtain ⟨j, hj, hdec⟩ := decode_of_no_fieldError (nbuf := s.params.nbuf) hop
      (by rw [fieldError?, if_neg h1, if_neg h2, if_neg h3, if_neg h4])
    exact ⟨j, hj, encode_of_decode hdec, stepRunsDecodedCommand s ms j ht hl hdec⟩

/-- Settles O28: by the footprint of each command, and by what the writes of D leave of it. -/
theorem onlyTheDestinationBufferChanges : Obligations.OnlyTheDestinationBufferChanges := by
  intro i s t b h
  have hu : i.dst? ≠ some b → t.buf b = s.buf b := (exec_update h).buf_eq
  cases i with
  | beqp | beq => cases next_inj h; rfl
  | bwrw d => exact ⟨fun hb => hu (by simpa [Instr.dst?] using Ne.symm hb), execBwrw_len h b⟩
  | bset d | bunset d => exact ⟨fun hb => hu (by simpa [Instr.dst?] using Ne.symm hb), State.putAt_len h b⟩
  | bshl d | bshr d | band d | bor d =>
    exact ⟨fun hb => hu (by simpa [Instr.dst?] using Ne.symm hb), setBuf_len_ec h (by simp) (by simp) b⟩
  | _ => exact hu

/-- Settles O29: the table's columns A0 and A1 are what the commands read. -/
theorem unusedArgumentsIgnored : Obligations.UnusedArgumentsIgnored := by
  intro i s v
  constructor
  · cases i with
    | bwrw | bapp | nwr => trivial
    | _ => exact exec_otherA1 rfl s v
  · cases i with
    | nop | bclr | bappb | band | bor | beqp | beq | ctclr | walk | tclr | trst | dec | clrerr =>
      exact exec_otherA0 rfl s v
    | _ => trivial

/-- Settles O6: the opcode map is computed. -/
theorem specWordsDecode : Obligations.SpecWordsDecode := by
  unfold Obligations.SpecWordsDecode
  decide

end Sys2Proof.Proofs
end

section
/-! PROOFS. Appends (41_pack.md): what a buffer holds after one, and what the commands that append answer. -/
namespace Sys2Proof.Machine

/-- One append after another is the append of both: same LEN, same EC, and the same bit at every position. -/
theorem Buf.append_append (b : Buf) (xs ys : List Bool) : (b.append xs).append ys = b.append (xs ++ ys) := by
  apply Buf.ext_bits
  · simp only [Buf.ec_append, Buf.needs, ceil64, Buf.len_append, List.length_append]
    omega
  · simp [Nat.add_assoc]
  · intro i
    simp only [Buf.bit_append, Buf.len_append, List.length_append]
    by_cases hy : b.len + xs.length ≤ i
    · by_cases hin : i < b.len + xs.length + ys.length
      · rw [if_pos ⟨hy, hin⟩, if_pos (by omega), List.getD_append_right _ _ _ _ (by omega), Nat.sub_sub]
      · rw [if_neg (by omega), if_neg (by omega), if_neg (by omega)]
    · rw [if_neg (by omega)]
      by_cases hx : b.len ≤ i
      · rw [if_pos (by omega), if_pos (by omega), List.getD_append _ _ _ _ (by omega)]
      · rw [if_neg (by omega), if_neg (by omega)]

theorem Buf.bit_append_of_lt (b : Buf) (xs : List Bool) {i : Nat} (h : i < b.len) :
    (b.append xs).bit i = b.bit i := by
  rw [Buf.bit_append, if_neg (by omega)]

theorem Buf.bit_append_len_add (b : Buf) {xs : List Bool} {j : Nat} (h : j < xs.length) :
    (b.append xs).bit (b.len + j) = xs[j] := by
  rw [Buf.bit_append, if_pos (by omega), Nat.add_sub_cancel_left, List.getD_eq_getElem _ _ h]

/-- Both answers of an append of n bits, the j-th of them `f j`: CAPACITY, or D with its LEN, its EC and the bit at every
position, where the bits outside the appended ones are the old ones. -/
theorem State.appendTo_answers {s : State} {d : BufIdx} {xs : List Bool} {n : Nat} {f : Nat → Bool}
    (hlen : xs.length = n) (hf : ∀ j < n, xs.getD j false = f j) :
    (s.params.bufWords < (s.buf d).needs n → s.appendTo d xs = .next (s.raise .capacity ((s.buf d).needs n))) ∧
    ((s.buf d).needs n ≤ s.params.bufWords → ∃ b, s.appendTo d xs = .next (s.setBuf d b) ∧
      b.len = (s.buf d).len + n ∧ b.ec = max (s.buf d).ec ((s.buf d).needs n) ∧
      ∀ i, b.bit i = if (s.buf d).len ≤ i ∧ i < (s.buf d).len + n then f (i - (s.buf d).len)
        else (s.buf d).bit i) := by
  subst hlen
  refine ⟨State.appendTo_of_full, fun hroom =>
    ⟨(s.buf d).append xs, State.appendTo_of_fits hroom, Buf.len_append .., Buf.ec_append .., fun i => ?_⟩⟩
  rw [Buf.bit_append]
  split
  · next hi => exact hf _ (by omega)
  · rfl

theorem execBapp_of_long {d : BufIdx} {s : State} (h : 64 < s.a1) :
    execBapp d s = .next (s.raise .badLength s.a1) := by
  rw [execBapp, if_pos h]
  rfl

theorem execBapp_of_le {d : BufIdx} {s : State} (h : s.a1 ≤ 64) :
    execBapp d s = s.appendTo d (lowBits s.la0 s.a1) := by
  rw [execBapp, if_neg (by omega)]

end Sys2Proof.Machine
end

section
/-! PROOFS. The obligations about packing (41_pack.md). -/
namespace Sys2Proof.Proofs

open Sys2Proof Sys2Proof.Machine

/-- Settles O32: past the check of n, BAPP is the append of the low bits of A0. -/
theorem bappAppendsLowBits : Obligations.BappAppendsLowBits := by
  intro d s n old m
  have hexec (hn : n ≤ 64) : exec (.bapp d) s = s.appendTo d (lowBits s.la0 n) := execBapp_of_le hn
  obtain ⟨hfull, hfits⟩ := State.appendTo_answers (s := s) (d := d) (length_lowBits s.la0 n)
    fun j hj => getD_lowBits s.la0 hj
  refine ⟨execBapp_of_long, fun hn hm => ?_, fun hn hm => ?_⟩
  · exact (hexec hn).trans (hfull hm)
  · rw [hexec hn]
    exact hfits hm

/-- Settles O33: the bits appended are those of S before the write of D. -/
theorem bappbAppendsSnapshot : Obligations.BappbAppendsSnapshot := fun _ b s =>
  State.appendTo_answers (Buf.length_bits (s.buf b)) fun _ hj => Buf.getD_bits _ hj

/-- Settles O35: LEN, EC and each bit of an append determine it. -/
theorem appendLaws : Obligations.AppendLaws := fun b x y =>
  ⟨Buf.append_append b x y, Buf.len_append b x, fun _ => Buf.bit_append_of_lt b x,
    fun _ => Buf.bit_append_len_add b, Buf.ec_append b x, rfl⟩

end Sys2Proof.Proofs
end

section
/-! PROOFS. Buffer management and bit access (42_bit_access.md): the two answers of each write, and the reads over the
element list. -/
namespace Sys2Proof.Machine

variable {s : State} {d : BufIdx}

/-! Writes: CAPACITY past BUF_WORDS, else the new D. -/

theorem execBsetlen_of_full (h : s.params.bufWords < ceil64 s.a0) :
    execBsetlen d s = .next (s.raise .capacity (ceil64 s.a0)) := by
  rw [execBsetlen, if_pos h]
  rfl

theorem execBsetlen_of_fits (h : ceil64 s.a0 ≤ s.params.bufWords) :
    execBsetlen d s = .next (s.setBuf d { (s.buf d).grow (ceil64 s.a0) with len := s.a0 }) := by
  rw [execBsetlen, if_neg (by omega)]

theorem execBwrw_of_full (h : s.params.bufWords ≤ s.a0) :
    execBwrw d s = .next (s.raise .capacity (s.a0 + 1)) := by
  rw [execBwrw, if_pos h]
  rfl

theorem execBwrw_of_fits (h : s.a0 < s.params.bufWords) :
    execBwrw d s = .next (s.setBuf d (((s.buf d).grow (s.a0 + 1)).memWrite s.a0 s.la1)) := by
  rw [execBwrw, if_neg (by omega)]

theorem State.putAt_of_full (x : Bool) (h : 64 * s.params.bufWords ≤ s.a0) :
    s.putAt d x = .next (s.raise .capacity (s.a0 / 64 + 1)) := by
  rw [State.putAt, if_pos (by omega)]
  rfl

theorem State.putAt_of_fits (x : Bool) (h : s.a0 < 64 * s.params.bufWords) :
    s.putAt d x = .next (s.setBuf d (((s.buf d).grow (s.a0 / 64 + 1)).put s.a0 x)) := by
  rw [State.putAt, if_neg (by omega)]

theorem exec_bitWrite (d : BufIdx) (s : State) (x : Bool) :
    exec (if x then .bset d else .bunset d) s = s.putAt d x := by
  cases x <;> rfl

/-! A write into a buffer grown to hold its place. -/

theorem Buf.memRead_memWrite_grow (b : Buf) (k : Nat) (v : Word) (j : Nat) :
    ((b.grow (k + 1)).memWrite k v).memRead j = if j = k then v else b.memRead j := by
  rw [Buf.memRead_memWrite _ (by rw [Buf.ec_grow]; omega), Buf.memRead_grow]

theorem Buf.bit_put_grow (b : Buf) (i : Nat) (x : Bool) (j : Nat) :
    ((b.grow (i / 64 + 1)).put i x).bit j = if j = i then x else b.bit j := by
  rw [Buf.bit_put _ (by rw [Buf.ec_grow]; omega), Buf.bit_grow]

/-! Reads, over the element list. -/

theorem Buf.memRead_eq_dite (b : Buf) (k : Nat) :
    b.memRead k = if h : k < b.elems.length then b.elems[k] else 0#64 := by
  rw [Buf.memRead_eq]
  split
  · next h => exact List.getD_eq_getElem _ _ h
  · next h => exact List.getD_eq_default _ _ (Nat.not_lt.mp h)

theorem setWidth_ofBool (x : Bool) : (BitVec.ofBool x).setWidth 64 = if x then 1#64 else 0#64 := by
  cases x <;> rfl

theorem Buf.bit_word_eq_dite (b : Buf) (i : Nat) :
    (BitVec.ofBool (b.bit i)).setWidth 64 =
      if h : i / 64 < b.elems.length then (if b.elems[i / 64].getLsbD (63 - i % 64) then 1#64 else 0#64)
      else 0#64 := by
  rw [setWidth_ofBool, Buf.bit_eq, Buf.memRead_eq_dite]
  split
  · rfl
  · rw [BitVec.getLsbD_zero]
    rfl

end Sys2Proof.Machine
end

section
/-! PROOFS. The obligations about buffer management and bit access (42_bit_access.md). -/
namespace Sys2Proof.Proofs

open Sys2Proof Sys2Proof.Machine

/-- Settles O36: a grow adds zero elements alone, which read as the positions past EC did. -/
theorem clearAndSetLength : Obligations.ClearAndSetLength := fun _ _ =>
  ⟨rfl, execBsetlen_of_full, fun h =>
    ⟨_, execBsetlen_of_fits h, rfl, Buf.ec_grow .., Buf.bit_grow _ _⟩⟩

/-- Settles O37: the grow makes room for element A0, and the write is to that element alone. -/
theorem bwrwWritesOneElement : Obligations.BwrwWritesOneElement := fun _ _ =>
  ⟨execBwrw_of_full, fun h =>
    ⟨_, execBwrw_of_fits h, rfl, (Buf.ec_memWrite ..).trans (Buf.ec_grow ..), Buf.memRead_memWrite_grow _ _ _⟩⟩

/-- Settles O38: both meanings write RESULT alone, with an element read and with a bit of one. -/
theorem readsOfElementsAndBits : Obligations.ReadsOfElementsAndBits := by
  intro b s
  have answer {v w : Word} (h : v = w) : (.next (s.setResult v) : Out) = .next (s.setResult w) := by rw [h]
  exact ⟨answer (Buf.memRead_eq_dite (s.buf b) s.a0), answer (Buf.bit_word_eq_dite (s.buf b) s.a0)⟩

/-- Settles O39: BSET and BUNSET are one write, whose grow makes room for position A0. -/
theorem setAndClearOneBit : Obligations.SetAndClearOneBit := by
  intro d s x i command
  rw [exec_bitWrite d s x]
  exact ⟨State.putAt_of_full x, fun h =>
    ⟨_, State.putAt_of_fits x h, rfl, (Buf.ec_put ..).trans (Buf.ec_grow ..), Buf.bit_put_grow _ _ x⟩⟩

end Sys2Proof.Proofs
end

section
/-! PROOFS. The shifts at every stream position and how they compose, the element-wise operations on a buffer and
itself, and what the two equalities say (43_shift_logic.md). -/
namespace Sys2Proof.Machine

/-! The shifts: no position past EC holds a 1, before or after (R33). -/

theorem Buf.bit_shl_of_ge (b : Buf) (n : Nat) {i : Nat} (h : 64 * b.ec ≤ i) : (b.shl n).bit i = false :=
  Buf.bit_of_ge _ (by rwa [Buf.ec_shl])

theorem Buf.bit_shr_of_ge (b : Buf) (n : Nat) {i : Nat} (h : 64 * b.ec ≤ i) : (b.shr n).bit i = false :=
  Buf.bit_of_ge _ (by rwa [Buf.ec_shr])

theorem Buf.bit_shl_eq_ite (b : Buf) (n : Nat) {i : Nat} (h : i < 64 * b.ec) :
    (b.shl n).bit i = if i + n < 64 * b.ec then b.bit (i + n) else false := by
  rw [Buf.bit_shl b n h]
  split
  · rfl
  · exact Buf.bit_of_ge b (by omega)

theorem Buf.shl_shl (b : Buf) (n p : Nat) : (b.shl n).shl p = b.shl (n + p) := by
  refine Buf.ext_bits (by simp) rfl fun i => ?_
  by_cases hi : i < 64 * b.ec
  · rw [Buf.bit_shl _ p (by simpa using hi), Buf.bit_shl b _ hi]
    by_cases hp : i + p < 64 * b.ec
    · rw [Buf.bit_shl b n hp, Nat.add_assoc, Nat.add_comm p n]
    · rw [Buf.bit_shl_of_ge b n (by omega), Buf.bit_of_ge b (by omega)]
  · rw [Buf.bit_shl_of_ge _ p (by simpa using hi), Buf.bit_shl_of_ge b _ (by omega)]

theorem Buf.shr_shr (b : Buf) (n p : Nat) : (b.shr n).shr p = b.shr (n + p) := by
  refine Buf.ext_bits (by simp) rfl fun i => ?_
  by_cases hi : i < 64 * b.ec
  · rw [Buf.bit_shr _ p (by simpa using hi), Buf.bit_shr b _ hi]
    by_cases hp : p ≤ i
    · rw [if_pos hp, Buf.bit_shr b n (by omega), Nat.sub_sub, Nat.add_comm p n]
      by_cases hn : n + p ≤ i
      · rw [if_pos hn, if_pos (by omega)]
      · rw [if_neg hn, if_neg (by omega)]
    · rw [if_neg hp, if_neg (by omega)]
  · rw [Buf.bit_shr_of_ge _ p (by simpa using hi), Buf.bit_shr_of_ge b _ (by omega)]

/-- A shift left and back clears the first n positions (R156). -/
theorem Buf.bit_shr_shl (b : Buf) (n i : Nat) :
    ((b.shl n).shr n).bit i = if i < min n (64 * b.ec) then false else b.bit i := by
  by_cases hi : i < 64 * b.ec
  · rw [Buf.bit_shr _ n (by simpa using hi)]
    by_cases hn : n ≤ i
    · rw [if_pos hn, if_neg (by omega), Buf.bit_shl b n (by omega), Nat.sub_add_cancel hn]
    · rw [if_neg hn, if_pos (by omega)]
  · rw [Buf.bit_shr_of_ge _ n (by simpa using hi), if_neg (by omega), Buf.bit_of_ge b (by omega)]

/-- A shift right and back clears the last n positions (R156). -/
theorem Buf.bit_shl_shr (b : Buf) (n i : Nat) :
    ((b.shr n).shl n).bit i =
      if 64 * b.ec - min n (64 * b.ec) ≤ i ∧ i < 64 * b.ec then false else b.bit i := by
  by_cases hi : i < 64 * b.ec
  · rw [Buf.bit_shl _ n (by simpa using hi)]
    by_cases hn : i + n < 64 * b.ec
    · rw [if_neg (by omega), Buf.bit_shr b n hn, if_pos (by omega), Nat.add_sub_cancel]
    · rw [if_pos (by omega), Buf.bit_shr_of_ge b n (by omega)]
  · rw [Buf.bit_shl_of_ge _ n (by simpa using hi), if_neg (by omega), Buf.bit_of_ge b (by omega)]

/-! BAND and BOR with D = S (R309). -/

theorem zipPrefix_self {f : Word → Word → Word} (hf : ∀ v, f v v = v) (xs : List Word) : zipPrefix f xs xs = xs := by
  induction xs with
  | nil => rfl
  | cons x xs ih => rw [zipPrefix, hf, ih]

theorem Buf.combine_self {f : Word → Word → Word} (hf : ∀ v, f v v = v) (b : Buf) : Buf.combine f b b = b := by
  rw [Buf.combine, zipPrefix_self hf]

theorem State.setBuf_combine_self {f : Word → Word → Word} (hf : ∀ v, f v v = v) (s : State) (d : BufIdx) :
    s.setBuf d (Buf.combine f (s.buf d) (s.buf d)) = s := by
  rw [Buf.combine_self hf, State.setBuf_buf]

/-! BEQP and BEQ. -/

theorem prefixEq_iff (x y : Buf) : prefixEq x y = true ↔ ∀ k < min x.ec y.ec, x.memRead k = y.memRead k := by
  simp only [prefixEq, List.all_eq_true, List.mem_range, beq_iff_eq]

theorem fullEq_iff (x y : Buf) : fullEq x y = true ↔ x.len = y.len ∧ ∀ i < x.len, x.bit i = y.bit i := by
  simp only [fullEq, Bool.and_eq_true, List.all_eq_true, List.mem_range, beq_iff_eq]

theorem prefixEq_self (b : Buf) : prefixEq b b = true := (prefixEq_iff b b).mpr fun _ _ => rfl

theorem fullEq_self (b : Buf) : fullEq b b = true := (fullEq_iff b b).mpr ⟨rfl, fun _ _ => rfl⟩

theorem State.setEq_eq_ite (s : State) (e : Bool) :
    s.setEq e = { s with eq := e, result := if e then 1#64 else 0#64 } := by
  rw [State.setEq, setWidth_ofBool]

end Sys2Proof.Machine
end

section
/-! PROOFS. The obligations about shift, logic and compare (43_shift_logic.md). -/
namespace Sys2Proof.Proofs

open Sys2Proof Sys2Proof.Machine

/-- Settles O40: each meaning stores the shifted D, of which the laws of the shifts give every position. -/
theorem shiftsMoveStreamPositions : Obligations.ShiftsMoveStreamPositions := fun d s =>
  ⟨⟨_, rfl, Buf.len_shl .., Buf.ec_shl .., fun _ => Buf.bit_shl_eq_ite (s.buf d) s.a0⟩,
    ⟨_, rfl, Buf.len_shr .., Buf.ec_shr .., fun _ => Buf.bit_shr (s.buf d) s.a0⟩⟩

/-- Settles O41: two shifts in a row are followed position by position. -/
theorem shiftsCompose : Obligations.ShiftsCompose := fun b n p =>
  ⟨Buf.shl_shl b n p, Buf.shr_shr b n p, Buf.bit_shr_shl b n, Buf.bit_shl_shr b n⟩

/-- Settles O42: BAND and BOR are one combination with two operations on words, each of which leaves v from v and v. -/
theorem andOrUpToShorterCount : Obligations.AndOrUpToShorterCount :=
  ⟨fun d b s =>
    ⟨⟨_, rfl, Buf.len_combine .., Buf.ec_combine .., Buf.memRead_combine (· &&& ·) (s.buf d) (s.buf b)⟩,
      ⟨_, rfl, Buf.len_combine .., Buf.ec_combine .., Buf.memRead_combine (· ||| ·) (s.buf d) (s.buf b)⟩⟩,
    fun d s =>
    ⟨congrArg _ (State.setBuf_combine_self (fun _ => BitVec.and_self) s d),
      congrArg _ (State.setBuf_combine_self (fun _ => BitVec.or_self) s d)⟩⟩

/-- Settles O43: both meanings write EQ and RESULT alone, with a comparison that holds of a buffer and itself. -/
theorem equalitiesCompare : Obligations.EqualitiesCompare := by
  have answer (s : State) {e e' : Bool} (h : e = e') :
      (.next (s.setEq e) : Out) = .next { s with eq := e', result := if e' then 1#64 else 0#64 } := by
    rw [h, State.setEq_eq_ite]
  constructor
  · intro d b s
    exact ⟨⟨_, answer s rfl, prefixEq_iff (s.buf d) (s.buf b)⟩, ⟨_, answer s rfl, fullEq_iff (s.buf d) (s.buf b)⟩⟩
  · intro d s
    exact ⟨answer s (prefixEq_self (s.buf d)), answer s (fullEq_self (s.buf d))⟩

end Sys2Proof.Proofs
end

section
/-! PROOFS. The entry of a symbol as the commands read and write it (44_code_table.md), and what CTWR, CTRD, BENC and
WALK answer in each case. -/
namespace Sys2Proof.Machine

/-- The j-th bit of an entry's code is path bit j. -/
theorem Entry.getD_bits (e : Entry) {j : Nat} (h : j < e.len.toNat) :
    e.bits.getD j false = e.path.getLsbD (255 - j) := by
  have hj : j < 256 := by have := e.len.isLt; omega
  rw [List.getD_eq_getElem _ _ (by rwa [Entry.length_bits])]
  simp [Entry.bits, pathBit, hj]

/-- The path bits of the entry of a code, by their place in the 256-bit number (R38). -/
theorem getLsbD_path_ofCode {bits : List Bool} (h : bits.length ≤ maxPath) {j : Nat} (hj : j < 256) :
    (Entry.ofCode bits).path.getLsbD (255 - j) = bits.getD j false := by
  rw [← pathBit_ofCode bits h, pathBit, if_pos hj]

theorem getElem_ctSet_self (ct : Vector Entry 256) {sym : Byte} {k : Fin 256} (h : k.val = sym.toNat) (e : Entry) :
    (ctSet ct sym e)[k] = e := by
  simp [ctSet, h]

theorem getElem_ctSet_ne (ct : Vector Entry 256) {sym : Byte} {k : Fin 256} (h : k.val ≠ sym.toNat) (e : Entry) :
    (ctSet ct sym e)[k] = ct[k] := by
  simp [ctSet, h.symm]

/-! The buffer that holds just the appended bits. -/

theorem Buf.len_empty_append (xs : List Bool) : (Buf.empty.append xs).len = xs.length :=
  Nat.zero_add _

theorem Buf.ec_empty_append (xs : List Bool) : (Buf.empty.append xs).ec = (xs.length + 63) / 64 := by
  have hneeds : Buf.empty.needs xs.length = (xs.length + 63) / 64 := by simp [Buf.needs, Buf.empty, ceil64]
  rw [Buf.ec_append, hneeds]
  exact Nat.zero_max _

theorem Buf.bit_empty_append (xs : List Bool) (i : Nat) : (Buf.empty.append xs).bit i = xs.getD i false := by
  rw [Buf.bit_append]
  by_cases hi : i < xs.length
  · simp [Buf.empty, hi]
  · rw [if_neg (by simp [Buf.empty]; omega), List.getD_eq_default _ _ (Nat.not_lt.mp hi)]
    exact Buf.bit_of_ge _ (Nat.zero_le i)

/-! What each command answers, case by case. -/

variable {s : State} {d b : BufIdx}

theorem State.withSymbol_of_gt (h : 255 < s.a0) (k : Byte → Out) : s.withSymbol k = .next (s.raise .badField 5) := by
  rw [State.withSymbol, if_pos h]
  rfl

theorem State.withPath_of_bad (h : (s.buf b).len = 0 ∨ maxPath < (s.buf b).len) (k : List Bool → Out) :
    s.withPath b k = .next (s.raise .badLength (s.buf b).len) := by
  rw [State.withPath, if_pos h]
  rfl

theorem execCtwr_of_gt (h : 255 < s.a0) : execCtwr b s = .next (s.raise .badField 5) :=
  State.withSymbol_of_gt h _

theorem execCtwr_of_bad_len (ha : s.a0 ≤ 255) (h : (s.buf b).len = 0 ∨ maxPath < (s.buf b).len) :
    execCtwr b s = .next (s.raise .badLength (s.buf b).len) := by
  rw [execCtwr, State.withSymbol_of_le ha, State.withPath_of_bad h]

theorem execCtwr_of_fits (ha : s.a0 ≤ 255) (h1 : 1 ≤ (s.buf b).len) (h2 : (s.buf b).len ≤ maxPath) :
    execCtwr b s = .next (s.setCt (ctSet s.ct (BitVec.ofNat 8 s.a0) (Entry.ofCode (s.buf b).bits))) := by
  rw [execCtwr, State.withSymbol_of_le ha, State.withPath_of_fits h1 h2]

theorem execCtrd_of_gt (h : 255 < s.a0) : execCtrd d s = .next (s.raise .badField 5) :=
  State.withSymbol_of_gt h _

theorem execCtrd_of_valid (ha : s.a0 ≤ 255) (hv : (s.entry (BitVec.ofNat 8 s.a0)).valid = true) :
    execCtrd d s = .next ((s.setBuf d (Buf.empty.append (s.entry (BitVec.ofNat 8 s.a0)).bits)).setResult
      ((s.entry (BitVec.ofNat 8 s.a0)).len.setWidth 64)) := by
  rw [execCtrd, State.withSymbol_of_le ha, if_pos hv]

theorem execCtrd_of_invalid (ha : s.a0 ≤ 255) (hv : (s.entry (BitVec.ofNat 8 s.a0)).valid = false) :
    execCtrd d s = .next ((s.setBuf d Buf.empty).setResult 0#64) := by
  rw [execCtrd, State.withSymbol_of_le ha, if_neg (by simp [hv])]

theorem execBenc_of_gt (h : 255 < s.a0) : execBenc d s = .next (s.raise .badField 5) :=
  State.withSymbol_of_gt h _

theorem execBenc_of_valid (ha : s.a0 ≤ 255) (hv : (s.entry (BitVec.ofNat 8 s.a0)).valid = true) :
    execBenc d s = s.appendTo d (s.entry (BitVec.ofNat 8 s.a0)).bits := by
  rw [execBenc, State.withSymbol_of_le ha, if_pos hv]

theorem execBenc_of_invalid (ha : s.a0 ≤ 255) (hv : (s.entry (BitVec.ofNat 8 s.a0)).valid = false) :
    execBenc d s = .next (s.raise .noCode s.a0) := by
  have hsym : (BitVec.ofNat 8 s.a0).toNat = s.a0 := Nat.mod_eq_of_lt (by omega)
  rw [execBenc, State.withSymbol_of_le ha, if_neg (by simp [hv]), hsym]
  rfl

theorem execWalk_of_null (h : s.root = NodeIdx.null) :
    execWalk s = .next ((s.setCt ctEmpty).raise .nodeIndex 0x1FF) := by
  rw [execWalk, if_pos h]
  rfl

theorem execWalk_of_ok {w : Walk} (h : s.root ≠ NodeIdx.null) (hw : walkTree s.nodes s.root = .ok w) :
    execWalk s = .next (s.setCt w.ct) := by
  rw [execWalk, if_neg h, hw]

theorem execWalk_of_error {e : WalkError} (h : s.root ≠ NodeIdx.null) (he : walkTree s.nodes s.root = .error e) :
    execWalk s = .next ((s.setCt e.ct).raise e.code e.info) := by
  rw [execWalk, if_neg h, he]
  rfl

end Sys2Proof.Machine
end

section
/-! PROOFS. The obligations about the entries of the code table (44_code_table.md R180 to R182, R185). -/
namespace Sys2Proof.Proofs

open Sys2Proof Sys2Proof.Machine

/-- Settles O34: past its checks BENC is the append of the entry's code. -/
theorem bencAppendsCode : Obligations.BencAppendsCode := by
  intro d s e n old m
  obtain ⟨hfull, hfits⟩ := State.appendTo_answers (s := s) (d := d) (Entry.length_bits e) fun _ hj => e.getD_bits hj
  refine ⟨execBenc_of_gt, execBenc_of_invalid, fun ha hv hm => ?_, fun ha hv hm => ?_⟩
  · exact (execBenc_of_valid ha hv).trans (hfull hm)
  · obtain ⟨b, hb, hout⟩ := hfits hm
    exact ⟨b, (execBenc_of_valid ha hv).trans hb, hout⟩

/-- Settles O44: the entry CTWR stores is that of the buffer's first LEN bits, and no other entry is written. -/
theorem tableClearAndWrite : Obligations.TableClearAndWrite := by
  refine ⟨fun s => ⟨ctEmpty, rfl, fun k => ctGet_ctEmpty (BitVec.ofFin k)⟩, ?_⟩
  intro b s n
  refine ⟨execCtwr_of_gt, execCtwr_of_bad_len, fun ha h1 h2 => ⟨_, execCtwr_of_fits ha h1 h2, ?_⟩⟩
  have hsym : (BitVec.ofNat 8 s.a0).toNat = s.la0.toNat := Nat.mod_eq_of_lt (Nat.lt_succ_of_le ha)
  have hlen : (s.buf b).bits.length ≤ maxPath := by rwa [Buf.length_bits]
  refine ⟨fun k hk => getElem_ctSet_ne _ (by rwa [hsym]) _, fun k hk => ?_⟩
  rw [getElem_ctSet_self _ (by rwa [hsym])]
  refine ⟨Entry.valid_ofCode _, (Entry.len_ofCode _ hlen).trans (Buf.length_bits _), fun j hj => ?_⟩
  rw [getLsbD_path_ofCode hlen hj]
  split
  · next hjn => exact Buf.getD_bits _ hjn
  · next hjn => exact List.getD_eq_default _ _ (by rw [Buf.length_bits]; omega)

/-- Settles O45: D is the empty buffer with the entry's code appended, so no bit of the old D is left. -/
theorem ctrdReadsEntry : Obligations.CtrdReadsEntry := by
  intro d s e
  refine ⟨execCtrd_of_gt, execCtrd_of_invalid, fun ha hv =>
    ⟨Buf.empty.append e.bits, ?_, ?_, ?_, fun i => ?_⟩⟩
  · rw [BitVec.ofNat_toNat]
    exact execCtrd_of_valid ha hv
  · rw [Buf.len_empty_append, Entry.length_bits]
  · rw [Buf.ec_empty_append, Entry.length_bits]
  · rw [Buf.bit_empty_append]
    split
    · next hi => exact e.getD_bits hi
    · next hi => exact List.getD_eq_default _ _ (by rw [Entry.length_bits]; omega)

end Sys2Proof.Proofs
end

section
/-! PROOFS. Routes: the order in which WALK visits them, and where they lead. -/
namespace Sys2Proof.Machine

open Sys2Proof.Claims

theorem visitedBefore_cons (x y : Bool) (p q : List Bool) :
    visitedBefore (x :: p) (y :: q) = true ↔ (x = false ∧ y = true) ∨ (x = y ∧ visitedBefore p q = true) := by
  simp [visitedBefore]

/-! The order of visits is the lexicographic order of routes. -/

theorem visitedBefore_iff_lt (p q : List Bool) : visitedBefore p q = true ↔ p < q := by
  induction p generalizing q with
  | nil => cases q <;> simp [visitedBefore]
  | cons x xs ih =>
    cases q with
    | nil => simp [visitedBefore]
    | cons y ys => rw [visitedBefore_cons, List.cons_lt_cons_iff, ih, Bool.lt_iff]

theorem visitedBefore_trans {p q r : List Bool} (h₁ : visitedBefore p q = true) (h₂ : visitedBefore q r = true) :
    visitedBefore p r = true := by
  rw [visitedBefore_iff_lt] at *
  exact h₁.trans h₂

theorem not_visitedBefore_self (p : List Bool) : ¬ visitedBefore p p = true := by
  rw [visitedBefore_iff_lt]
  exact lt_irrefl p

theorem ne_of_visitedBefore {p q : List Bool} (h : visitedBefore p q = true) : p ≠ q := fun he =>
  not_visitedBefore_self q (he ▸ h)

/-- The next route after a route that is visited begins with a left edge. -/
theorem visitedBefore_snoc_false (q r : List Bool) :
    visitedBefore q (r ++ [false]) = true ↔ visitedBefore q r = true ∨ q = r := by
  induction r generalizing q with
  | nil => cases q with
    | nil => simp [visitedBefore]
    | cons y ys => cases ys <;> simp [visitedBefore]
  | cons x xs ih => cases q with
    | nil => simp [visitedBefore]
    | cons y ys =>
      rw [List.cons_append, visitedBefore_cons, visitedBefore_cons, ih, List.cons.injEq]
      tauto

/-- `q` is visited before `r` or in the subtree at `r`. -/
def VisitedByEndOf (r q : List Bool) : Prop := visitedBefore q r = true ∨ r <+: q

theorem visitedBefore_snoc_true (q r : List Bool) :
    visitedBefore q (r ++ [true]) = true ↔ VisitedByEndOf (r ++ [false]) q := by
  unfold VisitedByEndOf
  induction r generalizing q with
  | nil => cases q with
    | nil => simp [visitedBefore]
    | cons y ys => cases ys <;> cases y <;> simp [visitedBefore]
  | cons x xs ih => cases q with
    | nil => simp [visitedBefore]
    | cons y ys =>
      rw [List.cons_append, List.cons_append, visitedBefore_cons, visitedBefore_cons, List.cons_prefix_cons, ih]
      tauto

theorem visitedByEndOf_snoc_true (q r : List Bool) : VisitedByEndOf (r ++ [true]) q ↔ VisitedByEndOf r q := by
  unfold VisitedByEndOf
  induction r generalizing q with
  | nil => cases q with
    | nil => simp [visitedBefore]
    | cons y ys => cases ys <;> cases y <;> simp [visitedBefore]
  | cons x xs ih => cases q with
    | nil => simp [visitedBefore]
    | cons y ys =>
      rw [List.cons_append, visitedBefore_cons, visitedBefore_cons, List.cons_prefix_cons, List.cons_prefix_cons]
      have := ih ys
      tauto

/-! Where routes lead. -/

theorem Node.child_false (x : Node) : x.child false = x.left := rfl

theorem Node.child_true (x : Node) : x.child true = x.right := rfl

section
variable {nodes : List Node} {root n : NodeIdx} {route : List Bool}

theorem follow_append (nodes : List Node) (n : NodeIdx) (p q : List Bool) :
    follow nodes n (p ++ q) = (follow nodes n p).bind fun m => follow nodes m q := by
  induction p generalizing n with
  | nil => rfl
  | cons x xs ih =>
    rw [List.cons_append, follow, follow]
    split
    · exact ih _
    · rfl

theorem follow_eq_nil_of_data (hd : (nodeAt nodes n).kind = .data) {q : List Bool} (hq : follow nodes n q ≠ none) :
    q = [] := by
  cases q with
  | nil => rfl
  | cons x xs => simp [follow, hd] at hq

/-- No route leads on from a Data node. -/
theorem eq_of_prefix_of_data (hn : follow nodes root route = some n) (hd : (nodeAt nodes n).kind = .data)
    {q : List Bool} (hq : follow nodes root q ≠ none) (h : route <+: q) : q = route := by
  obtain ⟨r, rfl⟩ := h
  rw [follow_append, hn] at hq
  rw [follow_eq_nil_of_data hd hq, List.append_nil]

/-- An edge of an existing Internal node leads to its child, if that is not NULL. -/
theorem follow_snoc (hn : follow nodes root route = some n) (hlt : n.toNat < nodes.length)
    (hk : (nodeAt nodes n).kind = .internal) {x : Bool} (hx : (nodeAt nodes n).child x ≠ NodeIdx.null) :
    follow nodes root (route ++ [x]) = some ((nodeAt nodes n).child x) := by
  rw [follow_append, hn]
  exact (if_pos ⟨hlt, hk, hx⟩).trans rfl

/-- No route leads through a NULL child. -/
theorem follow_eq_none_of_null (hn : follow nodes root route = some n) {x : Bool}
    (hx : (nodeAt nodes n).child x = NodeIdx.null) {q : List Bool} (h : route ++ [x] <+: q) :
    follow nodes root q = none := by
  obtain ⟨r, rfl⟩ := h
  rw [List.append_assoc, follow_append, hn]
  exact if_neg fun hc => hc.2.2 hx

theorem leafAt_iff (hn : follow nodes root route = some n) (sym : Byte) :
    LeafAt nodes root route sym ↔ (nodeAt nodes n).kind = .data ∧ (nodeAt nodes n).sym = sym := by
  simp [LeafAt, hn]

theorem visitPasses_iff (hn : follow nodes root route = some n) (before : List (List Bool)) :
    VisitPasses nodes root before route ↔ route.length ≤ 255 ∧ n.toNat < nodes.length ∧
      before.length + 1 ≤ nodes.length ∧
      ((nodeAt nodes n).kind = .data → (nodeAt nodes n).left = NodeIdx.null ∧ (nodeAt nodes n).right = NodeIdx.null ∧
        ∀ p ∈ before, ¬ LeafAt nodes root p (nodeAt nodes n).sym) := by
  simp [VisitPasses, hn]

/-! Each check of a visit (R183). -/

theorem not_visitPasses_of_deep {before : List (List Bool)} (h : 255 < route.length) :
    ¬ VisitPasses nodes root before route := by
  rintro ⟨-, -, hdeep, -⟩
  omega

theorem not_visitPasses_of_ge (hn : follow nodes root route = some n) (h : nodes.length ≤ n.toNat)
    {before : List (List Bool)} : ¬ VisitPasses nodes root before route := by
  rw [visitPasses_iff hn]
  rintro ⟨-, hlt, -⟩
  omega

theorem not_visitPasses_of_full {before : List (List Bool)} (h : nodes.length ≤ before.length) :
    ¬ VisitPasses nodes root before route := by
  rintro ⟨-, -, -, -, hroom, -⟩
  omega

theorem not_visitPasses_of_child (hn : follow nodes root route = some n) (hk : (nodeAt nodes n).kind = .data)
    (h : (nodeAt nodes n).left ≠ NodeIdx.null ∨ (nodeAt nodes n).right ≠ NodeIdx.null) {before : List (List Bool)} :
    ¬ VisitPasses nodes root before route := by
  rw [visitPasses_iff hn]
  rintro ⟨-, -, -, hleaf⟩
  obtain ⟨hl, hr, -⟩ := hleaf hk
  exact h.elim (absurd hl) (absurd hr)

theorem not_visitPasses_of_seen (hn : follow nodes root route = some n) (hk : (nodeAt nodes n).kind = .data)
    {before : List (List Bool)} (h : ∃ p ∈ before, LeafAt nodes root p (nodeAt nodes n).sym) :
    ¬ VisitPasses nodes root before route := by
  rw [visitPasses_iff hn]
  rintro ⟨-, -, -, hleaf⟩
  obtain ⟨-, -, hnew⟩ := hleaf hk
  obtain ⟨p, hp, hl⟩ := h
  exact hnew p hp hl

/-- A leaf's route leads to no other leaf. -/
theorem sym_eq_of_prefix_of_leaf {p q : List Bool} {a b : Byte} (hp : LeafAt nodes root p a)
    (hq : LeafAt nodes root q b) (h : p <+: q) : a = b := by
  obtain ⟨n, hn, hkind, rfl⟩ := hp
  obtain ⟨m, hm, -, rfl⟩ := hq
  obtain rfl := eq_of_prefix_of_data hn hkind (by simp [hm]) h
  rw [Option.some.inj (hn.symm.trans hm)]

theorem follow_of_leadsTo (h : leadsTo nodes root route = some n) : follow nodes root route = some n := by
  induction route generalizing root with
  | nil =>
    rw [leadsTo] at h
    split at h
    · exact h
    · cases h
  | cons x xs ih =>
    rw [leadsTo] at h
    rw [follow]
    split at h
    · next hc => rw [if_pos hc]; exact ih h
    · cases h

theorem leadsTo_of_follow (h : follow nodes root route = some n) (hlt : n.toNat < nodes.length) :
    leadsTo nodes root route = some n := by
  induction route generalizing root with
  | nil =>
    obtain rfl := Option.some.inj h
    exact if_pos hlt
  | cons x xs ih =>
    rw [follow] at h
    rw [leadsTo]
    split at h
    · next hc => rw [if_pos hc]; exact ih h
    · cases h

/-! The code of a route (R183). -/

theorem codeOfRoute_ne_nil (route : List Bool) : codeOfRoute route ≠ [] := by
  unfold codeOfRoute
  split
  · simp
  · assumption

theorem length_codeOfRoute_le (h : route.length ≤ 255) : (codeOfRoute route).length ≤ maxPath := by
  unfold codeOfRoute
  split
  · decide
  · exact h

/-- Where one code begins another, one of the two routes begins the other: a code is its route, but for the root's. -/
theorem prefix_or_prefix_of_codeOfRoute {p q : List Bool} (h : codeOfRoute p <+: codeOfRoute q) :
    p <+: q ∨ q <+: p := by
  by_cases hp : p = []
  · exact .inl (hp ▸ List.nil_prefix)
  by_cases hq : q = []
  · exact .inr (hq ▸ List.nil_prefix)
  rw [codeOfRoute, codeOfRoute, if_neg hp, if_neg hq] at h
  exact .inl h

end

end Sys2Proof.Machine
end

section
/-! PROOFS. The visits that WALK has made, and what it leaves in the table (44_code_table.md R183). -/
namespace Sys2Proof.Machine

open Sys2Proof.Claims

/-- `done` are the routes to visit up to a cut, in order, and each of these visits passes. -/
def VisitedUpTo (nodes : List Node) (root : NodeIdx) (cut : List Bool → Prop) (done : List (List Bool)) : Prop :=
  done.Pairwise (fun p q => visitedBefore p q = true) ∧
  (∀ q, q ∈ done ↔ cut q ∧ follow nodes root q ≠ none) ∧
  ∀ pre q post, done = pre ++ q :: post → VisitPasses nodes root pre q

/-- The table holds the code of each leaf among the routes `done` and no other entry (D33). -/
def Records (nodes : List Node) (root : NodeIdx) (done : List (List Bool)) (ct : Vector Entry 256) : Prop :=
  ∀ sym, (∀ p ∈ done, LeafAt nodes root p sym → ctGet ct sym = Entry.ofCode (codeOfRoute p)) ∧
    ((∀ p ∈ done, ¬ LeafAt nodes root p sym) → ctGet ct sym = Entry.invalid)

/-- WALK comes to `route`, which leads to index n, and the visit fails a check. -/
def FirstFailure (nodes : List Node) (root : NodeIdx) (before : List (List Bool)) (route : List Bool) (n : NodeIdx) :
    Prop :=
  WalkReaches nodes root before route ∧ follow nodes root route = some n ∧ ¬ VisitPasses nodes root before route

/-- The error code of a visit that fails a check: the depth is checked first, then the index, then the rest (R183). -/
def failureCode (nodes : List Node) (route : List Bool) (n : NodeIdx) : ErrCode :=
  if route.length ≤ 255 ∧ nodes.length ≤ n.toNat then .nodeIndex else .treeMalformed

variable {nodes : List Node} {root n : NodeIdx} {route : List Bool} {done before : List (List Bool)}

theorem VisitedUpTo.congr {cut cut' : List Bool → Prop} (h : VisitedUpTo nodes root cut done)
    (hcut : ∀ q, follow nodes root q ≠ none → (cut q ↔ cut' q)) : VisitedUpTo nodes root cut' done := by
  obtain ⟨hsorted, hmem, hpass⟩ := h
  refine ⟨hsorted, fun q => (hmem q).trans ?_, hpass⟩
  simp only [and_congr_left_iff]
  exact hcut q

/-- A visit that passes is added at the end. -/
theorem walkReaches_snoc (h : WalkReaches nodes root done route) (hp : VisitPasses nodes root done route) :
    WalkReaches nodes root (done ++ [route]) (route ++ [false]) := by
  obtain ⟨hsorted, hmem, hpass⟩ := h
  refine ⟨?_, fun q => ?_, fun pre q post hsplit => ?_⟩
  · refine List.pairwise_append.mpr ⟨hsorted, List.pairwise_singleton _ _, fun p hpm r hr => ?_⟩
    rw [List.mem_singleton.mp hr]
    exact ((hmem p).mp hpm).1
  · have hroute : follow nodes root route ≠ none := by
      obtain ⟨n, hn, -⟩ := hp
      simp [hn]
    rw [List.mem_append, hmem, List.mem_singleton, visitedBefore_snoc_false, or_and_right,
      and_iff_left_of_imp fun he : q = route => he ▸ hroute]
  · obtain ⟨hpre, hq⟩ | ⟨post', hpre⟩ : (done = pre ∧ route = q) ∨ ∃ post', done = pre ++ q :: post' := by
      rcases List.eq_nil_or_concat post with rfl | ⟨post', last, rfl⟩
      · exact .inl (by simpa using hsplit)
      · refine .inr ⟨post', ?_⟩
        rw [List.concat_eq_append, ← List.cons_append, ← List.append_assoc] at hsplit
        exact (List.append_inj' hsplit rfl).1
    · rwa [← hpre, ← hq]
    · exact hpass _ _ _ hpre

/-- Of the visits made, each one's predecessors are the routes before it. -/
theorem VisitedUpTo.walkReaches_of_mem {cut : List Bool → Prop}
    (hdown : ∀ p q, visitedBefore p q = true → cut q → cut p) (h : VisitedUpTo nodes root cut done)
    (hmem : route ∈ done) : ∃ pre, WalkReaches nodes root pre route ∧ VisitPasses nodes root pre route := by
  obtain ⟨hsorted, hiff, hpass⟩ := h
  obtain ⟨pre, post, rfl⟩ := List.append_of_mem hmem
  obtain ⟨hpre, hrest, hcross⟩ := List.pairwise_append.mp hsorted
  refine ⟨pre, ⟨hpre, fun q => ⟨fun hq => ?_, fun ⟨hlt, hq⟩ => ?_⟩, fun a q b hsplit => ?_⟩, hpass _ _ _ rfl⟩
  · exact ⟨hcross q hq route (by simp), ((hiff q).mp (by simp [hq])).2⟩
  · have hq' := (hiff q).mpr ⟨hdown q route hlt ((hiff route).mp hmem).1, hq⟩
    rcases List.mem_append.mp hq' with hq' | hq'
    · exact hq'
    · rcases List.mem_cons.mp hq' with rfl | hq'
      · exact absurd hlt (not_visitedBefore_self q)
      · exact absurd (visitedBefore_trans hlt ((List.pairwise_cons.mp hrest).1 q hq')) (not_visitedBefore_self q)
  · exact hpass a q (b ++ route :: post) (by rw [hsplit]; simp)

theorem VisitedUpTo.unique {cut : List Bool → Prop} {done' : List (List Bool)} (h : VisitedUpTo nodes root cut done)
    (h' : VisitedUpTo nodes root cut done') : done = done' := by
  have : Std.Antisymm fun p q => visitedBefore p q = true :=
    ⟨fun p q h₁ h₂ => absurd (visitedBefore_trans h₁ h₂) (not_visitedBefore_self p)⟩
  have : Std.Irrefl fun p q => visitedBefore p q = true := ⟨not_visitedBefore_self⟩
  exact h.1.eq_of_mem_iff h'.1 fun q => (h.2.1 q).trans (h'.2.1 q).symm

/-- A visit that fails is not among the visits made. -/
theorem FirstFailure.not_mem {cut : List Bool → Prop}
    (hdown : ∀ p q, visitedBefore p q = true → cut q → cut p) (h : VisitedUpTo nodes root cut done)
    (hf : FirstFailure nodes root before route n) : route ∉ done := by
  intro hmem
  obtain ⟨hreach, -, hfail⟩ := hf
  obtain ⟨pre, hpre, hpass⟩ := h.walkReaches_of_mem hdown hmem
  rw [VisitedUpTo.unique hpre hreach] at hpass
  exact hfail hpass

theorem FirstFailure.not_visitedBefore {before' : List (List Bool)} {route' : List Bool} {n' : NodeIdx}
    (h : FirstFailure nodes root before route n) (h' : FirstFailure nodes root before' route' n') :
    ¬ visitedBefore route route' = true := by
  intro hlt
  refine h.not_mem (fun _ _ => visitedBefore_trans) h'.1 ((h'.1.2.1 route).mpr ⟨hlt, ?_⟩)
  simp [h.2.1]

/-- There is one first failing visit. -/
theorem FirstFailure.unique {before' : List (List Bool)} {route' : List Bool} {n' : NodeIdx}
    (h : FirstFailure nodes root before route n) (h' : FirstFailure nodes root before' route' n') :
    before = before' ∧ route = route' ∧ n = n' := by
  obtain rfl : route = route' := by
    have h1 := h.not_visitedBefore h'
    have h2 := h'.not_visitedBefore h
    rw [visitedBefore_iff_lt, not_lt] at h1 h2
    exact le_antisymm h2 h1
  exact ⟨VisitedUpTo.unique h.1 h'.1, rfl, Option.some.inj (h.2.1.symm.trans h'.2.1)⟩

/-- Every visit comes to pass: there is no first failing one. -/
theorem VisitedUpTo.not_firstFailure (h : VisitedUpTo nodes root (fun _ => True) done) :
    ¬ FirstFailure nodes root before route n := fun hf =>
  hf.not_mem (fun _ _ _ _ => trivial) h ((h.2.1 route).mpr ⟨trivial, by simp [hf.2.1]⟩)

/-! What the visits leave in the table. -/

theorem Records.nil : Records nodes root [] ctEmpty := fun sym => ⟨by simp, fun _ => ctGet_ctEmpty sym⟩

theorem Records.exists_leaf_of_valid {ct : Vector Entry 256} {sym : Byte} (h : Records nodes root done ct)
    (hv : (ctGet ct sym).valid = true) : ∃ p ∈ done, LeafAt nodes root p sym := by
  by_contra hno
  rw [(h sym).2 fun p hp hl => hno ⟨p, hp, hl⟩] at hv
  cases hv

theorem Records.snoc_internal {ct : Vector Entry 256} (h : Records nodes root done ct)
    (hn : follow nodes root route = some n) (hk : (nodeAt nodes n).kind = .internal) :
    Records nodes root (done ++ [route]) ct := by
  have hleaf : ∀ sym, ¬ LeafAt nodes root route sym := fun sym => by simp [leafAt_iff hn, hk]
  refine fun sym => ⟨fun p hp hl => ?_, fun hno => (h sym).2 fun p hp => hno p (by simp [hp])⟩
  rcases List.mem_append.mp hp with hp | hp
  · exact (h sym).1 p hp hl
  · rw [List.mem_singleton.mp hp] at hl
    exact absurd hl (hleaf sym)

theorem Records.snoc_leaf {ct : Vector Entry 256} {y : Byte} (h : Records nodes root done ct)
    (hl : LeafAt nodes root route y) (hnew : ∀ p ∈ done, ¬ LeafAt nodes root p y) :
    Records nodes root (done ++ [route]) (ctSet ct y (Entry.ofCode (codeOfRoute route))) := by
  intro sym
  by_cases hsym : sym = y
  · subst hsym
    rw [ctGet_ctSet_self]
    refine ⟨fun p hp hlp => ?_, fun hno => absurd hl (hno route (by simp))⟩
    rcases List.mem_append.mp hp with hp | hp
    · exact absurd hlp (hnew p hp)
    · rw [List.mem_singleton.mp hp]
  · rw [ctGet_ctSet_ne _ hsym]
    refine ⟨fun p hp hlp => ?_, fun hno => (h sym).2 fun p hp => hno p (by simp [hp])⟩
    rcases List.mem_append.mp hp with hp | hp
    · exact (h sym).1 p hp hlp
    · rw [List.mem_singleton.mp hp] at hlp
      exact absurd (sym_eq_of_prefix_of_leaf hlp hl (List.prefix_refl _)) hsym

end Sys2Proof.Machine
end

section
/-! PROOFS. WALK visits the routes in order and stops at the first visit that fails (44_code_table.md R183). -/
namespace Sys2Proof.Machine

open Sys2Proof.Claims

variable {nodes : List Node} {root n : NodeIdx} {route : List Bool} {w : Walk}

/-- What a walk has done: the visits up to a cut when it goes on, else those before the first failing one. -/
def WalkedUpTo (nodes : List Node) (root : NodeIdx) (cut : List Bool → Prop) : Except WalkError Walk → Prop
  | .ok w => ∃ done, VisitedUpTo nodes root cut done ∧ Records nodes root done w.ct ∧ w.visits = done.length
  | .error e => ∃ before route n, FirstFailure nodes root before route n ∧ Records nodes root before e.ct ∧
      e.code = failureCode nodes route n ∧ e.info = n.toNat

theorem WalkedUpTo.congr {cut cut' : List Bool → Prop} {r : Except WalkError Walk} (h : WalkedUpTo nodes root cut r)
    (hcut : ∀ q, follow nodes root q ≠ none → (cut q ↔ cut' q)) : WalkedUpTo nodes root cut' r := by
  cases r with
  | error e => exact h
  | ok w =>
    obtain ⟨done, hdone, hrest⟩ := h
    exact ⟨done, hdone.congr hcut, hrest⟩

/-- The visit of a Data node. -/
theorem walkLeaf_walkedUpTo {done : List (List Bool)} (hreach : WalkReaches nodes root done route)
    (hrec : Records nodes root done w.ct) (hvis : w.visits = done.length + 1)
    (hn : follow nodes root route = some n) (hdeep : route.length ≤ 255) (hlt : n.toNat < nodes.length)
    (hroom : done.length + 1 ≤ nodes.length) (hk : (nodeAt nodes n).kind = .data) :
    WalkedUpTo nodes root (VisitedByEndOf route) (walkLeaf w n (nodeAt nodes n) route) := by
  have hcode : ErrCode.treeMalformed = failureCode nodes route n := (if_neg (by omega)).symm
  unfold walkLeaf
  split
  · next hchild =>
    exact ⟨done, route, n, ⟨hreach, hn, not_visitPasses_of_child hn hk hchild⟩, hrec, hcode, rfl⟩
  split
  · next hchild hvalid =>
    have hseen := hrec.exists_leaf_of_valid hvalid
    exact ⟨done, route, n, ⟨hreach, hn, not_visitPasses_of_seen hn hk hseen⟩, hrec, hcode, rfl⟩
  · next hchild hvalid =>
    have hnew : ∀ p ∈ done, ¬ LeafAt nodes root p (nodeAt nodes n).sym := fun p hp hl =>
      hvalid (by rw [(hrec _).1 p hp hl]; rfl)
    obtain ⟨hleft, hright⟩ : (nodeAt nodes n).left = NodeIdx.null ∧ (nodeAt nodes n).right = NodeIdx.null := by
      simpa using hchild
    have hreach' := walkReaches_snoc hreach
      ((visitPasses_iff hn done).mpr ⟨hdeep, hlt, hroom, fun _ => ⟨hleft, hright, hnew⟩⟩)
    have hrec' := hrec.snoc_leaf ((leafAt_iff hn _).mpr ⟨hk, rfl⟩) hnew
    refine WalkedUpTo.congr (cut := (visitedBefore · (route ++ [false]) = true))
      ⟨done ++ [route], hreach', hrec', by simp [hvis]⟩ fun q hq => ?_
    rw [visitedBefore_snoc_false, VisitedByEndOf]
    exact or_congr_right ⟨fun h => h ▸ List.prefix_refl q, eq_of_prefix_of_data hn hk hq⟩

/-- One edge of an Internal node, given what the visit of the child does. -/
theorem walkEdge_walkedUpTo {x : Bool} {visitChild : Walk → Except WalkError Walk}
    (h : WalkedUpTo nodes root (visitedBefore · (route ++ [x]) = true) (.ok w))
    (hn : follow nodes root route = some n) (hlt : n.toNat < nodes.length) (hk : (nodeAt nodes n).kind = .internal)
    (hvisit : route.length + 1 ≤ 255 → (nodeAt nodes n).child x ≠ NodeIdx.null →
      WalkedUpTo nodes root (VisitedByEndOf (route ++ [x])) (visitChild w)) :
    WalkedUpTo nodes root (VisitedByEndOf (route ++ [x])) (walkEdge ((nodeAt nodes n).child x) route visitChild w) := by
  unfold walkEdge
  split
  · next hnull =>
    refine h.congr fun q hq => (or_iff_left fun hpre => hq ?_).symm
    exact follow_eq_none_of_null hn hnull hpre
  split
  · next hchild hdeep =>
    have hdeep : 255 < (route ++ [x]).length := by simpa using hdeep
    obtain ⟨done, hdone, hrec, -⟩ := h
    exact ⟨done, route ++ [x], _, ⟨hdone, follow_snoc hn hlt hk hchild, not_visitPasses_of_deep hdeep⟩, hrec,
      (if_neg (by omega)).symm, rfl⟩
  · next hchild hdeep => exact hvisit (Nat.not_lt.mp hdeep) hchild

/-- The visit of a node leaves all visits of its subtree done, or ends at the first failing one. -/
theorem walkVisit_walkedUpTo {fuel : Nat} (hfuel : route.length + fuel = 256) (hdeep : route.length ≤ 255)
    (hn : follow nodes root route = some n)
    (h : WalkedUpTo nodes root (visitedBefore · route = true) (.ok w)) :
    WalkedUpTo nodes root (VisitedByEndOf route) (walkVisit nodes fuel n route w) := by
  induction fuel generalizing n route w with
  | zero => omega
  | succ fuel ih =>
    obtain ⟨done, hreach, hrec, hvis⟩ := h
    rw [walkVisit]
    split
    · next hge =>
      exact ⟨done, route, n, ⟨hreach, hn, not_visitPasses_of_ge hn hge⟩, hrec, (if_pos ⟨hdeep, hge⟩).symm, rfl⟩
    split
    · next hlt hmany =>
      exact ⟨done, route, n, ⟨hreach, hn, not_visitPasses_of_full (by omega)⟩, hrec, (if_neg (by omega)).symm, rfl⟩
    next hlt hroom =>
    simp only
    split
    · next hk => exact walkLeaf_walkedUpTo hreach hrec (by simp [hvis]) hn hdeep (by omega) (by omega) hk
    · next hk =>
      rw [← Node.child_false, ← Node.child_true]
      have edge (x : Bool) {v : Walk} (hv : WalkedUpTo nodes root (visitedBefore · (route ++ [x]) = true) (.ok v)) :
          WalkedUpTo nodes root (VisitedByEndOf (route ++ [x])) (walkEdge ((nodeAt nodes n).child x) route
            (walkVisit nodes fuel ((nodeAt nodes n).child x) (route ++ [x])) v) :=
        walkEdge_walkedUpTo hv hn (by omega) hk fun hdeep' hchild =>
          ih (by simp; omega) (by simpa using hdeep') (follow_snoc hn (by omega) hk hchild) hv
      have hpass := (visitPasses_iff hn done).mpr ⟨hdeep, by omega, by omega, fun hd => by simp [hk] at hd⟩
      have hleft := edge false (v := { w with visits := w.visits + 1 })
        ⟨done ++ [route], walkReaches_snoc hreach hpass, hrec.snoc_internal hn hk, by simp [hvis]⟩
      split
      · next e he => rwa [he] at hleft
      · next w' hw' =>
        rw [hw'] at hleft
        have hright := edge true (hleft.congr fun q _ => (visitedBefore_snoc_true q route).symm)
        exact hright.congr fun q _ => visitedByEndOf_snoc_true q route

end Sys2Proof.Machine
end

section
/-! PROOFS. What WALK answers and what it leaves in the table (44_code_table.md R183, R184). -/
namespace Sys2Proof.Machine

open Sys2Proof.Claims

variable {nodes : List Node} {root : NodeIdx} {done : List (List Bool)} {cut : List Bool → Prop}

theorem VisitedUpTo.visitPasses (h : VisitedUpTo nodes root cut done) {route : List Bool} (hmem : route ∈ done) :
    ∃ pre, VisitPasses nodes root pre route := by
  obtain ⟨-, -, hpass⟩ := h
  obtain ⟨pre, post, hsplit⟩ := List.append_of_mem hmem
  exact ⟨pre, hpass pre route post hsplit⟩

theorem VisitedUpTo.length_le (h : VisitedUpTo nodes root cut done) {route : List Bool} (hmem : route ∈ done) :
    route.length ≤ 255 := by
  obtain ⟨_, _, _, hdeep, -⟩ := h.visitPasses hmem
  exact hdeep

theorem VisitedUpTo.lt_length (h : VisitedUpTo nodes root cut done) {route : List Bool} (hmem : route ∈ done)
    {n : NodeIdx} (hn : follow nodes root route = some n) : n.toNat < nodes.length := by
  obtain ⟨pre, hpass⟩ := h.visitPasses hmem
  obtain ⟨-, hlt, -⟩ := (visitPasses_iff hn pre).mp hpass
  exact hlt

theorem VisitedUpTo.mem_of_follow (h : VisitedUpTo nodes root (fun _ => True) done) {route : List Bool} {n : NodeIdx}
    (hn : follow nodes root route = some n) : route ∈ done := by
  obtain ⟨-, hmem, -⟩ := h
  exact (hmem route).mpr ⟨trivial, by simp [hn]⟩

/-- A recorded leaf's entry has the leaf's route as its code (R39, R184 (c)). -/
theorem Records.code_of_leaf {ct : Vector Entry 256} {route : List Bool} {sym : Byte}
    (hrec : Records nodes root done ct) (hdone : VisitedUpTo nodes root cut done) (hmem : route ∈ done)
    (hleaf : LeafAt nodes root route sym) :
    (ctGet ct sym).valid = true ∧ 1 ≤ (ctGet ct sym).len.toNat ∧ (ctGet ct sym).bits = codeOfRoute route := by
  have hlen := length_codeOfRoute_le (hdone.length_le hmem)
  rw [(hrec sym).1 route hmem hleaf, Entry.len_ofCode _ hlen]
  exact ⟨rfl, List.length_pos_iff.mpr (codeOfRoute_ne_nil route), Entry.bits_ofCode _ hlen⟩

/-- The walk from the root over an empty table. -/
theorem walkTree_walkedUpTo (nodes : List Node) (root : NodeIdx) :
    WalkedUpTo nodes root (fun _ => True) (walkTree nodes root) := by
  have hstart : WalkedUpTo nodes root (visitedBefore · [] = true) (.ok { ct := ctEmpty, visits := 0 }) :=
    ⟨[], ⟨.nil, fun q => by cases q <;> simp [visitedBefore], by simp⟩, Records.nil, rfl⟩
  exact (walkVisit_walkedUpTo (route := []) rfl (by decide) rfl hstart).congr fun q _ =>
    iff_true_intro (.inr List.nil_prefix)

theorem failureCode_ne_none (nodes : List Node) (route : List Bool) (n : NodeIdx) :
    failureCode nodes route n ≠ .none := by
  unfold failureCode
  split <;> decide

theorem State.ct_raise (s : State) (c : ErrCode) (k : Nat) : (s.raise c k).ct = s.ct := by
  obtain ⟨e, v, m, h⟩ := s.raise_frame c k
  rw [h]

/-- The two answers of WALK with a root: every visit passes and the table records all leaves, or it raises at the first
visit that fails and the table records the leaves before it. -/
theorem execWalk_answers {s : State} (h : s.root ≠ NodeIdx.null) :
    (∃ done u, VisitedUpTo s.nodes s.root (fun _ => True) done ∧ Records s.nodes s.root done u ∧
      execWalk s = .next (s.setCt u)) ∨
    (∃ before route n u, FirstFailure s.nodes s.root before route n ∧ Records s.nodes s.root before u ∧
      execWalk s = .next ((s.setCt u).raise (failureCode s.nodes route n) n.toNat)) := by
  have hwalk := walkTree_walkedUpTo s.nodes s.root
  cases hr : walkTree s.nodes s.root with
  | ok w =>
    rw [hr] at hwalk
    obtain ⟨done, hdone, hrec, -⟩ := hwalk
    exact .inl ⟨done, w.ct, hdone, hrec, execWalk_of_ok h hr⟩
  | error e =>
    rw [hr] at hwalk
    obtain ⟨before, route, n, hfail, hrec, hcode, hinfo⟩ := hwalk
    refine .inr ⟨before, route, n, e.ct, hfail, hrec, ?_⟩
    rw [← hcode, ← hinfo]
    exact execWalk_of_error h hr

theorem execWalk_of_firstFailure {s : State} {before : List (List Bool)} {route : List Bool} {n : NodeIdx}
    (h : s.root ≠ NodeIdx.null) (hf : FirstFailure s.nodes s.root before route n) :
    ∃ u, Records s.nodes s.root before u ∧
      execWalk s = .next ((s.setCt u).raise (failureCode s.nodes route n) n.toNat) := by
  rcases execWalk_answers h with ⟨done, u, hdone, -, -⟩ | ⟨before', route', n', u, hf', hrec, hx⟩
  · exact absurd hf hdone.not_firstFailure
  · obtain ⟨rfl, rfl, rfl⟩ := hf.unique hf'
    exact ⟨u, hrec, hx⟩

theorem execWalk_of_no_firstFailure {s : State} (h : s.root ≠ NodeIdx.null)
    (hno : ∀ before route n, ¬ FirstFailure s.nodes s.root before route n) :
    ∃ done u, VisitedUpTo s.nodes s.root (fun _ => True) done ∧ Records s.nodes s.root done u ∧
      execWalk s = .next (s.setCt u) := by
  rcases execWalk_answers h with hok | ⟨before, route, n, u, hf, -⟩
  · exact hok
  · exact absurd hf (hno before route n)

/-- Whatever WALK answers, its table records the leaves among routes whose visits passed. -/
theorem execWalk_records {s t : State} (h : execWalk s = .next t) :
    ∃ cut done, VisitedUpTo s.nodes s.root cut done ∧ Records s.nodes s.root done t.ct := by
  by_cases hr : s.root = NodeIdx.null
  · obtain rfl := next_inj ((execWalk_of_null hr).symm.trans h)
    exact ⟨fun _ => False, [], ⟨.nil, by simp, by simp⟩, by rw [State.ct_raise]; exact Records.nil⟩
  · rcases execWalk_answers hr with ⟨done, u, hdone, hrec, hx⟩ | ⟨before, route, n, u, hfail, hrec, hx⟩
    · obtain rfl := next_inj (hx.symm.trans h)
      exact ⟨_, done, hdone, hrec⟩
    · obtain rfl := next_inj (hx.symm.trans h)
      exact ⟨_, before, hfail.1, by rw [State.ct_raise]; exact hrec⟩

/-- After a WALK that raised nothing, every visit has passed. -/
theorem execWalk_records_all {s t : State} (ht : t.errCode = .none) (h : execWalk s = .next t) :
    ∃ done, VisitedUpTo s.nodes s.root (fun _ => True) done ∧ Records s.nodes s.root done t.ct := by
  have raised (u : Vector Entry 256) (c : ErrCode) (hc : c ≠ .none) (k : Nat)
      (hx : execWalk s = .next ((s.setCt u).raise c k)) : False :=
    State.raise_errCode_ne_none _ hc k (next_inj (hx.symm.trans h) ▸ ht)
  by_cases hr : s.root = NodeIdx.null
  · exact (raised _ _ (by decide) _ (execWalk_of_null hr)).elim
  rcases execWalk_answers hr with ⟨done, u, hdone, hrec, hx⟩ | ⟨before, route, n, u, -, -, hx⟩
  · obtain rfl := next_inj (hx.symm.trans h)
    exact ⟨done, hdone, hrec⟩
  · exact (raised _ _ (failureCode_ne_none s.nodes route n) _ hx).elim

end Sys2Proof.Machine
end

section
/-! PROOFS. A tree held in node memory (44_code_table.md R183): its routes are those that can be followed, and its codes
are the leaves at their ends. -/
namespace Sys2Proof.Claims

open Sys2Proof.Machine

/-- The subtree below one edge. -/
def Tree.kid : Tree → Bool → Option Tree
  | .leaf _ _, _ | .bare _, _ => none
  | .fork _ l _, false => some l
  | .fork _ _ r, true => some r
  | .onlyLeft _ l, false => some l
  | .onlyLeft _ _, true => none
  | .onlyRight _ _, false => none
  | .onlyRight _ r, true => some r

/-- The subtree at the end of a route. -/
def Tree.sub : Tree → List Bool → Option Tree
  | t, [] => some t
  | t, x :: xs => (t.kid x).bind fun u => u.sub xs

/-- The routes to all nodes. -/
def Tree.routes : Tree → List (List Bool)
  | .leaf _ _ | .bare _ => [[]]
  | .fork _ l r => [] :: (l.routes.map (false :: ·) ++ r.routes.map (true :: ·))
  | .onlyLeft _ t => [] :: t.routes.map (false :: ·)
  | .onlyRight _ t => [] :: t.routes.map (true :: ·)

variable {nodes : List Node} {t u : Tree} {x : Bool} {q : List Bool} {sym : Byte}

theorem Tree.sub_cons (t : Tree) (x : Bool) (q : List Bool) : t.sub (x :: q) = (t.kid x).bind fun u => u.sub q := by
  rw [Tree.sub]

theorem Tree.length_routes (t : Tree) : t.routes.length = t.size := by
  induction t with
  | leaf | bare => rfl
  | fork n l r ihl ihr => simp [Tree.routes, Tree.size, ihl, ihr]
  | onlyLeft n t ih => simp [Tree.routes, Tree.size, ih]
  | onlyRight n t ih => simp [Tree.routes, Tree.size, ih]

theorem Tree.nil_mem_routes (t : Tree) : [] ∈ t.routes := by
  cases t <;> simp [Tree.routes]

theorem Tree.cons_mem_routes (h : t.kid x = some u) (hq : q ∈ u.routes) : x :: q ∈ t.routes := by
  cases t <;> cases x <;> simp_all [Tree.kid, Tree.routes]

theorem Tree.mem_routes_of_sub (h : t.sub q = some u) : q ∈ t.routes := by
  induction q generalizing t with
  | nil => exact t.nil_mem_routes
  | cons x xs ih =>
    obtain ⟨v, hv, hsub⟩ := Option.bind_eq_some_iff.mp (t.sub_cons x xs ▸ h)
    exact Tree.cons_mem_routes hv (ih hsub)

theorem Tree.height_kid (h : t.kid x = some u) : u.height + 1 ≤ t.height := by
  cases t <;> cases x <;> simp_all [Tree.kid, Tree.height]

theorem Tree.length_le_height_of_sub (h : t.sub q = some u) : q.length ≤ t.height := by
  induction q generalizing t with
  | nil => exact Nat.zero_le _
  | cons x xs ih =>
    obtain ⟨v, hv, hsub⟩ := Option.bind_eq_some_iff.mp (t.sub_cons x xs ▸ h)
    have := Tree.height_kid hv
    have := ih hsub
    rw [List.length_cons]
    omega

theorem Tree.nil_mem_codes : (sym, []) ∈ t.codes ↔ ∃ n, t = .leaf n sym := by
  cases t <;> simp [Tree.codes, eq_comm]

theorem Tree.cons_mem_codes : (sym, x :: q) ∈ t.codes ↔ ∃ u, t.kid x = some u ∧ (sym, q) ∈ u.codes := by
  cases t <;> cases x <;> simp [Tree.codes, Tree.kid]

theorem Tree.mem_codes_iff : (sym, q) ∈ t.codes ↔ ∃ n, t.sub q = some (.leaf n sym) := by
  induction q generalizing t with
  | nil => simp [Tree.nil_mem_codes, Tree.sub]
  | cons x xs ih =>
    simp only [Tree.cons_mem_codes, ih, Tree.sub_cons, Option.bind_eq_some_iff]
    tauto

/-! In node memory. -/

theorem Tree.HeldIn.top_lt (h : t.HeldIn nodes) : t.top.toNat < nodes.length := by
  cases t <;> exact h.1

/-- An edge to a subtree is an edge of an Internal node to the subtree's top. -/
theorem Tree.HeldIn.kid (h : t.HeldIn nodes) (hu : t.kid x = some u) :
    u.HeldIn nodes ∧ (nodeAt nodes t.top).kind = .internal ∧ (nodeAt nodes t.top).child x = u.top ∧
      u.top ≠ NodeIdx.null := by
  cases t with
  | leaf | bare => cases hu
  | fork n l r =>
    obtain ⟨-, ⟨y, hy⟩, hl, hr, hheldl, hheldr⟩ := h
    rw [Tree.top, hy]
    cases x <;> cases hu
    · exact ⟨hheldl, rfl, rfl, hl⟩
    · exact ⟨hheldr, rfl, rfl, hr⟩
  | onlyLeft n l =>
    obtain ⟨-, ⟨y, hy⟩, hl, hheld⟩ := h
    rw [Tree.top, hy]
    cases x <;> cases hu
    exact ⟨hheld, rfl, rfl, hl⟩
  | onlyRight n r =>
    obtain ⟨-, ⟨y, hy⟩, hr, hheld⟩ := h
    rw [Tree.top, hy]
    cases x <;> cases hu
    exact ⟨hheld, rfl, rfl, hr⟩

/-- Where the tree has no subtree, node memory has no edge. -/
theorem Tree.HeldIn.child_of_no_kid (h : t.HeldIn nodes) (hu : t.kid x = none) :
    (nodeAt nodes t.top).child x = NodeIdx.null := by
  cases t with
  | leaf n y =>
    obtain ⟨-, hy⟩ := h
    rw [Tree.top, hy]
    cases x <;> rfl
  | bare n =>
    obtain ⟨-, y, hy⟩ := h
    rw [Tree.top, hy]
    cases x <;> rfl
  | fork n l r => cases x <;> cases hu
  | onlyLeft n l =>
    obtain ⟨-, ⟨y, hy⟩, -⟩ := h
    rw [Tree.top, hy]
    cases x <;> cases hu
    rfl
  | onlyRight n r =>
    obtain ⟨-, ⟨y, hy⟩, -⟩ := h
    rw [Tree.top, hy]
    cases x <;> cases hu
    rfl

/-- The Data nodes of a held tree are its leaves. -/
theorem Tree.HeldIn.data_iff (h : t.HeldIn nodes) (sym : Byte) :
    ((nodeAt nodes t.top).kind = .data ∧ (nodeAt nodes t.top).sym = sym) ↔ ∃ n, t = .leaf n sym := by
  cases t with
  | leaf n y =>
    obtain ⟨-, hy⟩ := h
    simp [Tree.top, hy]
  | bare n =>
    obtain ⟨-, y, hy⟩ := h
    simp [Tree.top, hy]
  | fork | onlyLeft | onlyRight =>
    obtain ⟨-, ⟨y, hy⟩, -⟩ := h
    simp [Tree.top, hy]

theorem Tree.HeldIn.follow_eq (h : t.HeldIn nodes) : follow nodes t.top q = (t.sub q).map Tree.top := by
  induction q generalizing t with
  | nil => rfl
  | cons x xs ih =>
    rw [follow, Tree.sub_cons]
    cases hu : t.kid x with
    | none => exact if_neg fun hc => hc.2.2 (h.child_of_no_kid hu)
    | some u =>
      obtain ⟨hheld, hk, hchild, hne⟩ := h.kid hu
      rw [hchild, if_pos ⟨h.top_lt, hk, hne⟩]
      exact ih hheld

theorem Tree.HeldIn.sub (h : t.HeldIn nodes) (hu : t.sub q = some u) : u.HeldIn nodes := by
  induction q generalizing t with
  | nil => exact Option.some.inj hu ▸ h
  | cons x xs ih =>
    obtain ⟨v, hv, hsub⟩ := Option.bind_eq_some_iff.mp (t.sub_cons x xs ▸ hu)
    exact ih (h.kid hv).1 hsub

theorem Tree.HeldIn.leafAt_iff_mem_codes (h : t.HeldIn nodes) : LeafAt nodes t.top q sym ↔ (sym, q) ∈ t.codes := by
  rw [Tree.mem_codes_iff, LeafAt, h.follow_eq]
  cases hu : t.sub q with
  | none => simp
  | some u => simpa using (h.sub hu).data_iff sym

theorem Tree.HeldIn.child_of_data (h : t.HeldIn nodes) (hk : (nodeAt nodes t.top).kind = .data) (x : Bool) :
    (nodeAt nodes t.top).child x = NodeIdx.null := by
  cases hu : t.kid x with
  | none => exact h.child_of_no_kid hu
  | some u =>
    obtain ⟨-, hinternal, -⟩ := h.kid hu
    cases hk.symm.trans hinternal

theorem Tree.HeldIn.mem_routes_of_follow (h : t.HeldIn nodes) (hq : follow nodes t.top q ≠ none) : q ∈ t.routes := by
  rw [h.follow_eq, Option.ne_none_iff_exists'] at hq
  obtain ⟨n, hn⟩ := hq
  obtain ⟨u, hu, -⟩ := Option.map_eq_some_iff.mp hn
  exact Tree.mem_routes_of_sub hu

/-- WALK makes no more visits than the tree has nodes, since no route comes twice. -/
theorem Tree.HeldIn.length_lt_size {before : List (List Bool)} (h : t.HeldIn nodes)
    (hreach : WalkReaches nodes t.top before q) (hq : follow nodes t.top q ≠ none) : before.length < t.size := by
  obtain ⟨hsorted, hmem, -⟩ := hreach
  have hnot : q ∉ before := fun hin => not_visitedBefore_self q ((hmem q).mp hin).1
  have hnodup : (q :: before).Nodup := List.nodup_cons.mpr ⟨hnot, hsorted.imp ne_of_visitedBefore⟩
  have hsub : q :: before ⊆ t.routes :=
    List.cons_subset.mpr ⟨h.mem_routes_of_follow hq, fun p hp => h.mem_routes_of_follow ((hmem p).mp hp).2⟩
  have hle := (List.subperm_of_subset hnodup hsub).length_le
  rw [t.length_routes, List.length_cons] at hle
  exact hle

/-- A tree that is small enough and names no symbol twice passes every visit. -/
theorem Tree.HeldIn.not_firstFailure (h : t.HeldIn nodes) (hsize : t.size ≤ nodes.length) (hheight : t.height ≤ 255)
    (hsyms : (t.codes.map Prod.fst).Nodup) (before : List (List Bool)) (route : List Bool) (n : NodeIdx) :
    ¬ FirstFailure nodes t.top before route n := by
  rintro ⟨hreach, hn, hfail⟩
  obtain ⟨u, hu, rfl⟩ := Option.map_eq_some_iff.mp (h.follow_eq ▸ hn)
  have hheld := h.sub hu
  refine hfail ((visitPasses_iff hn before).mpr ⟨?_, hheld.top_lt, ?_, fun hk => ?_⟩)
  · exact (Tree.length_le_height_of_sub hu).trans hheight
  · exact (h.length_lt_size hreach (by simp [hn])).trans_le hsize
  · refine ⟨hheld.child_of_data hk false, hheld.child_of_data hk true, fun p hp hleaf => ?_⟩
    have hsame := List.inj_on_of_nodup_map hsyms (h.leafAt_iff_mem_codes.mp hleaf)
      (h.leafAt_iff_mem_codes.mp ((leafAt_iff hn _).mpr ⟨hk, rfl⟩)) rfl
    obtain rfl := (Prod.mk.inj hsame).2
    exact not_visitedBefore_self p ((hreach.2.1 p).mp hp).1

end Sys2Proof.Claims
end

section
/-! PROOFS. The obligations about WALK (44_code_table.md R183, R184). -/
namespace Sys2Proof.Proofs

open Sys2Proof Sys2Proof.Machine Sys2Proof.Claims

/-- Settles O46: every visit of such a tree passes, and the leaves among the visits are the tree's codes. -/
theorem walkRecordsTheCodesOfATree : Obligations.WalkRecordsTheCodesOfATree := by
  intro s t hheld htop hroot hsize hheight hsyms
  have hno := hheld.not_firstFailure hsize hheight hsyms
  have hleaf {p : List Bool} {sym : Byte} : LeafAt s.nodes t.top p sym ↔ (sym, p) ∈ t.codes :=
    hheld.leafAt_iff_mem_codes
  rw [htop] at hno hleaf
  obtain ⟨done, u, hdone, hrec, hx⟩ := execWalk_of_no_firstFailure hroot hno
  refine ⟨u, hx, fun ⟨sym, route⟩ hc k hk => ?_, fun k hk => ?_⟩
  · obtain rfl : BitVec.ofFin k = sym := BitVec.eq_of_toNat_eq hk
    obtain ⟨n, hn, -⟩ := hleaf.mpr hc
    have hmem := hdone.mem_of_follow hn
    have hlen := length_codeOfRoute_le (hdone.length_le hmem)
    have hentry : u[k] = Entry.ofCode (codeOfRoute route) := (hrec _).1 route hmem (hleaf.mpr hc)
    rw [hentry]
    exact ⟨rfl, Entry.len_ofCode _ hlen, fun j hj => getLsbD_path_ofCode hlen hj⟩
  · exact (hrec (BitVec.ofFin k)).2 fun p _ hl => hk _ (hleaf.mp hl) rfl

/-- Settles O47: the table records the leaves among the visits that passed, and without an error these are all. -/
theorem walkTableIsTheReachableLeaves : Obligations.WalkTableIsTheReachableLeaves := by
  intro s t _ hx
  constructor
  · intro sym hv
    obtain ⟨cut, done, hdone, hrec⟩ := execWalk_records hx
    obtain ⟨route, hmem, hleaf⟩ := hrec.exists_leaf_of_valid hv
    obtain ⟨-, hlen, hbits⟩ := hrec.code_of_leaf hdone hmem hleaf
    obtain ⟨n, hn, hkind, hsym⟩ := hleaf
    exact ⟨hlen, route, n, leadsTo_of_follow hn (hdone.lt_length hmem hn), hkind, hsym, hbits⟩
  · intro ht route n hlead hkind
    obtain ⟨done, hdone, hrec⟩ := execWalk_records_all ht hx
    have hn := follow_of_leadsTo hlead
    obtain ⟨hv, -, hbits⟩ := hrec.code_of_leaf hdone (hdone.mem_of_follow hn) ⟨n, hn, hkind, rfl⟩
    exact ⟨hv, hbits⟩

/-- Settles O48: no leaf's route begins another leaf's, since no route leads on from a Data node. -/
theorem walkTableIsPrefixFree : Obligations.WalkTableIsPrefixFree := by
  intro s t hx a b hab ha hb hprefix
  obtain ⟨cut, done, hdone, hrec⟩ := execWalk_records hx
  obtain ⟨p, hp, hleafp⟩ := hrec.exists_leaf_of_valid ha
  obtain ⟨q, hq, hleafq⟩ := hrec.exists_leaf_of_valid hb
  obtain ⟨-, -, hbitsp⟩ := hrec.code_of_leaf hdone hp hleafp
  obtain ⟨-, -, hbitsq⟩ := hrec.code_of_leaf hdone hq hleafq
  rw [State.entry_eq, State.entry_eq, hbitsp, hbitsq] at hprefix
  rcases prefix_or_prefix_of_codeOfRoute hprefix with h | h
  · exact hab (sym_eq_of_prefix_of_leaf hleafp hleafq h)
  · exact hab (sym_eq_of_prefix_of_leaf hleafq hleafp h).symm

/-- Settles O49: each of the five conditions makes the visit at the route the first failing one, of which there is only
one. -/
theorem walkStopsAtTheFirstFailingVisit : Obligations.WalkStopsAtTheFirstFailingVisit := by
  intro s
  refine ⟨execWalk_of_null, fun before route n hr hreach hn => ?_, fun hr hall => ?_⟩
  · intro x ends
    have hends {code : ErrCode} (hcode : failureCode s.nodes route n = code)
        (hfail : ¬ VisitPasses s.nodes s.root before route) : ends code := by
      obtain ⟨u, hrec, hx⟩ := execWalk_of_firstFailure hr ⟨hreach, hn, hfail⟩
      refine ⟨u, hcode ▸ hx, fun p hp k hleaf => ?_, fun k => (hrec (BitVec.ofFin k)).2⟩
      obtain ⟨hv, -, hbits⟩ := hrec.code_of_leaf hreach hp hleaf
      exact ⟨hv, hbits⟩
    refine ⟨fun hdeep => ?_, fun hdeep hge => ?_, fun _ hlt hfull => ?_, fun _ hlt hk hchild => ?_,
      fun _ hlt hk hseen => ?_⟩
    · exact hends (if_neg (by omega)) (not_visitPasses_of_deep (by omega))
    · exact hends (if_pos ⟨hdeep, hge⟩) (not_visitPasses_of_ge hn hge)
    · exact hends (if_neg (by omega)) (not_visitPasses_of_full hfull.ge)
    · exact hends (if_neg (by omega)) (not_visitPasses_of_child hn hk hchild)
    · exact hends (if_neg (by omega)) (not_visitPasses_of_seen hn hk hseen)
  · obtain ⟨done, u, -, -, hx⟩ := execWalk_of_no_firstFailure hr
      fun before route n hf => hf.2.2 (hall before route n hf.1 hf.2.1)
    exact ⟨u, hx⟩

end Sys2Proof.Proofs
end

section
/-! PROOFS. What TINS, NWR, NRD and TROOT answer, case by case (45_tree.md R214 to R218). -/
namespace Sys2Proof.Machine

variable {s : State} {nodes : List Node} {n : NodeIdx}

/-! NRD, TROOT and NWR. -/

theorem State.withNode_of_ge (h : s.nodeCount ≤ s.a0) (k : NodeIdx → Out) :
    s.withNode k = .next (s.raise .nodeIndex s.a0) := by
  rw [State.withNode, if_pos h]
  rfl

theorem execNrd_of_ge (h : s.nodeCount ≤ s.a0) : execNrd s = .next (s.raise .nodeIndex s.a0) :=
  State.withNode_of_ge h _

theorem execTroot_of_ge (h : s.nodeCount ≤ s.a0) : execTroot s = .next (s.raise .nodeIndex s.a0) :=
  State.withNode_of_ge h _

theorem execNrd_of_lt (h : s.a0 < s.nodeCount) :
    execNrd s = .next (s.setResult (s.node (BitVec.ofNat 9 s.a0)).pack) :=
  State.withNode_of_lt h _

theorem execTroot_of_lt (h : s.a0 < s.nodeCount) : execTroot s = .next (s.setRoot (BitVec.ofNat 9 s.a0)) :=
  State.withNode_of_lt h _

theorem toNat_ofNat_nodeIdx {k : Nat} (h : k ≤ nodeCap) : (BitVec.ofNat 9 k : NodeIdx).toNat = k :=
  Nat.mod_eq_of_lt (Nat.lt_succ_of_le h)

theorem ofNat_ne_null {k : Nat} (h : k < nodeCap) : BitVec.ofNat 9 k ≠ NodeIdx.null := fun he => by
  have hk := congrArg BitVec.toNat he
  rw [toNat_ofNat_nodeIdx h.le] at hk
  exact h.ne hk

theorem packedReservedZero_iff (v : Word) : packedReservedZero v = true ↔
    v.extractLsb' 9 7 = 0#7 ∧ v.extractLsb' 25 7 = 0#7 ∧ v.extractLsb' 41 23 = 0#23 := by
  simp [packedReservedZero, and_assoc]

theorem execNwr_of_reserved (h : packedReservedZero s.la1 ≠ true) : execNwr s = .next (s.raise .badField 6) := by
  rw [execNwr, if_pos h]
  rfl

theorem execNwr_of_ge (h : packedReservedZero s.la1 = true) (hk : nodeCap ≤ s.a0) :
    execNwr s = .next (s.raise .capacity (s.a0 + 1)) := by
  rw [execNwr, if_neg (not_not.mpr h), if_pos hk]
  rfl

theorem execNwr_of_lt (h : packedReservedZero s.la1 = true) (hk : s.a0 < nodeCap) :
    execNwr s = .next (s.setNodes ((growNodes s.nodes s.a0).set s.a0 (Node.unpack s.la1))) := by
  rw [execNwr, if_neg (not_not.mpr h), if_neg hk.not_ge]

/-- Every slot after NWR has stored a node in slot k. -/
theorem getElem?_growNodes_set (nodes : List Node) (k : Nat) (x : Node) (j : Nat) :
    ((growNodes nodes k).set k x)[j]? =
      if j = k then some x
      else if j < nodes.length then nodes[j]?
      else if j < k then some Node.empty else none := by
  have hk : k < (growNodes nodes k).length := by rw [length_growNodes]; omega
  by_cases hjk : j = k
  · rw [hjk, List.getElem?_set_self hk, if_pos rfl]
  rw [List.getElem?_set_ne (Ne.symm hjk), if_neg hjk, growNodes]
  by_cases hj : j < nodes.length
  · rw [List.getElem?_append_left hj, if_pos hj]
  rw [List.getElem?_append_right (Nat.not_lt.mp hj), List.getElem?_replicate, if_neg hj]
  exact if_congr (by omega) rfl rfl

/-! Pass 1 of TINS: one step of it, and the part of the path that exists. -/

theorem tinsFollow_of_null {x : Bool} (h : (nodeAt nodes n).child x = NodeIdx.null) (j : Nat) (xs : List Bool) :
    tinsFollow nodes n j (x :: xs) = .ok (n, x :: xs) := by
  simp only [tinsFollow, if_pos h]

theorem tinsFollow_of_ge {x : Bool} (h : (nodeAt nodes n).child x ≠ NodeIdx.null)
    (hge : nodes.length ≤ ((nodeAt nodes n).child x).toNat) (j : Nat) (xs : List Bool) :
    tinsFollow nodes n j (x :: xs) = .error (.nodeIndex, ((nodeAt nodes n).child x).toNat) := by
  simp only [tinsFollow, if_neg h, if_pos hge]

theorem tinsFollow_of_data {x : Bool} (h : (nodeAt nodes n).child x ≠ NodeIdx.null)
    (hlt : ((nodeAt nodes n).child x).toNat < nodes.length)
    (hd : (nodeAt nodes ((nodeAt nodes n).child x)).kind = .data) (j : Nat) (xs : List Bool) :
    tinsFollow nodes n j (x :: xs) = .error (.recordConflict, j) := by
  simp only [tinsFollow, if_neg h, if_neg hlt.not_ge, if_pos hd]

theorem tinsFollow_of_internal {x : Bool} (h : (nodeAt nodes n).child x ≠ NodeIdx.null)
    (hlt : ((nodeAt nodes n).child x).toNat < nodes.length)
    (hi : (nodeAt nodes ((nodeAt nodes n).child x)).kind = .internal) (j : Nat) (xs : List Bool) :
    tinsFollow nodes n j (x :: xs) = tinsFollow nodes ((nodeAt nodes n).child x) (j + 1) xs := by
  simp only [tinsFollow, if_neg h, if_neg hlt.not_ge, hi, reduceCtorEq, if_false]

end Sys2Proof.Machine
end

section
/-! PROOFS. Routes through node memory, as TINS follows and extends them (45_tree.md R214). -/
namespace Sys2Proof.Machine

open Sys2Proof.Claims

variable {nodes ns : List Node} {root n : NodeIdx} {p : List Bool}

theorem leadsTo_nil_iff : leadsTo nodes root [] = some n ↔ root.toNat < nodes.length ∧ root = n := by
  simp [leadsTo]

theorem leadsTo_cons_iff {x : Bool} {xs : List Bool} : leadsTo nodes root (x :: xs) = some n ↔
    root.toNat < nodes.length ∧ (nodeAt nodes root).kind = .internal ∧ (nodeAt nodes root).child x ≠ NodeIdx.null ∧
      leadsTo nodes ((nodeAt nodes root).child x) xs = some n := by
  simp [leadsTo, and_assoc]

theorem lt_length_of_leadsTo (h : leadsTo nodes root p = some n) : root.toNat < nodes.length := by
  cases p with
  | nil => exact (leadsTo_nil_iff.mp h).1
  | cons x xs => exact (leadsTo_cons_iff.mp h).1

/-- A route to an Internal node starts at one. -/
theorem internal_of_leadsTo (h : leadsTo nodes root p = some n) (hn : (nodeAt nodes n).kind = .internal) :
    (nodeAt nodes root).kind = .internal := by
  cases p with
  | nil =>
    obtain ⟨-, rfl⟩ := leadsTo_nil_iff.mp h
    exact hn
  | cons x xs => exact (leadsTo_cons_iff.mp h).2.1

theorem leadsTo_append (h : leadsTo nodes root p = some n) (q : List Bool) :
    leadsTo nodes root (p ++ q) = leadsTo nodes n q := by
  induction p generalizing root with
  | nil =>
    obtain ⟨-, rfl⟩ := leadsTo_nil_iff.mp h
    rfl
  | cons x xs ih =>
    obtain ⟨hlt, hi, hx, hrest⟩ := leadsTo_cons_iff.mp h
    rw [List.cons_append, leadsTo, if_pos ⟨hlt, hi, hx⟩, ih hrest]

/-- Where a route leads is an existing node. -/
theorem leadsTo_lt_length (h : leadsTo nodes root p = some n) : n.toNat < nodes.length :=
  lt_length_of_leadsTo (p := []) (by rw [← leadsTo_append h, List.append_nil, h])

/-- Pass 1 of TINS follows a route of Internal nodes to its end. -/
theorem tinsFollow_append (h : leadsTo nodes root p = some n) (hn : (nodeAt nodes n).kind = .internal) (j : Nat)
    (rest : List Bool) : tinsFollow nodes root j (p ++ rest) = tinsFollow nodes n (j + p.length) rest := by
  induction p generalizing root j with
  | nil =>
    obtain ⟨-, rfl⟩ := leadsTo_nil_iff.mp h
    rfl
  | cons x xs ih =>
    obtain ⟨-, -, hx, hrest⟩ := leadsTo_cons_iff.mp h
    rw [List.cons_append, tinsFollow_of_internal hx (lt_length_of_leadsTo hrest) (internal_of_leadsTo hrest hn),
      ih hrest, List.length_cons, Nat.add_assoc, Nat.add_comm 1]

/-- Every existing node is still there in `ns`, Internal if it was, and with the children it had. -/
def KeepsEdges (nodes ns : List Node) : Prop :=
  nodes.length ≤ ns.length ∧ ∀ k : NodeIdx, k.toNat < nodes.length →
    ((nodeAt nodes k).kind = .internal → (nodeAt ns k).kind = .internal) ∧
    ∀ x, (nodeAt nodes k).child x ≠ NodeIdx.null → (nodeAt ns k).child x = (nodeAt nodes k).child x

theorem KeepsEdges.leadsTo (hkeep : KeepsEdges nodes ns) (h : leadsTo nodes root p = some n) :
    leadsTo ns root p = some n := by
  obtain ⟨hlen, hnode⟩ := hkeep
  induction p generalizing root with
  | nil =>
    obtain ⟨hlt, rfl⟩ := leadsTo_nil_iff.mp h
    exact leadsTo_nil_iff.mpr ⟨hlt.trans_le hlen, rfl⟩
  | cons x xs ih =>
    obtain ⟨hlt, hi, hx, hrest⟩ := leadsTo_cons_iff.mp h
    obtain ⟨hkind, hchild⟩ := hnode root hlt
    rw [leadsTo_cons_iff, hchild x hx]
    exact ⟨hlt.trans_le hlen, hkind hi, hx, ih hrest⟩

/-! The new nodes. -/

theorem Node.setChild_kind (y : Node) (x : Bool) (c : NodeIdx) : (y.setChild x c).kind = y.kind := by
  cases x <;> rfl

theorem Node.child_setChild_self (y : Node) (x : Bool) (c : NodeIdx) : (y.setChild x c).child x = c := by
  cases x <;> rfl

theorem Node.child_setChild_ne (y : Node) {x z : Bool} (h : z ≠ x) (c : NodeIdx) :
    (y.setChild x c).child z = y.child z := by
  obtain rfl := Bool.eq_not_iff.mpr h
  cases x <;> rfl

/-- A new edge in place of a NULL child, all other nodes kept, loses no edge. -/
theorem keepsEdges_of_setChild {x : Bool} {c : NodeIdx} (hlen : nodes.length ≤ ns.length)
    (hother : ∀ k : NodeIdx, k.toNat < nodes.length → k ≠ n → nodeAt ns k = nodeAt nodes k)
    (hn : nodeAt ns n = (nodeAt nodes n).setChild x c) (hx : (nodeAt nodes n).child x = NodeIdx.null) :
    KeepsEdges nodes ns := by
  refine ⟨hlen, fun k hk => ?_⟩
  by_cases hkn : k = n
  · subst hkn
    rw [hn, Node.setChild_kind]
    refine ⟨id, fun z hz => Node.child_setChild_ne _ ?_ c⟩
    rintro rfl
    exact hz hx
  · rw [hother k hk hkn]
    exact ⟨id, fun _ _ => rfl⟩

/-- A chain of linked nodes with consecutive indices leads from its first node to its last. -/
theorem leadsTo_chain {first : Nat} {q : List Bool} (hlen : first + q.length < ns.length)
    (hcap : first + q.length < nodeCap)
    (hlink : ∀ j, (h : j < q.length) → nodeAt ns (BitVec.ofNat 9 (first + j)) =
      Node.empty.setChild q[j] (BitVec.ofNat 9 (first + j + 1))) :
    leadsTo ns (BitVec.ofNat 9 first) q = some (BitVec.ofNat 9 (first + q.length)) := by
  induction q generalizing first with
  | nil =>
    have hfirst : (BitVec.ofNat 9 first : NodeIdx).toNat = first := toNat_ofNat_nodeIdx hcap.le
    exact leadsTo_nil_iff.mpr ⟨by rwa [hfirst], rfl⟩
  | cons x xs ih =>
    rw [List.length_cons] at hlen hcap
    have hfirst : (BitVec.ofNat 9 first : NodeIdx).toNat = first := toNat_ofNat_nodeIdx (by omega)
    have hnode : nodeAt ns (BitVec.ofNat 9 first) = Node.empty.setChild x (BitVec.ofNat 9 (first + 1)) :=
      hlink 0 (Nat.succ_pos _)
    have hrest : leadsTo ns (BitVec.ofNat 9 (first + 1)) xs = some (BitVec.ofNat 9 (first + 1 + xs.length)) := by
      refine ih (by omega) (by omega) fun j hj => ?_
      rw [Nat.add_assoc first, Nat.add_comm 1]
      exact hlink (j + 1) (Nat.succ_lt_succ hj)
    rw [List.length_cons, Nat.add_comm xs.length, ← Nat.add_assoc, leadsTo_cons_iff, hnode, Node.setChild_kind,
      Node.child_setChild_self, hfirst]
    exact ⟨by omega, rfl, ofNat_ne_null (by omega), hrest⟩

end Sys2Proof.Machine
end

section
/-! PROOFS. What TINS answers in each case (45_tree.md R214). -/
namespace Sys2Proof.Machine

variable {s : State} {b : BufIdx}

theorem execTins_of_gt (h : 255 < s.a0) : execTins b s = .next (s.raise .badField 5) :=
  State.withSymbol_of_gt h _

theorem execTins_of_bad_len (ha : s.a0 ≤ 255) (h : (s.buf b).len = 0 ∨ maxPath < (s.buf b).len) :
    execTins b s = .next (s.raise .badLength (s.buf b).len) := by
  rw [execTins, State.withSymbol_of_le ha, State.withPath_of_bad h]

section
variable (ha : s.a0 ≤ 255) (h1 : 1 ≤ (s.buf b).len) (h2 : (s.buf b).len ≤ maxPath)
include ha h1 h2

theorem execTins_of_null (hr : s.root = NodeIdx.null) : execTins b s = .next (s.raise .nodeIndex 0x1FF) := by
  rw [execTins, State.withSymbol_of_le ha, State.withPath_of_fits h1 h2, if_pos hr]
  rfl

variable (hr : s.root ≠ NodeIdx.null)
include hr

theorem execTins_of_data (hd : (s.node s.root).kind = .data) : execTins b s = .next (s.raise .recordConflict 0) := by
  rw [execTins, State.withSymbol_of_le ha, State.withPath_of_fits h1 h2, if_neg hr, if_pos hd]
  rfl

variable (hi : (s.node s.root).kind ≠ .data)
include hi

theorem execTins_of_error {c : ErrCode} {k : Nat} (h : tinsFollow s.nodes s.root 0 (s.buf b).bits = .error (c, k)) :
    execTins b s = .next (s.raise c k) := by
  rw [execTins, State.withSymbol_of_le ha, State.withPath_of_fits h1 h2, if_neg hr, if_neg hi, h]
  rfl

variable {n : NodeIdx} {rest : List Bool} (h : tinsFollow s.nodes s.root 0 (s.buf b).bits = .ok (n, rest))
include h

theorem execTins_of_full (hfull : nodeCap < s.nodeCount + rest.length) :
    execTins b s = .next (s.raise .capacity (s.nodeCount + rest.length)) := by
  rw [execTins, State.withSymbol_of_le ha, State.withPath_of_fits h1 h2, if_neg hr, if_neg hi, h]
  exact if_pos hfull

theorem execTins_of_fits (hfits : s.nodeCount + rest.length ≤ nodeCap) :
    execTins b s = .next (s.setNodes (tinsCreate (BitVec.ofNat 8 s.a0) s.nodes n rest)) := by
  rw [execTins, State.withSymbol_of_le ha, State.withPath_of_fits h1 h2, if_neg hr, if_neg hi, h]
  exact if_neg hfits.not_gt

end

end Sys2Proof.Machine
end

section
/-! PROOFS. The obligations about the tree commands (45_tree.md). -/
namespace Sys2Proof.Proofs

open Sys2Proof Sys2Proof.Machine Sys2Proof.Claims

/-- Settles O50: the three are the model's own definitions. -/
theorem clearAndStartTree : Obligations.ClearAndStartTree := fun _ => ⟨rfl, rfl, by decide⟩

/-- Settles O51: the node memory grows to slot A0 before the node is stored there. -/
theorem nwrWritesOneNode : Obligations.NwrWritesOneNode := by
  intro s k v reservedZero
  have hzero : packedReservedZero s.la1 = true ↔ reservedZero := packedReservedZero_iff s.la1
  refine ⟨fun h => execNwr_of_reserved (mt hzero.mp h), fun h hk => execNwr_of_ge (hzero.mpr h) hk,
    fun h hk => ⟨_, execNwr_of_lt (hzero.mpr h) hk, ?_, getElem?_growNodes_set s.nodes k (Node.unpack v)⟩⟩
  rw [List.length_set]
  exact length_growNodes s.nodes k

/-- Settles O52: an index below NODE_COUNT fits in 9 bits, so A0 names the slot itself. -/
theorem nodeReadAndSetRoot : Obligations.NodeReadAndSetRoot := by
  intro s hcap
  refine ⟨fun h => ⟨execNrd_of_ge h, execTroot_of_ge h⟩, fun h => ⟨?_, execTroot_of_lt h⟩⟩
  have hk : (BitVec.ofNat 9 s.a0 : NodeIdx).toNat = s.la0.toNat := toNat_ofNat_nodeIdx (h.le.trans hcap)
  have hnode : s.node (BitVec.ofNat 9 s.a0) = s.nodes[s.la0.toNat] := by
    rw [State.node, nodeAt_of_lt (by rwa [hk])]
    simp only [hk]
  rw [← hnode]
  exact execNrd_of_lt h

/-- Settles O54: pass 1 stops at node n with the bits x :: q left, and pass 2 links a chain of new nodes below it, which
takes the place of a NULL child alone. -/
theorem tinsCreatesTheMissingPath : Obligations.TinsCreatesTheMissingPath := by
  intro b s p q x n ha h2 hr hbits hlead hn hx hfits count leaf
  have hlen : (s.buf b).len = p.length + (q.length + 1) := by
    rw [← Buf.length_bits, hbits, List.length_append, List.length_cons]
  have hroot : (s.node s.root).kind = .internal := internal_of_leadsTo hlead hn
  have hfollow : tinsFollow s.nodes s.root 0 (s.buf b).bits = .ok (n, x :: q) := by
    rw [hbits, tinsFollow_append hlead hn, tinsFollow_of_null hx]
  have hlt : n.toNat < s.nodes.length := leadsTo_lt_length hlead
  have hcap : s.nodes.length + q.length < nodeCap := hfits
  have hgrown : (tinsCreate (BitVec.ofNat 8 s.a0) s.nodes n (x :: q)).length = s.nodes.length + (q.length + 1) :=
    length_tinsCreate _ _ _ _
  obtain ⟨hother, -, hnew⟩ := nodeAt_tinsCreate (BitVec.ofNat 8 s.a0) (x :: q) s.nodes n hlt hfits
  obtain ⟨hlink, hchain, hleaf⟩ := hnew x q rfl
  have hkeep : KeepsEdges s.nodes (tinsCreate (BitVec.ofNat 8 s.a0) s.nodes n (x :: q)) :=
    keepsEdges_of_setChild (by omega) hother hlink hx
  refine ⟨_, execTins_of_fits ha (by omega) h2 hr (by simp [hroot]) hfollow hfits, hgrown, hother, ?_, ?_, hleaf, ?_,
    fun route m => hkeep.leadsTo⟩
  · rw [hlink]
    rfl
  · intro j hj
    rw [hchain j hj]
    rfl
  · rw [hbits, leadsTo_append (hkeep.leadsTo hlead), leadsTo_cons_iff, hlink, Node.setChild_kind,
      Node.child_setChild_self]
    exact ⟨by omega, hn, ofNat_ne_null (by omega), leadsTo_chain (by omega) (by omega) hchain⟩

/-- Settles O55: past the operand checks pass 1 follows the existing path to node n, and one more step of it gives the
error. -/
theorem tinsRejects : Obligations.TinsRejects := by
  intro b s bits len err open_
  have hpath {p rest : List Bool} {n : NodeIdx} (hbits : bits = p ++ rest) (hlead : leadsTo s.nodes s.root p = some n)
      (hn : (s.node n).kind = .internal) :
      (s.node s.root).kind ≠ .data ∧ tinsFollow s.nodes s.root 0 bits = tinsFollow s.nodes n p.length rest := by
    have hroot : (s.node s.root).kind = .internal := internal_of_leadsTo hlead hn
    rw [hbits, tinsFollow_append hlead hn, Nat.zero_add, hroot]
    exact ⟨by simp, rfl⟩
  refine ⟨execTins_of_gt, execTins_of_bad_len, execTins_of_null, fun ⟨ha, h1, h2, hr⟩ => execTins_of_data ha h1 h2 hr,
    ?_, ?_, ?_, ?_⟩
  · rintro p x q n ⟨ha, h1, h2, hr⟩ hbits hlead hn hx hge
    obtain ⟨hi, hf⟩ := hpath hbits hlead hn
    exact execTins_of_error ha h1 h2 hr hi (hf.trans (tinsFollow_of_ge hx hge _ _))
  · rintro p x q n ⟨ha, h1, h2, hr⟩ hbits hlead hn hx hlt hd
    obtain ⟨hi, hf⟩ := hpath hbits hlead hn
    exact execTins_of_error ha h1 h2 hr hi (hf.trans (tinsFollow_of_data hx hlt hd _ _))
  · rintro n ⟨ha, h1, h2, hr⟩ hlead hn
    obtain ⟨hi, hf⟩ := hpath (List.append_nil bits).symm hlead hn
    have hlen : bits.length = len := Buf.length_bits _
    exact execTins_of_error ha h1 h2 hr hi (hlen ▸ hf)
  · rintro p x q n ⟨ha, h1, h2, hr⟩ hbits hlead hn hx hfull
    obtain ⟨hi, hf⟩ := hpath hbits hlead hn
    exact execTins_of_full ha h1 h2 hr hi (hf.trans (tinsFollow_of_null hx _ _)) hfull

end Sys2Proof.Proofs
end

section
/-! PROOFS. Buffers by their bits: the first LEN of them, and the bytes of an output (20_memory.md R64). -/
namespace Sys2Proof.Machine

theorem Buf.bits_eq_of_bit {b : Buf} {xs : List Bool} (hlen : b.len = xs.length)
    (hbit : ∀ i < xs.length, b.bit i = xs.getD i false) : b.bits = xs := by
  apply List.ext_getElem (by rw [Buf.length_bits, hlen])
  intro i h1 h2
  rw [← List.getD_eq_getElem _ false h1, Buf.getD_bits b (by omega), hbit i h2, List.getD_eq_getElem _ _ h2]

theorem Buf.bits_empty_append (xs : List Bool) : (Buf.empty.append xs).bits = xs :=
  Buf.bits_eq_of_bit (Buf.len_empty_append xs) fun i _ => Buf.bit_empty_append xs i

/-- An append of no bits grows nothing when EC covers LEN (R31). -/
theorem Buf.append_nil {b : Buf} (h : b.len ≤ 64 * b.ec) : b.append [] = b := by
  apply Buf.ext_bits
  · rw [Buf.ec_append, max_eq_left]
    simp only [Buf.needs, ceil64, List.length_nil]
    omega
  · rfl
  · intro i
    rw [Buf.bit_append, List.length_nil, if_neg (by omega)]

/-- EC covers LEN after an append (R31). -/
theorem Buf.len_append_le (b : Buf) (xs : List Bool) : (b.append xs).len ≤ 64 * (b.append xs).ec := by
  have hfit := b.le_needs xs.length
  rw [Buf.len_append, Buf.ec_append]
  omega

theorem State.setBuf_setBuf (s : State) (b : BufIdx) (x y : Buf) : (s.setBuf b x).setBuf b y = s.setBuf b y := by
  simp [State.setBuf]

/-! The bits of a byte sequence. -/

theorem getD_symbolBits (y : Byte) {j : Nat} (h : j < 8) : (symbolBits y).getD j false = y.getLsbD (7 - j) := by
  simp [symbolBits, List.getD_eq_getElem?_getD, h]

theorem length_flatMap_symbolBits (syms : List Byte) : (syms.flatMap symbolBits).length = 8 * syms.length := by
  simp [Nat.mul_comm]

/-- Bit i of a byte sequence is bit 7 - i % 8 of byte i / 8. -/
theorem getD_flatMap_symbolBits (syms : List Byte) {i : Nat} (h : i < 8 * syms.length) :
    (syms.flatMap symbolBits).getD i false = (syms.getD (i / 8) 0#8).getLsbD (7 - i % 8) := by
  induction syms generalizing i with
  | nil => exact absurd h (Nat.not_lt_zero i)
  | cons y ys ih =>
    rw [List.length_cons] at h
    rw [List.flatMap_cons]
    by_cases hi : i < 8
    · rw [List.getD_append _ _ _ _ (by rwa [length_symbolBits]), getD_symbolBits y hi, Nat.div_eq_of_lt hi,
        Nat.mod_eq_of_lt hi, List.getD_cons_zero]
    · obtain ⟨j, rfl⟩ := Nat.exists_eq_add_of_le' (Nat.le_of_not_lt hi)
      rw [List.getD_append_right _ _ _ _ (by simp), length_symbolBits, Nat.add_sub_cancel, ih (by omega),
        Nat.add_div_right j (by decide), List.getD_cons_succ, Nat.add_mod_right]

/-- The host reads back from a buffer the bytes that were written to it (R64). -/
theorem Buf.serialize_empty_append (syms : List Byte) :
    (Buf.empty.append (syms.flatMap symbolBits)).serialize = syms := by
  have hlen := length_flatMap_symbolBits syms
  apply List.ext_getElem
  · simp only [Buf.serialize, List.length_map, List.length_range, Buf.len_empty_append]
    omega
  · intro m _ hm
    simp only [Buf.serialize, List.getElem_map, List.getElem_range]
    apply BitVec.eq_of_getLsbD_eq
    intro i hi
    have hbit := Buf.getLsbD_serialByte (Buf.empty.append (syms.flatMap symbolBits)) m (j := 7 - i) (by omega)
    have hi' : 7 - (7 - i) = i := by omega
    have hq : (8 * m + (7 - i)) / 8 = m := by omega
    have hr : 7 - (8 * m + (7 - i)) % 8 = i := by omega
    rwa [hi', Buf.bit_empty_append, getD_flatMap_symbolBits syms (by omega), hq, hr,
      List.getD_eq_getElem _ _ hm] at hbit

/-! BSHL and BSETLEN drop leading bits (46_decode.md R242). -/

theorem exec_bshl_of_a0 {s : State} {d : BufIdx} {n : Nat} (h : s.a0 = n) :
    exec (.bshl d) s = .next (s.setBuf d ((s.buf d).shl n)) := by
  subst h
  rfl

theorem exec_bsetlen_setBuf {s : State} {d : BufIdx} {n : Nat} (x : Buf) (h : s.a0 = n)
    (hn : ceil64 n ≤ s.params.bufWords) :
    exec (.bsetlen d) (s.setBuf d x) = .next (s.setBuf d { x.grow (ceil64 n) with len := n }) := by
  subst h
  have hx := execBsetlen_of_fits (s := s.setBuf d x) (d := d) hn
  rwa [State.buf_setBuf_self, State.setBuf_setBuf] at hx

/-- The bits of a shifted buffer whose LEN falls by the shift are the ones past the shift. -/
theorem Buf.bits_shl_setLen {b : Buf} (h : b.len ≤ 64 * b.ec) (pos m : Nat) :
    ({ (b.shl pos).grow m with len := b.len - pos } : Buf).bits = b.bits.drop pos := by
  apply Buf.bits_eq_of_bit
  · rw [List.length_drop, Buf.length_bits]
  · intro i hi
    rw [List.length_drop, Buf.length_bits] at hi
    rw [List.getD_eq_getElem?_getD, List.getElem?_drop, ← List.getD_eq_getElem?_getD,
      Buf.getD_bits b (by omega), Nat.add_comm, ← Buf.bit_shl b pos (by omega)]
    exact Buf.bit_grow (b.shl pos) m i

end Sys2Proof.Machine
end

section
/-! PROOFS. DEC's cursor on the tree, and its loop over whole codes (46_decode.md R240). -/
namespace Sys2Proof.Machine

open Sys2Proof.Claims

variable {nodes : List Node} {root cur n : NodeIdx} {x : Bool} {xs p : List Bool} {y : Byte}

/-! The cursor. -/

theorem decNext_eq_cursorChild (nodes : List Node) (root cur : NodeIdx) (x : Bool) :
    decNext nodes root cur x = cursorChild nodes root cur x := rfl

/-- At an Internal node the cursor's child is the node's. -/
theorem cursorChild_of_internal (h : (nodeAt nodes cur).kind = .internal) (root : NodeIdx) (x : Bool) :
    cursorChild nodes root cur x = (nodeAt nodes cur).child x := by
  rw [cursorChild, if_neg]
  · rfl
  · rintro ⟨rfl, hd⟩
    simp [h] at hd

/-- At a Data root the bit 0 selects the root itself (D40). -/
theorem cursorChild_of_data (h : (nodeAt nodes root).kind = .data) : cursorChild nodes root root false = root := by
  rw [cursorChild, if_pos ⟨rfl, h⟩]
  rfl

theorem Node.kind_ne_data_iff (z : Node) : z.kind ≠ .data ↔ z.kind = .internal := by
  cases z.kind <;> simp

theorem codeSymbol_cons_iff : codeSymbol nodes root cur (x :: xs) = some y ↔
    cursorChild nodes root cur x ≠ NodeIdx.null ∧ (cursorChild nodes root cur x).toNat < nodes.length ∧
      (((nodeAt nodes (cursorChild nodes root cur x)).kind = .data ∧ xs = [] ∧
          (nodeAt nodes (cursorChild nodes root cur x)).sym = y) ∨
        ((nodeAt nodes (cursorChild nodes root cur x)).kind = .internal ∧
          codeSymbol nodes root (cursorChild nodes root cur x) xs = some y)) := by
  simp only [codeSymbol]
  split
  · next h => exact iff_of_false (by simp) fun ⟨hx, hlt, _⟩ => h.elim hx hlt.not_ge
  next h =>
  obtain ⟨hx, hlt⟩ := not_or.mp h
  split
  · next hd => simp [hx, Nat.lt_of_not_le hlt, hd]
  · next hd => simp [hx, Nat.lt_of_not_le hlt, (Node.kind_ne_data_iff _).mp hd]

theorem cursorAfter_cons_iff : cursorAfter nodes root cur (x :: xs) = some n ↔
    cursorChild nodes root cur x ≠ NodeIdx.null ∧ (cursorChild nodes root cur x).toNat < nodes.length ∧
      (nodeAt nodes (cursorChild nodes root cur x)).kind = .internal ∧
      cursorAfter nodes root (cursorChild nodes root cur x) xs = some n := by
  simp only [cursorAfter, ← Node.kind_ne_data_iff]
  split
  · next h => exact iff_of_false (by simp) fun ⟨hx, hlt, hi, _⟩ => h.elim hx (Or.elim · hlt.not_ge hi)
  · next h =>
    obtain ⟨hx, h⟩ := not_or.mp h
    obtain ⟨hlt, hi⟩ := not_or.mp h
    simp [hx, Nat.lt_of_not_le hlt, hi]

/-- A route to a Data node is the code of its symbol (R183, R241). -/
theorem codeSymbol_of_leadsTo (h : leadsTo nodes cur (x :: xs) = some n) (hn : (nodeAt nodes n).kind = .data)
    (root : NodeIdx) : codeSymbol nodes root cur (x :: xs) = some (nodeAt nodes n).sym := by
  induction xs generalizing cur x with
  | nil =>
    obtain ⟨-, hi, hx, hlead⟩ := leadsTo_cons_iff.mp h
    obtain ⟨hlt, hchild⟩ := leadsTo_nil_iff.mp hlead
    rw [codeSymbol_cons_iff, cursorChild_of_internal hi, hchild]
    exact ⟨hchild ▸ hx, hchild ▸ hlt, .inl ⟨hn, rfl, rfl⟩⟩
  | cons z zs ih =>
    obtain ⟨-, hi, hx, hlead⟩ := leadsTo_cons_iff.mp h
    rw [codeSymbol_cons_iff, cursorChild_of_internal hi]
    exact ⟨hx, lt_length_of_leadsTo hlead, .inr ⟨(leadsTo_cons_iff.mp hlead).2.1, ih hlead⟩⟩

/-- DEC reads from the root what WALK records for a leaf, a Data root's one bit 0 included (R241, D40). -/
theorem codeSymbol_codeOfRoute (hroot : root ≠ NodeIdx.null) (h : leadsTo nodes root p = some n)
    (hn : (nodeAt nodes n).kind = .data) :
    codeSymbol nodes root root (codeOfRoute p) = some (nodeAt nodes n).sym := by
  cases p with
  | nil =>
    obtain ⟨hlt, rfl⟩ := leadsTo_nil_iff.mp h
    rw [codeOfRoute, if_pos rfl, codeSymbol_cons_iff, cursorChild_of_data hn]
    exact ⟨hroot, hlt, .inl ⟨hn, rfl, rfl⟩⟩
  | cons x xs =>
    rw [codeOfRoute, if_neg (List.cons_ne_nil x xs)]
    exact codeSymbol_of_leadsTo h hn root

/-! One bit of the loop: the three errors, a leaf, and an Internal node. -/

section
variable {bufWords : Nat} {k : Decoding} (i : Nat) (xs)

theorem decLoop_of_null (h : cursorChild nodes root k.cur x = NodeIdx.null) :
    decLoop bufWords nodes root i (x :: xs) k = (k, some (.decodeCorrupt, i)) := by
  rw [decLoop]
  exact if_pos h

variable (h : cursorChild nodes root k.cur x ≠ NodeIdx.null)
include h

theorem decLoop_of_ge (hge : nodes.length ≤ (cursorChild nodes root k.cur x).toNat) :
    decLoop bufWords nodes root i (x :: xs) k =
      (k, some (.nodeIndex, (cursorChild nodes root k.cur x).toNat)) := by
  rw [decLoop]
  exact (if_neg h).trans (if_pos hge)

variable (hlt : (cursorChild nodes root k.cur x).toNat < nodes.length)
include hlt

theorem decLoop_of_internal (hi : (nodeAt nodes (cursorChild nodes root k.cur x)).kind = .internal) :
    decLoop bufWords nodes root i (x :: xs) k =
      decLoop bufWords nodes root (i + 1) xs { k with cur := cursorChild nodes root k.cur x } := by
  simp only [decLoop, decNext_eq_cursorChild, if_neg h, if_neg hlt.not_ge, hi]

variable (hd : (nodeAt nodes (cursorChild nodes root k.cur x)).kind = .data)
include hd

theorem decLoop_of_full (hfull : bufWords < k.out.needs 8) :
    decLoop bufWords nodes root i (x :: xs) k = (k, some (.capacity, k.out.needs 8)) := by
  simp only [decLoop, decNext_eq_cursorChild, if_neg h, if_neg hlt.not_ge, hd, if_pos hfull]

theorem decLoop_of_leaf (hroom : k.out.needs 8 ≤ bufWords) :
    decLoop bufWords nodes root i (x :: xs) k = decLoop bufWords nodes root (i + 1) xs
      ⟨k.out.append (symbolBits (nodeAt nodes (cursorChild nodes root k.cur x)).sym), k.count + 1, root, i + 1⟩ := by
  simp only [decLoop, decNext_eq_cursorChild, if_neg h, if_neg hlt.not_ge, hd, if_neg hroom.not_gt]

end

/-! Runs of bits. -/

variable {bufWords : Nat}

/-- Bits that all lead to Internal nodes move the cursor alone. -/
theorem decLoop_cursorAfter {k : Decoding} (h : cursorAfter nodes root k.cur p = some n) (i : Nat) (rest : List Bool) :
    decLoop bufWords nodes root i (p ++ rest) k =
      decLoop bufWords nodes root (i + p.length) rest { k with cur := n } := by
  induction p generalizing k i with
  | nil =>
    obtain rfl : k.cur = n := Option.some.inj h
    rfl
  | cons x xs ih =>
    obtain ⟨hx, hlt, hi, hrest⟩ := cursorAfter_cons_iff.mp h
    rw [List.cons_append, decLoop_of_internal _ _ hx hlt hi, ih hrest, List.length_cons, Nat.add_assoc, Nat.add_comm 1]

/-- A whole code emits its symbol and brings the cursor back to the root. -/
theorem decLoop_code {k : Decoding} (h : codeSymbol nodes root k.cur p = some y) (hroom : k.out.needs 8 ≤ bufWords)
    (i : Nat) (rest : List Bool) :
    decLoop bufWords nodes root i (p ++ rest) k = decLoop bufWords nodes root (i + p.length) rest
      ⟨k.out.append (symbolBits y), k.count + 1, root, i + p.length⟩ := by
  induction p generalizing k i with
  | nil => cases h
  | cons x xs ih =>
    obtain ⟨hx, hlt, ⟨hd, rfl, rfl⟩ | ⟨hi, hrest⟩⟩ := codeSymbol_cons_iff.mp h
    · exact decLoop_of_leaf rest i hx hlt hd hroom
    · rw [List.cons_append, decLoop_of_internal _ _ hx hlt hi,
        ih (k := { k with cur := cursorChild nodes root k.cur x }) hrest hroom, List.length_cons, Nat.add_assoc,
        Nat.add_comm 1]

/-- Whole codes from the root emit their symbols one after another. -/
theorem decLoop_codes {codes : List (List Bool × Byte)}
    (hcodes : ∀ c ∈ codes, codeSymbol nodes root root c.1 = some c.2) {out : Buf} (hout : out.len ≤ 64 * out.ec)
    (hroom : out.needs (8 * codes.length) ≤ bufWords) (count i : Nat) (rest : List Bool) :
    decLoop bufWords nodes root i (codes.flatMap Prod.fst ++ rest) ⟨out, count, root, i⟩ =
      decLoop bufWords nodes root (i + (codes.flatMap Prod.fst).length) rest
        ⟨out.append ((codes.map Prod.snd).flatMap symbolBits), count + codes.length, root,
          i + (codes.flatMap Prod.fst).length⟩ := by
  induction codes generalizing out count i with
  | nil => simp [Buf.append_nil hout]
  | cons c cs ih =>
    obtain ⟨hc, hcs⟩ := List.forall_mem_cons.mp hcodes
    simp only [Buf.needs, ceil64, List.length_cons] at hroom
    rw [List.flatMap_cons, List.append_assoc,
      decLoop_code (k := ⟨out, count, root, i⟩) hc (by simp only [Buf.needs, ceil64]; omega),
      ih hcs (Buf.len_append_le _ _) (by simp only [Buf.needs, ceil64, Buf.len_append, length_symbolBits]; omega),
      Buf.append_append, List.map_cons, List.flatMap_cons, List.length_append, List.length_cons, Nat.add_assoc i,
      Nat.add_assoc count, Nat.add_comm 1]

end Sys2Proof.Machine
end

section
/-! PROOFS. What DEC answers in each case, and the state it leaves (46_decode.md R240). -/
namespace Sys2Proof.Machine

open Sys2Proof.Claims

variable {s : State} {d b : BufIdx}

theorem outputIs_append (old : Buf) (syms : List Byte) :
    OutputIs old (old.append (syms.flatMap symbolBits)) syms := by
  have hlen := length_flatMap_symbolBits syms
  refine ⟨?_, ?_, fun i => ?_⟩
  · rw [Buf.len_append, hlen]
  · rw [Buf.ec_append, hlen]
    rfl
  · rw [Buf.bit_append, hlen]
    split
    · next hi => exact getD_flatMap_symbolBits syms (by omega)
    · rfl

theorem decodedTo_decoded (s : State) (d : BufIdx) (syms : List Byte) (cur : NodeIdx) (pos : Nat) :
    DecodedTo s (s.decoded d ⟨(s.buf d).append (syms.flatMap symbolBits), syms.length, cur, pos⟩) d syms pos :=
  ⟨_, outputIs_append (s.buf d) syms, rfl⟩

theorem execDec_of_eq (h : d = b) : execDec d b s = .next (s.raise .badField 7) := by
  rw [execDec, if_pos h]
  rfl

theorem execDec_of_null (hne : d ≠ b) (h : s.root = NodeIdx.null) :
    execDec d b s = .next (s.raise .nodeIndex 0x1FF) := by
  rw [execDec, if_neg hne, if_pos h]
  rfl

section
variable (hne : d ≠ b) (hr : s.root ≠ NodeIdx.null) {k : Decoding}
include hne hr

theorem execDec_of_error {c : ErrCode} {info : Nat}
    (h : decLoop s.params.bufWords s.nodes s.root 0 (s.buf b).bits ⟨s.buf d, 0, s.root, 0⟩ = (k, some (c, info))) :
    execDec d b s = .next ((s.decoded d k).raise c info) := by
  rw [execDec, if_neg hne, if_neg hr, h]
  rfl

variable (h : decLoop s.params.bufWords s.nodes s.root 0 (s.buf b).bits ⟨s.buf d, 0, s.root, 0⟩ = (k, none))
include h

theorem execDec_of_trailing (hk : k.start ≠ (s.buf b).len) :
    execDec d b s = .next ((s.decoded d k).raise .decodeTrailing k.start) := by
  rw [execDec, if_neg hne, if_neg hr, h]
  exact if_pos hk

theorem execDec_of_whole (hk : k.start = (s.buf b).len) : execDec d b s = .next (s.decoded d k) := by
  rw [execDec, if_neg hne, if_neg hr, h]
  exact if_neg (not_not.mpr hk)

end

/-- A payload of whole codes is decoded to their symbols. -/
theorem execDec_of_codes {codes : List (List Bool × Byte)} (hne : d ≠ b) (hr : s.root ≠ NodeIdx.null)
    (hout : (s.buf d).len ≤ 64 * (s.buf d).ec)
    (hcodes : ∀ c ∈ codes, codeSymbol s.nodes s.root s.root c.1 = some c.2)
    (hbits : (s.buf b).bits = codes.flatMap Prod.fst)
    (hroom : (s.buf d).needs (8 * codes.length) ≤ s.params.bufWords) :
    execDec d b s = .next (s.decoded d ⟨(s.buf d).append ((codes.map Prod.snd).flatMap symbolBits), codes.length,
      s.root, (s.buf b).len⟩) := by
  have hloop := decLoop_codes hcodes hout hroom 0 0 []
  rw [List.append_nil, ← hbits, Buf.length_bits, Nat.zero_add, Nat.zero_add] at hloop
  exact execDec_of_whole hne hr hloop rfl

@[simp] theorem State.buf_decoded (s : State) (d : BufIdx) (k : Decoding) : (s.decoded d k).buf d = k.out :=
  State.buf_setBuf_self s d k.out

end Sys2Proof.Machine
end

section
/-! PROOFS. BENC of a byte sequence, and the codes of a walked tree (46_decode.md R241). -/
namespace Sys2Proof.Machine

open Sys2Proof.Claims

variable {b : BufIdx} {y : Byte} {ys : List Byte} {s u : State}

theorem encodeAll_cons_iff : encodeAll b (y :: ys) s = some u ↔
    ∃ t, exec (.benc b) { s with la0 := y.setWidth 64 } = .next t ∧ encodeAll b ys t = some u := by
  rw [encodeAll]
  split <;> simp_all

/-- No BENC clears a latched error (R275). -/
theorem errCode_none_of_encodeAll (h : encodeAll b ys s = some u) (hu : u.errCode = .none) : s.errCode = .none := by
  induction ys generalizing s with
  | nil =>
    obtain rfl : s = u := Option.some.inj h
    exact hu
  | cons y ys ih =>
    obtain ⟨t, hx, hrest⟩ := encodeAll_cons_iff.mp h
    by_contra hs
    obtain ⟨hkept, -⟩ := (exec_update hx).err_eq (by simp) hs
    exact hs (hkept.symm.trans (ih hrest))

/-- BENC of a symbol with a valid entry that ends without an error has appended the entry's code. -/
theorem exec_benc_of_no_error {t : State} (hy : (s.entry y).valid = true)
    (hx : exec (.benc b) { s with la0 := y.setWidth 64 } = .next t) (ht : t.errCode = .none) :
    t = ({ s with la0 := y.setWidth 64 } : State).setBuf b ((s.buf b).append (s.entry y).bits) := by
  have ha : State.a0 { s with la0 := y.setWidth 64 } = y.toNat :=
    BitVec.toNat_setWidth_of_le (by decide)
  have hsym : BitVec.ofNat 8 (State.a0 { s with la0 := y.setWidth 64 }) = y := by
    rw [ha, BitVec.ofNat_toNat, BitVec.setWidth_eq]
  rcases execBenc_cases hx with ⟨-, rfl⟩ | ⟨-, hinv, -⟩ | ⟨-, -, happ⟩
  · exact absurd ht (State.raise_errCode_ne_none _ (by decide) _)
  · rw [hsym] at hinv
    exact absurd (hinv.symm.trans hy) Bool.false_ne_true
  · rw [hsym] at happ
    rcases State.appendTo_cases happ with ⟨-, rfl⟩ | ⟨-, rfl⟩
    · exact absurd ht (State.raise_errCode_ne_none _ (by decide) _)
    · rfl

/-- BENC of valid symbols one after another, without an error, appends their codes to D and leaves every other buffer
and the tree. -/
theorem encodeAll_of_no_error (hb : (s.buf b).len ≤ 64 * (s.buf b).ec) (hys : ∀ y ∈ ys, (s.entry y).valid = true)
    (h : encodeAll b ys s = some u) (hu : u.errCode = .none) :
    u.buf b = (s.buf b).append (ys.flatMap fun y => (s.entry y).bits) ∧ (∀ c, c ≠ b → u.buf c = s.buf c) ∧
      u.nodes = s.nodes ∧ u.root = s.root := by
  induction ys generalizing s with
  | nil =>
    obtain rfl : s = u := Option.some.inj h
    exact ⟨(Buf.append_nil hb).symm, fun _ _ => rfl, rfl, rfl⟩
  | cons y ys ih =>
    obtain ⟨hy, hrest⟩ := List.forall_mem_cons.mp hys
    obtain ⟨t, hx, ht⟩ := encodeAll_cons_iff.mp h
    have heq := exec_benc_of_no_error hy hx (errCode_none_of_encodeAll ht hu)
    have hbuf : t.buf b = (s.buf b).append (s.entry y).bits := by rw [heq, State.buf_setBuf_self]
    have hent (z : Byte) : t.entry z = s.entry z := by rw [heq]; rfl
    obtain ⟨hout, hother, hnodes, hroot⟩ := ih (hbuf ▸ Buf.len_append_le _ _) (by simpa only [hent] using hrest) ht
    refine ⟨?_, fun c hc => ?_, by rw [hnodes, heq]; rfl, by rw [hroot, heq]; rfl⟩
    · simp only [hout, hbuf, hent, Buf.append_append, List.flatMap_cons]
    · rw [hother c hc, heq, State.buf_setBuf_ne _ hc]
      rfl

/-- The codes that the table has for a byte sequence, each with its symbol. -/
def tableCodes (s : State) (syms : List Byte) : List (List Bool × Byte) := syms.map fun y => ((s.entry y).bits, y)

@[simp] theorem length_tableCodes (s : State) (syms : List Byte) : (tableCodes s syms).length = syms.length :=
  List.length_map _

theorem flatMap_fst_tableCodes (s : State) (syms : List Byte) :
    (tableCodes s syms).flatMap Prod.fst = syms.flatMap fun y => (s.entry y).bits := List.flatMap_map ..

theorem map_snd_tableCodes (s : State) (syms : List Byte) : (tableCodes s syms).map Prod.snd = syms := by
  rw [tableCodes, List.map_map]
  exact List.map_id syms

/-- After a WALK without an error there is a root. -/
theorem root_ne_null_of_execWalk {t : State} (h : execWalk s = .next t) (ht : t.errCode = .none) :
    s.root ≠ NodeIdx.null := by
  intro hr
  obtain rfl := next_inj ((execWalk_of_null hr).symm.trans h)
  exact State.raise_errCode_ne_none _ (by decide) _ ht

end Sys2Proof.Machine
end

section
/-! PROOFS. The obligations about the payload decoder (46_decode.md). -/
namespace Sys2Proof.Proofs

open Sys2Proof Sys2Proof.Machine Sys2Proof.Claims

/-- Settles O56: the loop comes to the rest with every symbol emitted and the cursor past the unfinished code, and the
first bit of the rest, or its absence, gives the outcome. -/
theorem decFollowsTheTree : Obligations.DecFollowsTheTree := by
  intro d b s
  refine ⟨execDec_of_eq, execDec_of_null, fun codes p rest cur hne hr hout hcodes hbits hcur hroom => ?_⟩
  intro syms start
  have hlen : start + p.length + rest.length = (s.buf b).len := by
    rw [← Buf.length_bits, hbits, List.length_append, List.length_append]
  have hloop : decLoop s.params.bufWords s.nodes s.root 0 (s.buf b).bits ⟨s.buf d, 0, s.root, 0⟩ =
      decLoop s.params.bufWords s.nodes s.root (start + p.length) rest
        ⟨(s.buf d).append (syms.flatMap symbolBits), syms.length, cur, start⟩ := by
    rw [hbits, List.append_assoc, decLoop_codes hcodes hout hroom, decLoop_cursorAfter hcur, Nat.zero_add,
      Nat.zero_add, List.length_map]
  have hleft := decodedTo_decoded s d syms cur start
  refine ⟨?_, ?_, ?_⟩
  · rintro rfl rfl
    exact ⟨_, hleft, execDec_of_whole hne hr hloop hlen⟩
  · rintro hp rfl
    have hend : start ≠ (s.buf b).len := by
      have hpos := List.length_pos_iff.mpr hp
      rw [List.length_nil] at hlen
      omega
    exact ⟨_, hleft, execDec_of_trailing hne hr hloop hend⟩
  · rintro x xs rfl
    intro c need
    refine ⟨fun hc => ?_, fun hc hge => ?_, fun hc hlt hd hfull => ?_⟩
    · exact ⟨_, hleft, execDec_of_error hne hr (hloop.trans (decLoop_of_null _ _ hc))⟩
    · exact ⟨_, hleft, execDec_of_error hne hr (hloop.trans (decLoop_of_ge _ _ hc hge))⟩
    · have hneed : ((s.buf d).append (syms.flatMap symbolBits)).needs 8 = need := by
        rw [Buf.needs, Buf.len_append, length_flatMap_symbolBits, List.length_map]
        rfl
      have hx := execDec_of_error hne hr (hloop.trans (decLoop_of_full _ _ hc hlt hd (hneed ▸ hfull)))
      exact ⟨_, hleft, hneed ▸ hx⟩

/-- Settles O57: BENC wrote whole codes, each of which leads DEC from the root to the leaf that WALK recorded it for. -/
theorem decodeInvertsEncode : Obligations.DecodeInvertsEncode := by
  intro s0 s1 s2 d b syms h0 hwalk h1 hvalid hb hd hne henc h2 hfits
  obtain ⟨hleaf, -⟩ := walkTableIsTheReachableLeaves s0 s1 h0 hwalk
  obtain ⟨hpayload, hother, hsameNodes, hsameRoot⟩ := encodeAll_of_no_error (by rw [hb]; decide) hvalid henc h2
  rw [hb] at hpayload
  have hempty : s2.buf d = Buf.empty := (hother d hne).trans hd
  have hnodes : s2.nodes = s0.nodes := hsameNodes.trans ((exec_update hwalk).nodes_eq rfl)
  have hroot : s2.root = s0.root := hsameRoot.trans ((exec_update hwalk).root_eq rfl)
  have hnull : s0.root ≠ NodeIdx.null := root_ne_null_of_execWalk hwalk h1
  have hcodes : ∀ c ∈ tableCodes s1 syms, codeSymbol s2.nodes s2.root s2.root c.1 = some c.2 := by
    intro c hc
    obtain ⟨y, hy, rfl⟩ := List.mem_map.mp hc
    obtain ⟨-, route, n, hlead, hkind, hsym, hbits⟩ := hleaf y (hvalid y hy)
    rw [hnodes, hroot, hbits, ← hsym]
    exact codeSymbol_codeOfRoute hnull hlead hkind
  have hbits : (s2.buf b).bits = (tableCodes s1 syms).flatMap Prod.fst := by
    rw [hpayload, Buf.bits_empty_append, flatMap_fst_tableCodes]
  have hroom : (s2.buf d).needs (8 * (tableCodes s1 syms).length) ≤ s2.params.bufWords := by
    rw [hempty, length_tableCodes]
    simp only [Buf.needs, Buf.empty, ceil64]
    omega
  have hx := execDec_of_codes hne (hroot ▸ hnull) (by rw [hempty]; decide) hcodes hbits hroom
  rw [hempty, map_snd_tableCodes, length_tableCodes] at hx
  refine ⟨_, hx, h2, ?_, ?_, rfl, rfl, rfl⟩
  · rw [State.buf_decoded, Buf.len_empty_append, length_flatMap_symbolBits]
  · rw [State.buf_decoded, Buf.serialize_empty_append]

/-- Settles O58: the shift brings the bits past `pos` to the front and LEN falls by `pos`; no element is added. -/
theorem shiftAndSetLengthDropLeadingBits : Obligations.ShiftAndSetLengthDropLeadingBits := by
  intro d s pos old hp hlen hec hpos
  obtain ⟨-, -, -, hwords⟩ := hp
  have hnat {m : Nat} (hm : m ≤ old.len) : (BitVec.ofNat 64 m).toNat = m := Nat.mod_eq_of_lt (by omega)
  have hceil : ceil64 (old.len - pos) ≤ old.ec := by
    simp only [ceil64]
    omega
  have hgrow : ((old.shl pos).grow (ceil64 (old.len - pos))).ec = old.ec := by
    rw [Buf.ec_grow, Buf.ec_shl, max_eq_left hceil]
  refine ⟨_, _, exec_bshl_of_a0 (hnat hpos), ?_, Buf.bits_shl_setLen hlen pos (ceil64 (old.len - pos)), ?_⟩
  · exact exec_bsetlen_setBuf (s := { s with la0 := BitVec.ofNat 64 (old.len - pos) }) (old.shl pos)
      (hnat (Nat.sub_le old.len pos)) (hceil.trans hec)
  · exact hgrow

end Sys2Proof.Proofs
end

section
/-! The control commands (47_control.md). -/
namespace Sys2Proof.Machine

/-- R260, in every state, also one with an error latched. -/
@[simp] theorem exec_nop (s : State) : exec .nop s = .next s := rfl

/-- R261. -/
@[simp] theorem exec_clrerr (s : State) : exec .clrerr s = .next { s with errCode := .none, errInfo := 0#64 } := rfl

end Sys2Proof.Machine
end

section
/-! PROOF. The statement about the control commands (47_control.md). -/
namespace Sys2Proof.Proofs

open Sys2Proof Sys2Proof.Machine

/-- Settles O59: the engine carries out the effect of each command as R260 and R261 write it. -/
theorem nopAndClrerr : Obligations.NopAndClrerr :=
  fun s => ⟨exec_nop s, exec_clrerr s⟩

end Sys2Proof.Proofs
end

section
/-! PROOFS. What a command answers, said once for a run and for the same run with BUSY_OVERRUN latched before it
(60_exceptions.md R270, R273, R275, R277). -/
namespace Sys2Proof

open Sys2Proof.Machine

/-- The sub-code of a command's BAD_FIELD (60_exceptions.md R272): 5 is that of a symbol operand. -/
def Instr.badFieldCode : Instr → Nat
  | .nwr => 6
  | .dec _ _ => 7
  | _ => 5

/-- The command's row lists the error, and a BAD_FIELD has the command's sub-code (R272, R273). -/
def Instr.canRaise (i : Instr) (c : ErrCode) (n : Nat) : Bool :=
  i.errors.contains c && (c != .badField || n == i.badFieldCode)

theorem Instr.canRaise_iff {i : Instr} {c : ErrCode} {n : Nat} :
    i.canRaise c n = true ↔ c ∈ i.errors ∧ (c = .badField → n = i.badFieldCode) := by
  simp [Instr.canRaise, imp_iff_not_or]

/-- `u` is a state from which the command may raise when issued in `s`: `s` itself but for the code table of WALK and
the output buffer, SYMCOUNT, BITPOS and RESULT of DEC (R275). -/
def Instr.RaisesFrom (i : Instr) (s u : State) : Prop :=
  match i with
  | .walk => ∃ ct, u = s.setCt ct
  | .dec d _ => ∃ x count pos v, u = ((s.setBuf d x).setDecode count pos).setResult v
  | _ => u = s

theorem Instr.raisesFrom_refl (i : Instr) (s : State) : i.RaisesFrom s s := by
  cases i with
  | walk => exact ⟨s.ct, rfl⟩
  | dec d b => exact ⟨s.buf d, s.symCount, s.bitPos, s.result, by rw [State.setBuf_buf]; rfl⟩
  | _ => rfl

end Sys2Proof

namespace Sys2Proof.Machine

open Sys2Proof.Claims

/-- The state with BUSY_OVERRUN latched for the dropped word `w` (R277). -/
def State.overrun (w : Word) (s : State) : State := s.setErr .busyOverrun w

/-- What the command `i` answers in `s`, and what it answers with BUSY_OVERRUN latched before: it leaves the latch in
both runs, or it raises an error of its row, which the second run does not record. -/
inductive Answers (i : Instr) (s : State) (w : Word) : Out → Out → Prop
  | done {t : State} (ht : t.errCode = s.errCode) : Answers i s w (.next t) (.next (t.overrun w))
  | raised {u : State} {c : ErrCode} {n : Nat} (hu : i.RaisesFrom s u) (hc : i.canRaise c n = true) :
      Answers i s w (.next (u.raise c n)) (.next (u.overrun w))

/-! The shapes that the meanings share. -/

section
variable {i : Instr} {s : State} {w : Word} {d b : BufIdx}

namespace Answers

theorem fail_from {u : State} {c : ErrCode} {n : Nat} (hu : i.RaisesFrom s u) (hc : i.canRaise c n = true) :
    Answers i s w (u.fail c n) ((u.overrun w).fail c n) := by
  rw [State.fail, State.fail, State.raise_of_latched (s := u.overrun w) (by simp [State.overrun])]
  exact .raised hu hc

theorem fail {c : ErrCode} {n : Nat} (hc : i.canRaise c n = true) :
    Answers i s w (s.fail c n) ((s.overrun w).fail c n) :=
  fail_from (i.raisesFrom_refl s) hc

theorem ite {p : Prop} [Decidable p] {x x' y y' : Out} (hx : Answers i s w x x') (hy : Answers i s w y y') :
    Answers i s w (if p then x else y) (if p then x' else y') := by
  split
  · exact hx
  · exact hy

theorem withSymbol {k k' : Byte → Out} (hc : i.canRaise .badField 5 = true) (hk : ∀ y, Answers i s w (k y) (k' y)) :
    Answers i s w (s.withSymbol k) ((s.overrun w).withSymbol k') :=
  ite (fail hc) (hk _)

theorem withPath {k k' : List Bool → Out} (hc : ∀ n, i.canRaise .badLength n = true)
    (hk : ∀ xs, Answers i s w (k xs) (k' xs)) : Answers i s w (s.withPath b k) ((s.overrun w).withPath b k') :=
  ite (fail (hc _)) (hk _)

theorem withNode {k k' : NodeIdx → Out} (hc : ∀ n, i.canRaise .nodeIndex n = true)
    (hk : ∀ m, Answers i s w (k m) (k' m)) : Answers i s w (s.withNode k) ((s.overrun w).withNode k') :=
  ite (fail (hc _)) (hk _)

theorem appendTo {xs : List Bool} (hc : ∀ n, i.canRaise .capacity n = true) :
    Answers i s w (s.appendTo d xs) ((s.overrun w).appendTo d xs) :=
  ite (fail (hc _)) (done rfl)

theorem putAt {x : Bool} (hc : ∀ n, i.canRaise .capacity n = true) :
    Answers i s w (s.putAt d x) ((s.overrun w).putAt d x) :=
  ite (fail (hc _)) (done rfl)

end Answers

/-! CTWR, CTRD, NRD and TROOT. -/

theorem execCtwr_answers : Answers (.ctwr b) s w (execCtwr b s) (execCtwr b (s.overrun w)) :=
  .withSymbol rfl fun _ => .withPath (fun _ => rfl) fun _ => .done rfl

theorem execCtrd_answers : Answers (.ctrd d) s w (execCtrd d s) (execCtrd d (s.overrun w)) :=
  .withSymbol rfl fun _ => .ite (.done rfl) (.done rfl)

theorem execNrd_answers : Answers .nrd s w (execNrd s) (execNrd (s.overrun w)) :=
  .withNode (fun _ => rfl) fun _ => .done rfl

theorem execTroot_answers : Answers .troot s w (execTroot s) (execTroot (s.overrun w)) :=
  .withNode (fun _ => rfl) fun _ => .done rfl

/-! The errors of the walks over node memory. -/

theorem walkTree_error_code {nodes : List Node} {root : NodeIdx} {e : WalkError} (h : walkTree nodes root = .error e) :
    e.code = .nodeIndex ∨ e.code = .treeMalformed := by
  have hwalk := walkTree_walkedUpTo nodes root
  rw [h] at hwalk
  obtain ⟨_, route, n, _, _, hcode, _⟩ := hwalk
  rw [hcode, failureCode]
  split
  · exact .inl rfl
  · exact .inr rfl

theorem tinsFollow_error_code {nodes : List Node} {n : NodeIdx} {j : Nat} {xs : List Bool} {c : ErrCode} {k : Nat}
    (h : tinsFollow nodes n j xs = .error (c, k)) : c = .nodeIndex ∨ c = .recordConflict := by
  induction xs generalizing n j with
  | nil => cases h; exact .inr rfl
  | cons x xs ih =>
    simp only [tinsFollow] at h
    split at h
    · cases h
    split at h
    · cases h; exact .inl rfl
    split at h
    · cases h; exact .inr rfl
    · exact ih h

theorem decLoop_error_code {bufWords : Nat} {nodes : List Node} {root : NodeIdx} {j : Nat} {xs : List Bool}
    {k k' : Decoding} {c : ErrCode} {n : Nat} (h : decLoop bufWords nodes root j xs k = (k', some (c, n))) :
    c = .decodeCorrupt ∨ c = .nodeIndex ∨ c = .capacity := by
  induction xs generalizing j k with
  | nil => cases h
  | cons x xs ih =>
    simp only [decLoop] at h
    split at h
    · cases h; exact .inl rfl
    split at h
    · cases h; exact .inr (.inl rfl)
    split at h
    · split at h
      · cases h; exact .inr (.inr rfl)
      · exact ih h
    · exact ih h

/-! The commands that walk the node memory. -/

@[simp] theorem State.overrun_nodes : (s.overrun w).nodes = s.nodes := rfl
@[simp] theorem State.overrun_root : (s.overrun w).root = s.root := rfl
@[simp] theorem State.overrun_params : (s.overrun w).params = s.params := rfl
@[simp] theorem State.overrun_buf : (s.overrun w).buf b = s.buf b := rfl

theorem execWalk_answers_overrun : Answers .walk s w (execWalk s) (execWalk (s.overrun w)) := by
  refine .ite (.fail_from (u := s.setCt ctEmpty) ⟨ctEmpty, rfl⟩ rfl) ?_
  simp only [State.overrun_nodes, State.overrun_root]
  cases h : walkTree s.nodes s.root with
  | ok u => exact .done rfl
  | error e =>
    refine .fail_from (u := s.setCt e.ct) ⟨e.ct, rfl⟩ ?_
    rcases walkTree_error_code h with hc | hc <;> rw [hc] <;> rfl

theorem execTins_answers : Answers (.tins b) s w (execTins b s) (execTins b (s.overrun w)) := by
  refine .withSymbol rfl fun y => .withPath (fun _ => rfl) fun xs => .ite (.fail rfl) (.ite (.fail rfl) ?_)
  simp only [State.overrun_nodes, State.overrun_root]
  cases h : tinsFollow s.nodes s.root 0 xs with
  | error e =>
    refine .fail ?_
    rcases tinsFollow_error_code h with hc | hc <;> rw [hc] <;> rfl
  | ok r => exact .ite (.fail rfl) (.done rfl)

/-- DEC's errors after its two start checks keep what it decoded until then (R240, R275). -/
theorem fail_decoded_answers {k : Decoding} {c : ErrCode} {n : Nat} (hc : (Instr.dec d b).canRaise c n = true) :
    Answers (.dec d b) s w ((s.decoded d k).fail c n) (((s.overrun w).decoded d k).fail c n) :=
  .fail_from (u := s.decoded d k) ⟨k.out, _, _, _, rfl⟩ hc

theorem execDec_answers : Answers (.dec d b) s w (execDec d b s) (execDec d b (s.overrun w)) := by
  refine .ite (.fail rfl) (.ite (.fail rfl) ?_)
  simp only [State.overrun_nodes, State.overrun_root, State.overrun_params, State.overrun_buf]
  rcases h : decLoop s.params.bufWords s.nodes s.root 0 (s.buf b).bits ⟨s.buf d, 0, s.root, 0⟩ with ⟨k, _ | ⟨c, n⟩⟩
  · exact .ite (fail_decoded_answers rfl) (.done rfl)
  · refine fail_decoded_answers ?_
    rcases decLoop_error_code h with rfl | rfl | rfl <;> rfl

end

/-! Every command. -/

/-- The one command that writes the latch without a raise is CLRERR (R261, R275). -/
theorem exec_answers {i : Instr} (hi : i ≠ .clrerr) (s : State) (w : Word) :
    Answers i s w (exec i s) (exec i (s.overrun w)) := by
  cases i with
  | clrerr => exact absurd rfl hi
  | nop | bclr | brdw | bget | bshl | bshr | band | bor | beqp | beq | ctclr | tclr | trst => exact .done rfl
  | bsetlen | bwrw => exact .ite (.fail rfl) (.done rfl)
  | bset | bunset => exact .putAt fun _ => rfl
  | bapp => exact .ite (.fail rfl) (.appendTo fun _ => rfl)
  | bappb => exact .appendTo fun _ => rfl
  | benc => exact .withSymbol rfl fun _ => .ite (.appendTo fun _ => rfl) (.fail rfl)
  | ctwr => exact execCtwr_answers
  | ctrd => exact execCtrd_answers
  | walk => exact execWalk_answers_overrun
  | tins => exact execTins_answers
  | nwr => exact .ite (.fail rfl) (.ite (.fail rfl) (.done rfl))
  | nrd => exact execNrd_answers
  | troot => exact execTroot_answers
  | dec => exact execDec_answers

end Sys2Proof.Machine
end

section
/-! PROOFS. What every command completes with, and what one that raised leaves (60_exceptions.md R270 to R277). -/
namespace Sys2Proof.Machine

open Sys2Proof.Claims

variable {i : Instr} {s t u : State} {c : ErrCode} {n : Nat} {w : Word}

/-! Next states. -/

@[simp] theorem State.raise_bitPos (s : State) (c : ErrCode) (n : Nat) : (s.raise c n).bitPos = s.bitPos := by
  obtain ⟨e, v, k, he⟩ := s.raise_frame c n
  rw [he]

theorem sameButErr_raise (u : State) (c : ErrCode) (n : Nat) : SameButErr u (u.raise c n) := by
  obtain ⟨e, v, k, he⟩ := u.raise_frame c n
  rw [he]
  rfl

/-- A raise and an overrun of one state differ at most in the latch. -/
theorem sameButErr_raise_overrun (u : State) (c : ErrCode) (n : Nat) (w : Word) :
    SameButErr (u.raise c n) (u.overrun w) := by
  obtain ⟨e, v, k, he⟩ := u.raise_frame c n
  rw [he]
  rfl

/-- Both runs complete, with the same next state but for the latch (R270, R277). -/
theorem Answers.next {o o' : Out} (h : Answers i s w o o') :
    ∃ t u : State, o = .next t ∧ o' = .next (u.overrun w) ∧ SameButErr t (u.overrun w) := by
  cases h with
  | @done t => exact ⟨t, t, rfl, rfl, rfl⟩
  | @raised u c n => exact ⟨_, u, rfl, rfl, sameButErr_raise_overrun u c n w⟩

/-- Every command completes (R270). -/
theorem exec_next (i : Instr) (s : State) : ∃ t, exec i s = .next t := by
  by_cases hi : i = .clrerr
  · exact hi ▸ ⟨_, exec_clrerr s⟩
  · obtain ⟨t, _, ht, _⟩ := (exec_answers hi s 0#64).next
    exact ⟨t, ht⟩

/-- The engine's turn completes too, whatever the latched word (R27, R89). -/
theorem engineStep_next (s : State) : ∃ t, engineStep s = .next t := by
  have hperform : ∃ t, perform s = .next t := by
    unfold perform
    split
    · exact ⟨s, rfl⟩
    split
    · exact ⟨_, rfl⟩
    · exact exec_next _ s
  obtain ⟨t, ht⟩ := hperform
  unfold engineStep
  split
  · exact ⟨t.setBusy false, by rw [ht]; rfl⟩
  · exact ⟨s, rfl⟩

/-! The error that a command raised. -/

theorem State.raise_errCode_of_none (hu : u.errCode = .none) (c : ErrCode) (n : Nat) : (u.raise c n).errCode = c := by
  unfold State.raise
  rw [if_pos hu]
  split <;> rfl

theorem Instr.badFieldCode_lt (i : Instr) : i.badFieldCode < 2 ^ 64 := by
  unfold Instr.badFieldCode
  split <;> decide

theorem raisesFrom_errCode (h : i.RaisesFrom s u) : u.errCode = s.errCode := by
  cases i with
  | walk => obtain ⟨_, rfl⟩ := h; rfl
  | dec => obtain ⟨_, _, _, _, rfl⟩ := h; rfl
  | _ => rw [show u = s from h]

theorem Answers.raised_of_latched {o' : Out} (h : Answers i s w (.next t) o') (hs : s.errCode = .none)
    (ht : t.errCode ≠ .none) : ∃ u c n, i.RaisesFrom s u ∧ i.canRaise c n = true ∧ t = u.raise c n := by
  cases h with
  | done heq => exact absurd (heq.trans hs) ht
  | @raised u c n hu hc => exact ⟨u, c, n, hu, hc, rfl⟩

/-- A command that latched an error raised it, and did so from a state that R275 allows. -/
theorem exec_raised (hs : s.errCode = .none) (h : exec i s = .next t) (ht : t.errCode ≠ .none) :
    ∃ u c n, i.RaisesFrom s u ∧ i.canRaise c n = true ∧ t = u.raise c n := by
  by_cases hi : i = .clrerr
  · subst hi
    cases next_inj h
    exact absurd rfl ht
  exact (h ▸ exec_answers hi s 0#64).raised_of_latched hs ht

/-- The latched error is one of the command's row, and BAD_FIELD has the command's sub-code (R272, R273). -/
theorem exec_error_listed (hs : s.errCode = .none) (h : exec i s = .next t) (ht : t.errCode ≠ .none) :
    t.errCode ∈ i.errors ∧ (t.errCode = .badField → t.errInfo = BitVec.ofNat 64 i.badFieldCode) := by
  obtain ⟨u, c, n, hu, hc, rfl⟩ := exec_raised hs h ht
  obtain ⟨hmem, hsub⟩ := Instr.canRaise_iff.mp hc
  have hnone : u.errCode = .none := (raisesFrom_errCode hu).trans hs
  rw [State.raise_errCode_of_none hnone]
  refine ⟨hmem, fun hbad => ?_⟩
  rw [hsub hbad, State.raise_of_fits hnone c (Instr.badFieldCode_lt i)]
  rfl

end Sys2Proof.Machine
end

section
/-! PROOFS. The obligations about the error model (60_exceptions.md). -/
namespace Sys2Proof.Proofs

open Sys2Proof Sys2Proof.Machine Sys2Proof.Claims

/-- Settles O10: the write raises BUSY_OVERRUN, and the command's own error after it is the second one. -/
theorem busyOverrunDropsTheWord : Obligations.BusyOverrunDropsTheWord := by
  refine ⟨fun s ms w hb ha => ?_, fun s w i _ => ?_⟩
  · rw [step_write ha rfl, State.hostWrite_cmd, State.writeCmd, if_pos (show (s.setAgenda ms).busy = true from hb)]
    split
    · next h0 =>
      rw [State.raise_of_fits (s := s.setAgenda ms) h0 _ w.isLt, BitVec.ofNat_toNat, BitVec.setWidth_eq]
      rfl
    · next h0 =>
      rw [State.raise_of_latched (s := s.setAgenda ms) h0]
      rfl
  · by_cases hi : i = .clrerr
    · subst hi
      exact ⟨_, _, rfl, rfl, rfl, fun hne => absurd rfl hne⟩
    · obtain ⟨t, u, ht, hu, hsame⟩ := (exec_answers hi s w).next
      exact ⟨t, u.overrun w, ht, hu, hsame, fun _ => ⟨rfl, rfl⟩⟩

/-- Settles O20: every raise is of an error that the model lists for the command. -/
theorem commandRaisesOnlyItsErrors : Obligations.CommandRaisesOnlyItsErrors := by
  intro i s t hs h ht
  obtain ⟨hmem, hinfo⟩ := exec_error_listed hs h ht
  have badFieldFirst {cs : List ErrCode} (hcs : t.errCode ∈ .badField :: cs) :
      (t.errCode = .badField ∧ t.errInfo = BitVec.ofNat 64 i.badFieldCode) ∨ t.errCode ∈ cs :=
    (List.mem_cons.mp hcs).imp_left fun hbad => ⟨hbad, hinfo hbad⟩
  cases i with
  | nop | clrerr | bclr | brdw | bget | bshl | bshr | band | bor | beqp | beq | ctclr | tclr | trst => cases hmem
  | bsetlen | bwrw | bset | bunset | bappb | nrd | troot => exact List.mem_singleton.mp hmem
  | bapp | walk => simpa [Instr.errors] using hmem
  | benc | ctwr | ctrd | tins | nwr | dec => simpa [Instr.badFieldCode] using badFieldFirst hmem

/-- Settles O21: a raise keeps the state it is made from, which is the state at issue but for what WALK and DEC wrote. -/
theorem errorsArePrecise : Obligations.ErrorsArePrecise := by
  intro i s t hs h ht
  obtain ⟨u, c, n, hu, -, rfl⟩ := exec_raised hs h ht
  have hsame := sameButErr_raise u c n
  cases i with
  | walk =>
    obtain ⟨ct, rfl⟩ := hu
    rw [State.ct_raise]
    exact hsame
  | dec d b =>
    obtain ⟨x, count, pos, v, rfl⟩ := hu
    simp only [State.raise_symCount, State.raise_bitPos, State.raise_result, State.raise_buf]
    have hbuf : (((s.setBuf d x).setDecode count pos).setResult v).buf d = x := s.buf_setBuf_self d x
    rw [hbuf]
    exact hsame
  | _ => exact (show u = s from hu) ▸ hsame

/-- Settles O22: no meaning refuses or faults, and of the moves only a host access can be refused. -/
theorem stepStopsOnlyOnNarrowAccess : Obligations.StepStopsOnlyOnNarrowAccess := by
  refine ⟨exec_next, fun s => ?_⟩
  simp only [← wholeAccess_iff]
  unfold step agentStep
  split
  · exact .inl (engineStep_next _)
  · exact .inl (engineStep_next _)
  · next off bytes v ms ha =>
    split
    · exact .inl ⟨_, rfl⟩
    · next hw => exact .inr ⟨rfl, off, bytes, ms, hw, .inr ⟨v, ha⟩⟩
  · next off bytes ms ha =>
    split
    · exact .inl ⟨_, rfl⟩
    · next hw => exact .inr ⟨rfl, off, bytes, ms, hw, .inl ha⟩
  · exact .inl ⟨_, rfl⟩

/-- Settles O8: the engine performs a blocked word as nothing, and the block bit of an issue is R26's. -/
theorem blockedCommandIgnored : Obligations.BlockedCommandIgnored := by
  refine ⟨fun s ms ⟨hb, ha⟩ hl => ?_, fun s ms w hb ha => ⟨_, cmdWriteIssues s ms w hb ha, decide_eq_true_iff⟩⟩
  rw [step_engine hb ha, perform, if_pos (show (s.setAgenda ms).lblk = true from hl)]
  rfl

/-- Settles O17: the move left is the engine's, which is not enabled. -/
theorem idleBlockKeepsItsState : Obligations.IdleBlockKeepsItsState := by
  intro s ha hb
  simp [step, agentStep, ha, engineStep, hb]

end Sys2Proof.Proofs
end

section
/-! The reset move (70_reset_and_hazards.md R300, R301). -/
namespace Sys2Proof.Machine

/-- The CMD write that comes with the reset does not stand in the outcome: it is lost (R301). -/
theorem step_reset {s : State} {ms : List Move} {c : Option Word} (ha : s.agenda = .reset c :: ms) :
    step s = .next (s.setAgenda ms).resetBlock := by
  simp [step, agentStep, ha]

end Sys2Proof.Machine
end

section
/-! PROOFS. The obligations about reset (70_reset_and_hazards.md). -/
namespace Sys2Proof.Proofs

open Sys2Proof Sys2Proof.Machine Sys2Proof.Claims

/-- Settles O16: the reset move answers the reset block, whose fields are R300's; LCMD, LA0 and LA1 are the model's
own choice, that of `State.resetWith`. -/
theorem resetSetsEveryField : Obligations.ResetSetsEveryField :=
  fun s _ _ ha => ⟨(State.resetWith s.params).lcmd, (State.resetWith s.params).la0, (State.resetWith s.params).la1,
    step_reset ha⟩

end Sys2Proof.Proofs
end
